-- ==== Sys2Proof/Word.lean ====
section
/-! DEFINITION. The word and byte types of the LZ core, and the largest value of a POSW-bit counter. -/

namespace Sys2Proof

/-- A 32-bit word: a command word part, a response word, a CSR, a POSW-bit quantity (R10, R27, R91, R95). -/
abbrev Word := BitVec 32

/-- A byte of a byte space or stream (R60). -/
abbrev Byte := BitVec 8

/-- 2^POSW - 1 with POSW = 32 (R10, decision D4): the value at which a counter faults instead of wrapping (R16). -/
abbrev posMax : Nat := 4294967295

end Sys2Proof
end

