-- ==== Sys2Proof/Config.lean ====
section
/-! DEFINITION. The implementation parameters of R10 as plain data, and the free values of the model. -/

namespace Sys2Proof

/-- The parameters of R10 that a rule reads. NLANES and the index realisation are left out: no rule reads them when it
computes a result (R134, R149; notes/assumptions/13.md). -/
structure Params where
  /-- WMAX: largest windowSize. -/
  wmax : Nat
  /-- AUXMAX: capacity of AUX in bytes. -/
  auxmax : Nat
  /-- CAND_FAST: candidates inspected per search at level Fastest. -/
  candFast : Nat
  /-- CAND_OPT: candidates inspected per search at level Optimal. -/
  candOpt : Nat
  /-- LA_LEVEL_MASK: bit L says that level L honours the look-ahead flag. -/
  laMask : BitVec 4
  /-- CHUNK: chunk size of the whole-buffer driver. -/
  chunk : Nat
  /-- SWBUF: most bytes the window may hold pending after a command. -/
  swbuf : Nat
  deriving DecidableEq, Repr

/-- The column "legal values" of R10. -/
abbrev Params.Legal (p : Params) : Prop :=
  (1 ≤ p.wmax ∧ p.wmax ≤ posMax) ∧ (1 ≤ p.auxmax ∧ p.auxmax ≤ posMax) ∧
  (1 ≤ p.candFast ∧ p.candFast ≤ p.candOpt) ∧ p.laMask.getLsbD 0 = false ∧ 1 ≤ p.chunk

/-- The column "reference" of R10. -/
def Params.reference : Params where
  wmax := 65536
  auxmax := posMax
  candFast := 4
  candOpt := 32
  laMask := 0b1100
  chunk := 65536
  swbuf := 0

/-- FREE VALUE (notes/assumptions/8.md): how many bytes the SW drain moves at its n-th opportunity (R172, U7). -/
opaque Config.drainChoice : Nat → Nat

/-- FREE VALUE (notes/assumptions/7.md): what a RING slot that holds `undef` would read as (R50, U6); R169 says that no
command ever reads one. -/
opaque Config.ringByte : Nat → Byte

/-- FREE VALUE (notes/assumptions/6.md): what a position of INBUF reads as that the host has not supplied (R61). -/
opaque Config.inbufByte : Nat → Byte

end Sys2Proof
end

