-- ==== Sys2Proof/Syntax.lean ====
section
/-! DEFINITION. The command word and the 27 commands of spec/opcode_table.json. -/

namespace Sys2Proof

/-- A command word: three 32-bit words, taken by value (R91). -/
structure Cmd where
  w0 : Word
  w1 : Word
  w2 : Word
  deriving DecidableEq, Repr

/-- The commands of R97, one constructor per row. An operand is its field of the command word as it stands (R93); the
flags LSBF and CHECK are MOD[0] (R94). -/
inductive Instr where
  /-- 0x00 NOP (R120) -/
  | nop
  /-- 0x01 RESET (R121) -/
  | reset
  /-- 0x02 CSRW csr, value (R122) -/
  | csrw (csr value : Word)
  /-- 0x03 CSRR csr (R123) -/
  | csrr (csr : Word)
  /-- 0x10 MF_INIT (R137) -/
  | mfInit
  /-- 0x11 MF_FIND position (R138) -/
  | mfFind (position : Word)
  /-- 0x12 MF_ADD position (R139) -/
  | mfAdd (position : Word)
  /-- 0x13 MF_ADDR position, count (R140) -/
  | mfAddr (position count : Word)
  /-- 0x14 MF_FINDALL (R143) -/
  | mfFindall
  /-- 0x15 MF_MREAD entry (R144) -/
  | mfMread (entry : Word)
  /-- 0x20 SW_INIT (R162) -/
  | swInit
  /-- 0x21 SW_WRB byte (R163) -/
  | swWrb (byte : Word)
  /-- 0x22 SW_BCOPY distance, length (R164) -/
  | swBcopy (distance length : Word)
  /-- 0x23 SW_OCOPY offset, length (R165) -/
  | swOcopy (offset length : Word)
  /-- 0x24 SW_COPYFROM length (R166) -/
  | swCopyfrom (length : Word)
  /-- 0x25 SW_DISPOSE[.C] expected (R167) -/
  | swDispose (check : Bool) (expected : Word)
  /-- 0x30 FR_INIT (R183) -/
  | frInit
  /-- 0x31 FR_RBIT (R184) -/
  | frRbit
  /-- 0x32 FR_RINT[.L] bits (R185) -/
  | frRint (lsbf : Bool) (bits : Word)
  /-- 0x33 FR_RESET (R186) -/
  | frReset
  /-- 0x34 SRC_RB (R187) -/
  | srcRb
  /-- 0x40 FW_INIT (R197) -/
  | fwInit
  /-- 0x41 FW_WBIT bit (R198) -/
  | fwWbit (bit : Word)
  /-- 0x42 FW_WINT[.L] value, bits (R199) -/
  | fwWint (lsbf : Bool) (value bits : Word)
  /-- 0x43 FW_PAY byte (R200) -/
  | fwPay (byte : Word)
  /-- 0x44 FW_FLUSHN (R201) -/
  | fwFlushn
  /-- 0x45 FW_FLUSH (R202) -/
  | fwFlush
  deriving DecidableEq, Repr

end Sys2Proof
end

