-- ==== Sys2Proof/WellFormed.lean ====
section
/-! DEFINITION. When a command is well formed: the bits above a narrow operand are 0 (R92, R93, R98). The operand-range
checks of R106 step 5 (bits at most 32, an existing CSR, a position inside the input) are not part of it. -/

namespace Sys2Proof

/-- Formats A8 and A8B: an operand of 8 bits. -/
def fitsByte (w : Word) : Bool := decide (w.toNat < 256)

/-- Format A1: an operand of one bit. -/
def fitsBit (w : Word) : Bool := decide (w.toNat < 2)

/-- Formats A6M and AB6M: an operand of 6 bits. -/
def fitsSixBits (w : Word) : Bool := decide (w.toNat < 64)

/-- R98: no bit above a narrow operand is set. Every 32-bit operand and every flag is well formed as it stands. -/
def Instr.wellFormed : Instr → Bool
  | .nop => true
  | .reset => true
  | .csrw csr _ => fitsByte csr
  | .csrr csr => fitsByte csr
  | .mfInit => true
  | .mfFind _ => true
  | .mfAdd _ => true
  | .mfAddr _ _ => true
  | .mfFindall => true
  | .mfMread _ => true
  | .swInit => true
  | .swWrb byte => fitsByte byte
  | .swBcopy _ _ => true
  | .swOcopy _ _ => true
  | .swCopyfrom _ => true
  | .swDispose _ _ => true
  | .frInit => true
  | .frRbit => true
  | .frRint _ bits => fitsSixBits bits
  | .frReset => true
  | .srcRb => true
  | .fwInit => true
  | .fwWbit bit => fitsBit bit
  | .fwWint _ _ bits => fitsSixBits bits
  | .fwPay byte => fitsByte byte
  | .fwFlushn => true
  | .fwFlush => true

end Sys2Proof
end

