-- ==== Sys2Proof/Decode.lean ====
section
/-! DEFINITION. The fields and formats of a command word (R91, R92), the opcode map (R97), decoding with a named
rejection for every ill-formed word (R98), and the encoder. -/

namespace Sys2Proof

/-! ## Words, numbers and bytes (R91) -/

/-- The command as one 96-bit number, `W2 * 2^64 + W1 * 2^32 + W0`: the number the table's match and mask apply to. -/
def Cmd.toNat (c : Cmd) : Nat := c.w2.toNat * 18446744073709551616 + c.w1.toNat * 4294967296 + c.w0.toNat

/-- The command word with a given 96-bit number. -/
def Cmd.ofNat (n : Nat) : Cmd where
  w0 := BitVec.ofNat 32 n
  w1 := BitVec.ofNat 32 (n / 4294967296)
  w2 := BitVec.ofNat 32 (n / 18446744073709551616)

/-- One word in host memory: four bytes, little-endian (R91). -/
def wordBytes (w : Word) : List Byte :=
  [w.extractLsb' 0 8, w.extractLsb' 8 8, w.extractLsb' 16 8, w.extractLsb' 24 8]

/-- The word that four little-endian bytes hold. -/
def wordOfBytes (b0 b1 b2 b3 : Byte) : Word := b3 ++ b2 ++ b1 ++ b0

/-- A command in host memory: `W0`, `W1`, `W2` in that order, 12 bytes (R91). -/
def Cmd.bytes (c : Cmd) : List Byte := wordBytes c.w0 ++ wordBytes c.w1 ++ wordBytes c.w2

/-- The command word that 12 bytes of host memory hold; no other number of bytes is a command (R96). -/
def Cmd.ofBytes : List Byte → Option Cmd
  | [a0, a1, a2, a3, b0, b1, b2, b3, c0, c1, c2, c3] =>
    some ⟨wordOfBytes a0 a1 a2 a3, wordOfBytes b0 b1 b2 b3, wordOfBytes c0 c1 c2 c3⟩
  | _ => none

/-! ## Fields and formats -/

/-- The fields of a command word (R91). -/
structure Fields where
  opc : BitVec 8
  mod : BitVec 8
  rsv : BitVec 16
  a : Word
  b : Word
  deriving DecidableEq, Repr

/-- OPC = W0[7:0], MOD = W0[15:8], RSV = W0[31:16], A = W1, B = W2 (R91). -/
def Cmd.fields (c : Cmd) : Fields where
  opc := c.w0.extractLsb' 0 8
  mod := c.w0.extractLsb' 8 8
  rsv := c.w0.extractLsb' 16 16
  a := c.w1
  b := c.w2

/-- The command word with given fields. -/
def Fields.cmd (f : Fields) : Cmd where
  w0 := f.rsv ++ f.mod ++ f.opc
  w1 := f.a
  w2 := f.b

/-- The nine formats (R92). -/
inductive Format where
  | z | a | a8 | a1 | a6m | am | ab | a8b | ab6m
  deriving DecidableEq, Repr

/-- The bits of MOD a format uses (R92, R94). -/
def Format.modUsed : Format → BitVec 8
  | .z | .a | .a8 | .a1 | .ab | .a8b => 0
  | .a6m | .am | .ab6m => 1

/-- The bits of A a format uses (R92). -/
def Format.aUsed : Format → Word
  | .z => 0
  | .a | .am | .ab | .ab6m => 0xFFFFFFFF
  | .a8 | .a8b => 0xFF
  | .a1 => 0x1
  | .a6m => 0x3F

/-- The bits of B a format uses (R92). -/
def Format.bUsed : Format → Word
  | .z | .a | .a8 | .a1 | .a6m | .am => 0
  | .ab | .a8b => 0xFFFFFFFF
  | .ab6m => 0x3F

/-- LSBF or CHECK: bit 0 of MOD (R94). -/
def Fields.flag (f : Fields) : Bool := f.mod.getLsbD 0

/-! ## The opcode map and decoding -/

/-- The opcode map (R97): the format of each opcode and the command it stands for. -/
def opcodeRow (opc : BitVec 8) : Option (Format × (Fields → Instr)) :=
  match opc.toNat with
  | 0x00 => some (.z, fun _ => .nop)
  | 0x01 => some (.z, fun _ => .reset)
  | 0x02 => some (.a8b, fun f => .csrw f.a f.b)
  | 0x03 => some (.a8, fun f => .csrr f.a)
  | 0x10 => some (.z, fun _ => .mfInit)
  | 0x11 => some (.a, fun f => .mfFind f.a)
  | 0x12 => some (.a, fun f => .mfAdd f.a)
  | 0x13 => some (.ab, fun f => .mfAddr f.a f.b)
  | 0x14 => some (.z, fun _ => .mfFindall)
  | 0x15 => some (.a, fun f => .mfMread f.a)
  | 0x20 => some (.z, fun _ => .swInit)
  | 0x21 => some (.a8, fun f => .swWrb f.a)
  | 0x22 => some (.ab, fun f => .swBcopy f.a f.b)
  | 0x23 => some (.ab, fun f => .swOcopy f.a f.b)
  | 0x24 => some (.a, fun f => .swCopyfrom f.a)
  | 0x25 => some (.am, fun f => .swDispose f.flag f.a)
  | 0x30 => some (.z, fun _ => .frInit)
  | 0x31 => some (.z, fun _ => .frRbit)
  | 0x32 => some (.a6m, fun f => .frRint f.flag f.a)
  | 0x33 => some (.z, fun _ => .frReset)
  | 0x34 => some (.z, fun _ => .srcRb)
  | 0x40 => some (.z, fun _ => .fwInit)
  | 0x41 => some (.a1, fun f => .fwWbit f.a)
  | 0x42 => some (.ab6m, fun f => .fwWint f.flag f.a f.b)
  | 0x43 => some (.a8, fun f => .fwPay f.a)
  | 0x44 => some (.z, fun _ => .fwFlushn)
  | 0x45 => some (.z, fun _ => .fwFlush)
  | _ => none

/-- Why a word is ill-formed (R98). -/
inductive Reject where
  /-- the bytes are not the 12 bytes of one command (R96) -/
  | notTwelveBytes
  /-- OPC is not one of the 27 values of R97 -/
  | unknownOpcode
  /-- RSV is not 0 -/
  | reservedBits
  /-- a bit of MOD that the format does not use is set -/
  | modifierBits
  /-- a bit of A that the format does not use is set -/
  | operandA
  /-- a bit of B that the format does not use is set -/
  | operandB
  deriving DecidableEq, Repr

/-- What a word decodes to. -/
inductive Decoded where
  | ok (i : Instr)
  | rejected (r : Reject)
  deriving DecidableEq, Repr

/-- The fields against a format: the first unused bit that is set, if any (R92, R98). -/
def Format.violation (fmt : Format) (f : Fields) : Option Reject :=
  if f.rsv ≠ 0 then some .reservedBits
  else if f.mod &&& ~~~fmt.modUsed ≠ 0 then some .modifierBits
  else if f.a &&& ~~~fmt.aUsed ≠ 0 then some .operandA
  else if f.b &&& ~~~fmt.bUsed ≠ 0 then some .operandB
  else none

/-- Decoding of a command word (R97, R98): total, with a name for every rejection. -/
def decode (c : Cmd) : Decoded :=
  match opcodeRow c.fields.opc with
  | none => .rejected .unknownOpcode
  | some (fmt, build) =>
    match fmt.violation c.fields with
    | some r => .rejected r
    | none => .ok (build c.fields)

/-- Decoding of the bytes of host memory (R91, R96). -/
def decodeBytes (bs : List Byte) : Decoded :=
  match Cmd.ofBytes bs with
  | none => .rejected .notTwelveBytes
  | some c => decode c

/-! ## The encoder -/

/-- MOD with its bit 0 (R94). -/
def modOf (flag : Bool) : BitVec 8 := if flag then 1 else 0

/-- The fields of a command, from R92 and R97; RSV is always 0. -/
def Instr.fields : Instr → Fields
  | .nop => ⟨0x00, 0, 0, 0, 0⟩
  | .reset => ⟨0x01, 0, 0, 0, 0⟩
  | .csrw csr value => ⟨0x02, 0, 0, csr, value⟩
  | .csrr csr => ⟨0x03, 0, 0, csr, 0⟩
  | .mfInit => ⟨0x10, 0, 0, 0, 0⟩
  | .mfFind position => ⟨0x11, 0, 0, position, 0⟩
  | .mfAdd position => ⟨0x12, 0, 0, position, 0⟩
  | .mfAddr position count => ⟨0x13, 0, 0, position, count⟩
  | .mfFindall => ⟨0x14, 0, 0, 0, 0⟩
  | .mfMread entry => ⟨0x15, 0, 0, entry, 0⟩
  | .swInit => ⟨0x20, 0, 0, 0, 0⟩
  | .swWrb byte => ⟨0x21, 0, 0, byte, 0⟩
  | .swBcopy distance length => ⟨0x22, 0, 0, distance, length⟩
  | .swOcopy offset length => ⟨0x23, 0, 0, offset, length⟩
  | .swCopyfrom length => ⟨0x24, 0, 0, length, 0⟩
  | .swDispose check expected => ⟨0x25, modOf check, 0, expected, 0⟩
  | .frInit => ⟨0x30, 0, 0, 0, 0⟩
  | .frRbit => ⟨0x31, 0, 0, 0, 0⟩
  | .frRint lsbf bits => ⟨0x32, modOf lsbf, 0, bits, 0⟩
  | .frReset => ⟨0x33, 0, 0, 0, 0⟩
  | .srcRb => ⟨0x34, 0, 0, 0, 0⟩
  | .fwInit => ⟨0x40, 0, 0, 0, 0⟩
  | .fwWbit bit => ⟨0x41, 0, 0, bit, 0⟩
  | .fwWint lsbf value bits => ⟨0x42, modOf lsbf, 0, value, bits⟩
  | .fwPay byte => ⟨0x43, 0, 0, byte, 0⟩
  | .fwFlushn => ⟨0x44, 0, 0, 0, 0⟩
  | .fwFlush => ⟨0x45, 0, 0, 0, 0⟩

/-- The words of a command. A well-formed command has exactly one encoding (R98, R99). -/
def encode (i : Instr) : Cmd := i.fields.cmd

/-! ## The host's view of the table -/

/-- What the decoder reads from the 96-bit number `w` of which the table gives the low `nbits` bits (the bits above are
0): the word is laid out as 12 bytes of host memory and those are decoded (R91). -/
def decodeTableWord (nbits w : Nat) : Option Instr :=
  match decodeBytes (Cmd.ofNat (w % 2 ^ nbits)).bytes with
  | .ok i => some i
  | .rejected _ => none

end Sys2Proof
end

