-- ==== Sys2Proof/Machine/State.lean ====
section
/-! DEFINITION. The state of the LZ core as plain data (10_state.md, 20_memory.md section 1), its reset (R50), and the
reasons a step can stop. -/

namespace Sys2Proof.Machine

/-- A random-access byte space (INBUF, RING): cells of (address, byte), addresses strictly rising. An unlisted address has
no byte (R42 `undef`, R61; notes/assumptions/6.md and 7.md). -/
abbrev Memory := List Host.Cell

/-- The effort levels, in the order that numbers them 0, 1, 2, 3 (R11, R36). -/
inductive Level where
  | levelNone | fastest | optimal | smallestSize
  deriving DecidableEq, Repr

/-- The size of a flag unit: 1, 2 or 4 bytes (R38, R44). -/
inductive UnitSize where
  | one | two | four
  deriving DecidableEq, Repr

/-- The three parameters of a flag unit (R38, R44, R45): its size, its bit order (`lsb`: least-significant-first) and its
byte order (`le`: little-endian). -/
structure FlagCfg where
  unit : UnitSize
  lsb : Bool
  le : Bool
  deriving DecidableEq, Repr

/-- MF_CTRL (R36): its reserved bits do not exist. -/
structure MfCtrl where
  level : Level
  la : Bool
  deriving DecidableEq, Repr

/-- The configuration registers 0x10 to 0x16 (R28, R32 to R38). -/
structure Csr where
  winSize : Word
  minLen : Word
  maxLen : Word
  winStart : Word
  mfCtrl : MfCtrl
  mfInlen : Word
  fcCfg : FlagCfg
  deriving DecidableEq, Repr

/-- The causes of a fault (R221). -/
inductive Cause where
  | configError | corruptReference | endOfInput | sizeMismatch | illegalCommand | badSequence | overflow
  deriving DecidableEq, Repr

/-- What fault entry records (R224): STATUS.CAUSE, STATUS.FOPC, FINFO0, FINFO1. -/
structure FaultRecord where
  cause : Cause
  fopc : BitVec 8
  info0 : Word
  info1 : Word
  deriving DecidableEq, Repr

/-- A Match (R25). The sentinel is the record whose length is 0. -/
structure Match where
  offset : Word
  distance : Word
  length : Word
  deriving DecidableEq, Repr

/-- An index (R47, 41_match_finder.md section 2): a set of positions, newest first, and a cursor. -/
structure Index where
  set : List Nat
  next : Nat
  deriving DecidableEq, Repr

/-- The match finder (R46). `input` is INBUF as it stood at MF_INIT (R51, R61, R264; notes/assumptions/5.md). -/
structure Mf where
  active : Bool
  winSize : Word
  minLen : Word
  maxLen : Word
  level : Level
  la : Bool
  n : Word
  input : Memory
  index : Index
  ml : List Match
  deriving DecidableEq, Repr

/-- The sliding window (R42). `pend` holds the produced bytes the sink has not received, oldest first (R49). -/
structure Sw where
  active : Bool
  winSize : Word
  winStart : Word
  ring : Memory
  produced : Word
  pend : List Byte
  deriving DecidableEq, Repr

/-- The flag reader (R44). The accumulator stands in the low U bits of `acc` (notes/assumptions/14.md). -/
structure Fr where
  active : Bool
  cfg : FlagCfg
  acc : Word
  left : Nat
  deriving DecidableEq, Repr

/-- The flag writer (R45), `aux` oldest byte first. The accumulator stands in the low U bits of `acc`. -/
structure Fw where
  active : Bool
  cfg : FlagCfg
  acc : Word
  cnt : Nat
  aux : List Byte
  deriving DecidableEq, Repr

/-- A response (R95). -/
structure Response where
  st : BitVec 8
  r0 : Word
  r1 : Word
  r2 : Word
  deriving DecidableEq, Repr

/-- What the host can do to the block (R90, R61, R66, R173, R250; notes/assumptions/1.md, 24.md). -/
inductive HostAct where
  /-- present a command word (R90) -/
  | command (c : Cmd)
  /-- present these command words in order, one at a time, and leave out those that follow one that faults (R173) -/
  | untilFault (cs : List Cmd)
  /-- power-on reset (R250) -/
  | powerOn
  /-- have new SRC contents ready for the next reset (R66, R121) -/
  | setSource (bytes : List Byte)
  /-- fill INBUF, position 0 first; the finder sees it from the next MF_INIT on (R61) -/
  | setInput (bytes : List Byte)
  deriving DecidableEq, Repr

/-- The state of the block and of what stands at its boundary. -/
structure State where
  /-- the parameters (R10), which no command changes (R51) -/
  par : Params
  /-- what the host does next, oldest first -/
  host : List HostAct
  /-- the response of the last command (R95) -/
  resp : Option Response
  /-- the SRC contents the next reset installs (R66, R121) -/
  srcNext : List Byte
  /-- INBUF as the host has filled it (R61) -/
  inbuf : Memory
  /-- the number of drain choices taken so far: the model's own field (notes/assumptions/9.md) -/
  drainTick : Nat
  /-- the fault record: `some` exactly when STATUS.FAULT = 1 (R31, R39) -/
  flt : Option FaultRecord
  /-- CMDCNT (R40) -/
  cmdcnt : Word
  /-- the configuration registers -/
  csr : Csr
  /-- the match finder -/
  mf : Mf
  /-- the sliding window -/
  sw : Sw
  /-- the flag reader -/
  fr : Fr
  /-- the flag writer -/
  fw : Fw
  /-- SRC contents (R66) -/
  src : List Byte
  /-- SRC.pos (R66) -/
  srcPos : Word
  /-- SINK (R67) -/
  sink : List Byte
  /-- DST (R68) -/
  dst : List Byte
  deriving DecidableEq, Repr

/-- A fault that stops the machine. There is none: a fault of the spec is a next state, the faulted state (R224), and
every command word gets a response (R226), so nothing raises one (notes/assumptions/21.md). -/
inductive Fault where
  deriving DecidableEq, Repr

/-- A step without a meaning. -/
inductive Refusal where
  /-- raised by exec's arm of an instruction that has no meaning in this model yet; safe: nothing is claimed of it. No arm
  of this model raises it. (The spec's own "refused" commands of R226 are next states, not this.) -/
  | notModelled (mnemonic : String)
  deriving DecidableEq, Repr

/-! ## Reset values (R50) -/

/-- FC_CFG = 0: 1-byte unit, most-significant-first, big-endian. -/
def FlagCfg.reset : FlagCfg := ⟨.one, false, false⟩

def Csr.reset : Csr where
  winSize := 0
  minLen := 0
  maxLen := 0
  winStart := 0
  mfCtrl := ⟨.levelNone, false⟩
  mfInlen := 0
  fcCfg := FlagCfg.reset

def Mf.reset : Mf where
  active := false
  winSize := 0
  minLen := 0
  maxLen := 0
  level := .levelNone
  la := false
  n := 0
  input := []
  index := ⟨[], 0⟩
  ml := []

def Sw.reset : Sw where
  active := false
  winSize := 0
  winStart := 0
  ring := []
  produced := 0
  pend := []

def Fr.reset : Fr where
  active := false
  cfg := FlagCfg.reset
  acc := 0
  left := 0

def Fw.reset : Fw where
  active := false
  cfg := FlagCfg.reset
  acc := 0
  cnt := 0
  aux := []

/-- The machine right after power-on reset (R50, R250, R251). The parameters have their reference values and the host has
supplied nothing yet (notes/assumptions/1.md, 3.md, 4.md, 5.md). -/
def State.reset : State where
  par := Params.reference
  host := []
  resp := none
  srcNext := []
  inbuf := []
  drainTick := 0
  flt := none
  cmdcnt := 0
  csr := Csr.reset
  mf := Mf.reset
  sw := Sw.reset
  fr := Fr.reset
  fw := Fw.reset
  src := []
  srcPos := 0
  sink := []
  dst := []

/-! ## Named updates, one per field that a command changes -/

def State.withResp (s : State) (r : Option Response) : State := { s with resp := r }
def State.withFlt (s : State) (f : Option FaultRecord) : State := { s with flt := f }
def State.withCmdcnt (s : State) (n : Word) : State := { s with cmdcnt := n }
def State.withCsr (s : State) (c : Csr) : State := { s with csr := c }
def State.withMf (s : State) (m : Mf) : State := { s with mf := m }
def State.withSw (s : State) (w : Sw) : State := { s with sw := w }
def State.withFr (s : State) (f : Fr) : State := { s with fr := f }
def State.withFw (s : State) (f : Fw) : State := { s with fw := f }
def State.withSrcPos (s : State) (p : Word) : State := { s with srcPos := p }
def State.withSink (s : State) (l : List Byte) : State := { s with sink := l }
def State.withDst (s : State) (l : List Byte) : State := { s with dst := l }
def State.withHost (s : State) (l : List HostAct) : State := { s with host := l }

end Sys2Proof.Machine
end

