-- ==== Sys2Proof/Machine/Operands.lean ====
section
/-! DEFINITION. How operands, configuration values and codes are read from words and written to them. -/

namespace Sys2Proof.Machine

/-! ## Narrow operands (R92, R93) -/

/-- A[7:0], the operand of formats A8 and A8B. -/
def byteOperand (w : Word) : Byte := w.extractLsb' 0 8

/-- A[0], the operand of format A1. -/
def bitOperand (w : Word) : Bool := w.getLsbD 0

/-- A byte as a response word: R0[7:0], with R0[31:8] = 0 (R125). -/
def wordOfByte (b : Byte) : Word := b.setWidth 32

/-- A flag bit as a response word. -/
def wordOfBit (b : Bool) : Word := (BitVec.ofBool b).setWidth 32

/-- A natural as a 32-bit word; every use has a value below 2^32 in a reachable state (R126). -/
def wordOfNat (n : Nat) : Word := BitVec.ofNat 32 n

/-! ## Codes -/

/-- The two-bit code of a level (R11, R105). -/
def Level.code : Level → BitVec 2
  | .levelNone => 0
  | .fastest => 1
  | .optimal => 2
  | .smallestSize => 3

def Level.ofCode (c : BitVec 2) : Level :=
  match c.toNat with
  | 0 => .levelNone
  | 1 => .fastest
  | 2 => .optimal
  | _ => .smallestSize

/-- The two-bit code of a unit size (R38, R105). -/
def UnitSize.code : UnitSize → BitVec 2
  | .one => 0
  | .two => 1
  | .four => 2

/-- UNIT = 3 is illegal (R38). -/
def UnitSize.ofCode (c : BitVec 2) : Option UnitSize :=
  match c.toNat with
  | 0 => some .one
  | 1 => some .two
  | 2 => some .four
  | _ => none

/-- The code of a cause, in STATUS.CAUSE and in ST (R221). -/
def Cause.code : Cause → BitVec 8
  | .configError => 1
  | .corruptReference => 2
  | .endOfInput => 3
  | .sizeMismatch => 4
  | .illegalCommand => 5
  | .badSequence => 6
  | .overflow => 7

/-! ## The two structured configuration registers -/

/-- MF_CTRL as a word: LEVEL in bits 1:0, LA in bit 2, reserved bits 0 (R36). -/
def MfCtrl.word (c : MfCtrl) : Word := (BitVec.ofBool c.la ++ c.level.code).setWidth 32

/-- The MF_CTRL that a word writes; bits 31:3 must be 0 (R36, R122). -/
def MfCtrl.ofWord (w : Word) : Option MfCtrl :=
  if w.extractLsb' 3 29 = 0 then some ⟨Level.ofCode (w.extractLsb' 0 2), w.getLsbD 2⟩ else none

/-- FC_CFG as a word: UNIT in bits 1:0, BITORD in bit 2, BYTEORD in bit 3, reserved bits 0 (R38). -/
def FlagCfg.word (c : FlagCfg) : Word :=
  (BitVec.ofBool c.le ++ BitVec.ofBool c.lsb ++ c.unit.code).setWidth 32

/-- The FC_CFG that a word writes; bits 31:4 must be 0 and UNIT must not be 3 (R38, R122). -/
def FlagCfg.ofWord (w : Word) : Option FlagCfg :=
  if w.extractLsb' 4 28 = 0 then
    match UnitSize.ofCode (w.extractLsb' 0 2) with
    | some u => some ⟨u, w.getLsbD 2, w.getLsbD 3⟩
    | none => none
  else none

end Sys2Proof.Machine
end

