-- ==== Sys2Proof/Machine/Flags.lean ====
section
/-! DEFINITION. The geometry of a flag unit: its size, the place of the k-th flag bit, its bytes and its value (R69, R104).
The block has no condition flags (R23). -/

namespace Sys2Proof.Machine

/-- `u`: the bytes of a unit (R38, R44). -/
def UnitSize.bytes : UnitSize → Nat
  | .one => 1
  | .two => 2
  | .four => 4

/-- `U = 8 * u`: the flag bits of a unit (R44). -/
def FlagCfg.bits (c : FlagCfg) : Nat := 8 * c.unit.bytes

/-- Where the k-th flag bit of a group stands in the unit's value: bit U-1-k most-significant-first, bit k
least-significant-first (R69). -/
def FlagCfg.place (c : FlagCfg) (k : Nat) : Nat := if c.lsb then k else c.bits - 1 - k

/-- The value of bytes stored least significant byte first (R69, R181). -/
def valueLE : List Byte → Nat
  | [] => 0
  | b :: bs => b.toNat + 256 * valueLE bs

/-- The value of a unit's bytes in stream order (R69, R181). -/
def unitValue (le : Bool) (bs : List Byte) : Nat := if le then valueLE bs else valueLE bs.reverse

/-- The `u` low bytes of a value, least significant first. -/
def bytesLE (v : Word) : Nat → List Byte
  | 0 => []
  | k + 1 => v.extractLsb' 0 8 :: bytesLE (v >>> 8) k

/-- A unit's bytes in stream order (R69, R196). -/
def unitBytes (le : Bool) (u : Nat) (v : Word) : List Byte := if le then bytesLE v u else (bytesLE v u).reverse

end Sys2Proof.Machine
end

