-- ==== Sys2Proof/Machine/Ops.lean ====
section
/-! DEFINITION. The named operations the commands are made of: byte spaces, streams, the drain, the CSR read, fault
entry and refusal, reset (the only way out of the faulted state), and the frame every command runs in (R106). -/

namespace Sys2Proof.Machine

/-! ## Random-access byte spaces (R15) -/

/-- What an unlisted address holds: no byte (notes/assumptions/6.md, 7.md). -/
def Memory.unlisted : Option Byte := none

/-- The byte at an address. -/
def Memory.read : Memory → Nat → Option Byte
  | [], _ => Memory.unlisted
  | (k, b) :: m, a => if k = a then some b else Memory.read m a

/-- Storing a byte at an address keeps the addresses strictly rising. -/
def Memory.write : Memory → Nat → Byte → Memory
  | [], a, b => [(a, b)]
  | (k, v) :: m, a, b =>
    if a < k then (a, b) :: (k, v) :: m
    else if a = k then (a, b) :: m
    else (k, v) :: Memory.write m a b

/-- The space that holds a byte sequence from an address on. -/
def Memory.ofBytes : Nat → List Byte → Memory
  | _, [] => []
  | a, b :: bs => (a, b) :: Memory.ofBytes (a + 1) bs

/-- The canonical form: addresses strictly rising. -/
abbrev Memory.wf (m : Memory) : Prop := m.Pairwise (fun x y => x.1 < y.1)

/-- `INBUF[p]` as the finder reads it (R61); a position the host has not supplied is a free value. -/
def Mf.inputAt (m : Mf) (p : Nat) : Byte := (m.input.read p).getD (Config.inbufByte p)

/-- `RING[i]` (R62); a slot that holds `undef` would be a free value, and R169 says none is ever read. -/
def Sw.ringAt (w : Sw) (i : Nat) : Byte := (w.ring.read i).getD (Config.ringByte i)

/-! ## STATUS and the CSR read -/

/-- STATUS.FAULT (R31). -/
def State.faulted (s : State) : Bool := s.flt.isSome

/-- STATUS.CAUSE: 0 when FAULT = 0 (R31). -/
def State.causeCode (s : State) : BitVec 8 := match s.flt with | some f => f.cause.code | none => 0

/-- STATUS.FOPC: 0 when FAULT = 0 (R31). -/
def State.faultOpcode (s : State) : BitVec 8 := match s.flt with | some f => f.fopc | none => 0

/-- FINFO0: 0 while FAULT = 0 (R39). -/
def State.finfo0 (s : State) : Word := match s.flt with | some f => f.info0 | none => 0

/-- FINFO1: 0 while FAULT = 0 (R39). -/
def State.finfo1 (s : State) : Word := match s.flt with | some f => f.info1 | none => 0

/-- The bits 4:0 of STATUS: FW_ACT, FR_ACT, SW_ACT, MF_ACT, FAULT (R31). -/
def State.statusLow (s : State) : BitVec 8 :=
  (BitVec.ofBool s.fw.active ++ BitVec.ofBool s.fr.active ++ BitVec.ofBool s.sw.active ++
    BitVec.ofBool s.mf.active ++ BitVec.ofBool s.faulted).setWidth 8

/-- STATUS (R31): 0, FOPC, CAUSE, 000, the unit-active bits and FAULT. -/
def State.status (s : State) : Word :=
  (0 : BitVec 8) ++ s.faultOpcode ++ s.causeCode ++ s.statusLow

/-- ID: 0x4C5A0001 at all times (R30). -/
def idWord : Word := 0x4C5A0001

/-- The CSR with a number (R28): none for a reserved number. -/
def State.csrRead (s : State) (number : Nat) : Option Word :=
  match number with
  | 0x00 => some idWord
  | 0x01 => some s.status
  | 0x02 => some s.finfo0
  | 0x03 => some s.finfo1
  | 0x04 => some s.cmdcnt
  | 0x10 => some s.csr.winSize
  | 0x11 => some s.csr.minLen
  | 0x12 => some s.csr.maxLen
  | 0x13 => some s.csr.winStart
  | 0x14 => some s.csr.mfCtrl.word
  | 0x15 => some s.csr.mfInlen
  | 0x16 => some s.csr.fcCfg.word
  | 0x20 => some (wordOfNat s.mf.index.next)
  | 0x21 => some (wordOfNat s.mf.ml.length)
  | 0x22 => some s.sw.produced
  | 0x23 => some s.srcPos
  | 0x24 => some (wordOfNat s.fr.left)
  | 0x25 => some (wordOfNat s.fw.cnt)
  | 0x26 => some (wordOfNat s.fw.aux.length)
  | _ => none

/-- The CSR number of SW_PRODUCED, SRC_POS and FW_AUXLEN, for the first word of Overflow (R222). -/
def csrSwProduced : Word := 0x22
def csrSrcPos : Word := 0x23
def csrFwAuxlen : Word := 0x26

/-! ## Results of pseudocode (R16) -/

/-- What a piece of pseudocode ends in: a value, or a raise with its cause and information words. Either carries the state,
so the effects before a raise are kept (R16, R225). -/
inductive Res (α : Type) where
  | ok (a : α) (s : State)
  | raise (c : Cause) (i0 i1 : Word) (s : State)
  deriving Repr

/-- Sequencing: what follows a raise is not done (R16, R225). -/
def Res.bind {α β : Type} (r : Res α) (f : α → State → Res β) : Res β :=
  match r with
  | .ok a s => f a s
  | .raise c i0 i1 s => .raise c i0 i1 s

/-- The same outcome with the state changed, in both cases. -/
def Res.mapState {α : Type} (f : State → State) : Res α → Res α
  | .ok a s => .ok a (f s)
  | .raise c i0 i1 s => .raise c i0 i1 (f s)

/-- The result words R0, R1, R2 of a completed command (R95). -/
structure Reply where
  r0 : Word
  r1 : Word
  r2 : Word
  deriving DecidableEq, Repr

/-- 0 where the rule says nothing (R95). -/
def Reply.zero : Reply := ⟨0, 0, 0⟩

/-- A command that returns one word. -/
def Reply.one (w : Word) : Reply := ⟨w, 0, 0⟩

/-! ## Streams -/

/-- `SrcNext(k)` (R66): EndOfInput is tested before Overflow, and a failed read consumes nothing. -/
def srcNext (k : Nat) (s : State) : Res (List Byte) :=
  if s.src.length < s.srcPos.toNat + k then
    .raise .endOfInput s.srcPos (wordOfNat (s.srcPos.toNat + k - s.src.length)) s
  else if posMax < s.srcPos.toNat + k then .raise .overflow csrSrcPos 0 s
  else .ok ((s.src.drop s.srcPos.toNat).take k) (s.withSrcPos (wordOfNat (s.srcPos.toNat + k)))

/-- `DstPut(bytes)` (R68). -/
def dstPut (bytes : List Byte) (s : State) : State := s.withDst (s.dst ++ bytes)

/-- `SinkPut(b)` (R67): onto the pending queue. -/
def sinkPut (b : Byte) (s : State) : State := s.withSw { s.sw with pend := s.sw.pend ++ [b] }

/-- The drain's step (R172), `k` times: the oldest pending bytes go to SINK. -/
def drainBy (k : Nat) (s : State) : State :=
  (s.withSink (s.sink ++ s.sw.pend.take k)).withSw { s.sw with pend := s.sw.pend.drop k }

/-- What the drain must have done when a command is complete: at most SWBUF bytes pending (R172). -/
def settle (s : State) : State := drainBy (s.sw.pend.length - s.par.swbuf) s

/-- The drain between two commands: any number of bytes, a free value (R172, U7; notes/assumptions/8.md). -/
def freeDrain (s : State) : State :=
  match s.sw.pend with
  | [] => s
  | _ :: _ => { drainBy (Config.drainChoice s.drainTick) s with drainTick := s.drainTick + 1 }

/-! ## Responses, fault entry, refusal -/

/-- R106 step 7: CMDCNT counts the command, modulo 2^32 (R40). -/
def countCommand (s : State) : State := s.withCmdcnt (s.cmdcnt + 1)

/-- Deliver a response (R95). -/
def respond (r : Response) (s : State) : State := s.withResp (some r)

/-- Fault entry (R224): the record (STATUS.FAULT, CAUSE, FOPC = W0[7:0], FINFO0, FINFO1) and the response. -/
def takeFault (w0 : Word) (c : Cause) (i0 i1 : Word) (s : State) : State :=
  respond ⟨c.code, i0, i1, 0⟩ (s.withFlt (some ⟨c, w0.extractLsb' 0 8, i0, i1⟩))

/-- A refused command (R226, R106 step 2): only CMDCNT changes. -/
def refuse (s : State) : State := countCommand (respond ⟨0xFF, s.status, s.finfo0, s.finfo1⟩ s)

/-- The end of a command (R95, R106 step 7, R224): the response of a completed command, or fault entry; then the count. -/
def finish (w0 : Word) : Res Reply → State
  | .ok r s => countCommand (respond ⟨0, r.r0, r.r1, r.r2⟩ s)
  | .raise c i0 i1 s => countCommand (takeFault w0 c i0 i1 s)

/-- `raise IllegalCommand(W0, W1)` (R93, R222). -/
def illegal {α : Type} (i : Instr) (s : State) : Res α :=
  .raise .illegalCommand (encode i).w0 (encode i).w1 s

/-- An ill-formed word (R98, R106 steps 2 and 3): refused while faulted, else IllegalCommand(W0, W1). -/
def illFormed (c : Cmd) (s : State) : State :=
  if s.faulted then refuse s else finish c.w0 (.raise .illegalCommand c.w0 c.w1 s)

/-! ## Reset: the only return from the faulted state (R227, R250, R251) -/

/-- Every piece of the block's state at the value of R50. What stands outside the block stays: the parameters, what the
host does next, and the contents it supplies, of which the SRC contents it has ready are installed (R51, R66, R121;
notes/assumptions/4.md, 9.md). -/
def resetBlock (s : State) : State :=
  { State.reset with
    par := s.par, host := s.host, srcNext := s.srcNext, inbuf := s.inbuf, drainTick := s.drainTick, src := s.srcNext }

/-! ## The frame of a command (R106) -/

/-- The units that commands belong to (R19, R106 step 4). -/
inductive UnitId where
  | mf | sw | fr | fw
  deriving DecidableEq, Repr

/-- The unit a command needs active: none for the system commands, the `*_INIT` commands and SRC_RB (R48, R106 step 4). -/
def unitOf : Instr → Option UnitId
  | .nop => none
  | .reset => none
  | .csrw _ _ => none
  | .csrr _ => none
  | .mfInit => none
  | .mfFind _ => some .mf
  | .mfAdd _ => some .mf
  | .mfAddr _ _ => some .mf
  | .mfFindall => some .mf
  | .mfMread _ => some .mf
  | .swInit => none
  | .swWrb _ => some .sw
  | .swBcopy _ _ => some .sw
  | .swOcopy _ _ => some .sw
  | .swCopyfrom _ => some .sw
  | .swDispose _ _ => some .sw
  | .frInit => none
  | .frRbit => some .fr
  | .frRint _ _ => some .fr
  | .frReset => some .fr
  | .srcRb => none
  | .fwInit => none
  | .fwWbit _ => some .fw
  | .fwWint _ _ _ => some .fw
  | .fwPay _ => some .fw
  | .fwFlushn => some .fw
  | .fwFlush => some .fw

/-- Whether a unit is active (R48). -/
def State.unitActive (s : State) : UnitId → Bool
  | .mf => s.mf.active
  | .sw => s.sw.active
  | .fr => s.fr.active
  | .fw => s.fw.active

/-- Whether the unit a command belongs to is there (R106 step 4). -/
def unitReady (i : Instr) (s : State) : Bool :=
  match unitOf i with
  | none => true
  | some u => s.unitActive u

/-- The commands still executed while faulted, RESET apart: NOP, and CSRR of an existing CSR (R106 step 2, R226). -/
def runsWhileFaulted (i : Instr) (s : State) : Bool :=
  match i with
  | .nop => true
  | .csrr csr => (s.csrRead csr.toNat).isSome
  | .reset | .csrw _ _ | .mfInit | .mfFind _ | .mfAdd _ | .mfAddr _ _ | .mfFindall | .mfMread _ | .swInit | .swWrb _
  | .swBcopy _ _ | .swOcopy _ _ | .swCopyfrom _ | .swDispose _ _ | .frInit | .frRbit | .frRint _ _ | .frReset | .srcRb
  | .fwInit | .fwWbit _ | .fwWint _ _ _ | .fwPay _ | .fwFlushn | .fwFlush => false

/-- R106 steps 2, 4, 5 to 7 for a well-formed command other than RESET: refused while faulted, BadSequence(W0, STATUS) while
its unit is idle, else the checks and the operation of its own rule (`body`), then the response or fault entry and the
count. -/
def runCommand (i : Instr) (body : State → Res Reply) (s : State) : Host.Outcome State Fault Refusal :=
  if s.faulted && !runsWhileFaulted i s then .next (refuse s)
  else if !unitReady i s then .next (finish (encode i).w0 (.raise .badSequence (encode i).w0 s.status s))
  else .next (finish (encode i).w0 (body s))

end Sys2Proof.Machine
end

