-- ==== Sys2Proof/Machine/FlagReader.lean ====
section
/-! DEFINITION. The flag reader commands FR_INIT, FR_RBIT, FR_RINT, FR_RESET, and SRC_RB (43_flag_reader.md). -/

namespace Sys2Proof.Machine

/-! ## Primitives -/

/-- refill() (R181): a whole unit or nothing. -/
def refill (s : State) : Res Unit :=
  (srcNext s.fr.cfg.unit.bytes s).bind fun bytes s1 =>
    .ok () (s1.withFr { s1.fr with acc := wordOfNat (unitValue s1.fr.cfg.le bytes), left := s1.fr.cfg.bits })

/-- The bit the reader hands out next (R182). -/
def Fr.topBit (f : Fr) : Bool :=
  if f.cfg.lsb then f.acc.getLsbD (f.cfg.bits - f.left) else f.acc.getLsbD (f.left - 1)

/-- The part of next_bit() after the refill (R182). -/
def takeBit (s : State) : Res Bool := .ok s.fr.topBit (s.withFr { s.fr with left := s.fr.left - 1 })

/-- next_bit() (R182): a refill only when no bit is left. -/
def nextBit (s : State) : Res Bool :=
  if s.fr.left = 0 then (refill s).bind fun _ s1 => takeBit s1 else takeBit s

/-- One step of the composition of R185: bit number `i` into the value so far. -/
def composeBit (lsbf : Bool) (i : Nat) (v : Nat) (b : Bool) : Nat :=
  if lsbf then v + b.toNat * 2 ^ i else 2 * v + b.toNat

/-- The loop of R185: `k` bits to go, `i` bits taken, `v` so far. -/
def readInt (lsbf : Bool) : Nat → Nat → Nat → State → Res Nat
  | 0, _, v, s => .ok v s
  | k + 1, i, v, s => (nextBit s).bind fun b s1 => readInt lsbf k (i + 1) (composeBit lsbf i v b) s1

/-! ## Commands -/

/-- R183. -/
def frInitOp (s : State) : Res Reply :=
  .ok Reply.zero (s.withFr { active := true, cfg := s.csr.fcCfg, acc := 0, left := 0 })

/-- R184. -/
def frRbitOp (s : State) : Res Reply := (nextBit s).bind fun b s1 => .ok (Reply.one (wordOfBit b)) s1

/-- R185. -/
def frRintOp (lsbf : Bool) (bits : Word) (s : State) : Res Reply :=
  if ¬(bits.toNat ≤ 32) then illegal (.frRint lsbf bits) s
  else (readInt lsbf bits.toNat 0 0 s).bind fun v s1 => .ok (Reply.one (wordOfNat v)) s1

/-- R186. -/
def frResetOp (s : State) : Res Reply := .ok Reply.zero (s.withFr { s.fr with acc := 0, left := 0 })

/-- R187. -/
def srcRbOp (s : State) : Res Reply :=
  (srcNext 1 s).bind fun bytes s1 => .ok (Reply.one (wordOfByte (bytes.headD 0))) s1

/-- FR_INIT (R183). -/
def execFrInit (s : State) : Host.Outcome State Fault Refusal := runCommand .frInit frInitOp s

/-- FR_RBIT (R184). -/
def execFrRbit (s : State) : Host.Outcome State Fault Refusal := runCommand .frRbit frRbitOp s

/-- FR_RINT (R185). -/
def execFrRint (lsbf : Bool) (bits : Word) (s : State) : Host.Outcome State Fault Refusal :=
  runCommand (.frRint lsbf bits) (frRintOp lsbf bits) s

/-- FR_RESET (R186). -/
def execFrReset (s : State) : Host.Outcome State Fault Refusal := runCommand .frReset frResetOp s

/-- SRC_RB (R187). -/
def execSrcRb (s : State) : Host.Outcome State Fault Refusal := runCommand .srcRb srcRbOp s

end Sys2Proof.Machine
end

