-- ==== Sys2Proof/Machine/FlagWriter.lean ====
section
/-! DEFINITION. The flag writer commands FW_INIT, FW_WBIT, FW_WINT, FW_PAY, FW_FLUSHN, FW_FLUSH (44_flag_writer.md). -/

namespace Sys2Proof.Machine

/-! ## Primitives -/

/-- The waiting payload goes to DST (R196, R201, R202). -/
def flushAux (s : State) : State := (dstPut s.fw.aux s).withFw { s.fw with aux := [] }

/-- emit_group() (R196): the unit, then the payload; both are then empty. -/
def emitGroup (s : State) : State :=
  let s1 := flushAux (dstPut (unitBytes s.fw.cfg.le s.fw.cfg.unit.bytes s.fw.acc) s)
  s1.withFw { s1.fw with acc := 0, cnt := 0 }

/-- The accumulator with flag bit number `k` set (R198). -/
def setFlagBit (c : FlagCfg) (acc : Word) (k : Nat) : Word := acc ||| BitVec.twoPow 32 (c.place k)

/-- put_bit(b) (R198): a full group is emitted at once. -/
def putBit (b : Bool) (s : State) : State :=
  let acc := if b then setFlagBit s.fw.cfg s.fw.acc s.fw.cnt else s.fw.acc
  let s1 := s.withFw { s.fw with acc := acc, cnt := s.fw.cnt + 1 }
  if s1.fw.cnt = s1.fw.cfg.bits then emitGroup s1 else s1

/-- Writing flag bits in order. -/
def putBits : List Bool → State → State
  | [], s => s
  | b :: bs, s => putBits bs (putBit b s)

/-- The flag bits of an integer in the order R199 writes them; the value's bits at and above `bits` are ignored. -/
def intBits (lsbf : Bool) (value : Word) (bits : Nat) : List Bool :=
  (List.range bits).map fun i => if lsbf then value.getLsbD i else value.getLsbD (bits - 1 - i)

/-! ## Commands -/

/-- R197. -/
def fwInitOp (s : State) : Res Reply :=
  .ok Reply.zero (s.withFw { active := true, cfg := s.csr.fcCfg, acc := 0, cnt := 0, aux := [] })

/-- R198. -/
def fwWbitOp (bit : Word) (s : State) : Res Reply := .ok Reply.zero (putBit (bitOperand bit) s)

/-- R199. -/
def fwWintOp (lsbf : Bool) (value bits : Word) (s : State) : Res Reply :=
  if ¬(bits.toNat ≤ 32) then illegal (.fwWint lsbf value bits) s
  else .ok Reply.zero (putBits (intBits lsbf value bits.toNat) s)

/-- R200. -/
def fwPayOp (byte : Word) (s : State) : Res Reply :=
  if ¬(s.fw.aux.length < s.par.auxmax) then .raise .overflow csrFwAuxlen 0 s
  else .ok Reply.zero (s.withFw { s.fw with aux := s.fw.aux ++ [byteOperand byte] })

/-- R201: only at a group boundary. -/
def fwFlushnOp (s : State) : Res Reply :=
  .ok Reply.zero (if s.fw.cnt = 0 ∧ s.fw.aux ≠ [] then flushAux s else s)

/-- R202: the unwritten bits of the accumulator are 0, the padding. -/
def fwFlushOp (s : State) : Res Reply :=
  .ok Reply.zero (if 0 < s.fw.cnt then emitGroup s else if s.fw.aux ≠ [] then flushAux s else s)

/-- FW_INIT (R197). -/
def execFwInit (s : State) : Host.Outcome State Fault Refusal := runCommand .fwInit fwInitOp s

/-- FW_WBIT (R198). -/
def execFwWbit (bit : Word) (s : State) : Host.Outcome State Fault Refusal :=
  runCommand (.fwWbit bit) (fwWbitOp bit) s

/-- FW_WINT (R199). -/
def execFwWint (lsbf : Bool) (value bits : Word) (s : State) : Host.Outcome State Fault Refusal :=
  runCommand (.fwWint lsbf value bits) (fwWintOp lsbf value bits) s

/-- FW_PAY (R200). -/
def execFwPay (byte : Word) (s : State) : Host.Outcome State Fault Refusal :=
  runCommand (.fwPay byte) (fwPayOp byte) s

/-- FW_FLUSHN (R201). -/
def execFwFlushn (s : State) : Host.Outcome State Fault Refusal := runCommand .fwFlushn fwFlushnOp s

/-- FW_FLUSH (R202). -/
def execFwFlush (s : State) : Host.Outcome State Fault Refusal := runCommand .fwFlush fwFlushOp s

end Sys2Proof.Machine
end

