-- ==== Sys2Proof/Machine/MatchFinder.lean ====
section
/-! DEFINITION. The match finder commands MF_INIT, MF_FIND, MF_ADD, MF_ADDR, MF_FINDALL, MF_MREAD (41_match_finder.md). -/

namespace Sys2Proof.Machine

/-! ## Per-level constants (R11) -/

/-- `CAND[level]`: the candidate budget, none for no bound (R11). -/
def candBound (p : Params) : Level → Option Nat
  | .levelNone => some 0
  | .fastest => some p.candFast
  | .optimal => some p.candOpt
  | .smallestSize => none

/-- `LAOK[level]`: bit `level` of LA_LEVEL_MASK (R11). -/
def laOk (p : Params) (l : Level) : Bool := p.laMask.getLsbD l.code.toNat

/-! ## Primitives (R131 to R135) -/

/-- Position `p` is keyable under `limit` (R131). -/
def keyable (m : Mf) (p limit : Nat) : Bool := decide (p + m.minLen.toNat ≤ limit)

/-- The `k` bytes from `p` and from `q` on are equal. -/
def sameBytes (m : Mf) (p q : Nat) : Nat → Bool
  | 0 => true
  | k + 1 => m.inputAt p == m.inputAt q && sameBytes m (p + 1) (q + 1) k

/-- The keys of `p` and `pos` are equal (R131, R133). -/
def sameKey (m : Mf) (p pos : Nat) : Bool := sameBytes m p pos m.minLen.toNat

/-- insert(I, p, limit) (R132). -/
def insertPos (m : Mf) (p limit : Nat) (ix : Index) : Index :=
  if m.level = .levelNone then ix
  else if p < ix.next then ix
  else ⟨if keyable m p limit then p :: ix.set else ix.set, p + 1⟩

/-- `count` inserts at consecutive positions from `p` on. -/
def insertRange (m : Mf) (limit : Nat) : Nat → Nat → Index → Index
  | 0, _, ix => ix
  | k + 1, p, ix => insertRange m limit k (p + 1) (insertPos m p limit ix)

/-- The loop of R133 that extends a candidate from `len` on. The first argument bounds the iterations; `limit - pos`
always suffices, since the loop stops at `pos + len = limit`. -/
def extend (m : Mf) (p pos limit : Nat) : Nat → Nat → Nat
  | 0, len => len
  | k + 1, len =>
    if len < m.maxLen.toNat ∧ pos + len < limit ∧ m.inputAt (p + len) = m.inputAt (pos + len) then
      extend m p pos limit k (len + 1)
    else len

/-- The length a candidate reaches (R133). -/
def matchLen (m : Mf) (p pos limit : Nat) : Nat := extend m p pos limit (limit - pos) m.minLen.toNat

/-- A later candidate replaces the best one only if it is strictly longer (R133). -/
def better (best : Option (Nat × Nat)) (cand : Nat × Nat) : Option (Nat × Nat) :=
  match best with
  | none => some cand
  | some b => if b.2 < cand.2 then some cand else some b

/-- The loop of R133 over the positions of the index, newest first. -/
def searchLoop (m : Mf) (bound : Option Nat) (pos limit : Nat) :
    List Nat → Option (Nat × Nat) → Nat → Option (Nat × Nat)
  | [], best, _ => best
  | p :: ps, best, inspected =>
    if pos ≤ p then searchLoop m bound pos limit ps best inspected
    else if m.winSize.toNat < pos - p then best
    else if !sameKey m p pos then searchLoop m bound pos limit ps best inspected
    else if bound = some inspected then best
    else searchLoop m bound pos limit ps (better best (pos - p, matchLen m p pos limit)) (inspected + 1)

/-- search(I, pos, limit): (distance, length) or none (R133). -/
def search (par : Params) (m : Mf) (ix : Index) (pos limit : Nat) : Option (Nat × Nat) :=
  if m.level = .levelNone then none
  else if !keyable m pos limit then none
  else searchLoop m (candBound par m.level) pos limit ix.set none 0

/-- Whether look-ahead drops a match (R135): the match one position further is strictly longer. -/
def deferred (par : Params) (m : Mf) (ix : Index) (pos limit : Nat) (m0 : Nat × Nat) : Bool :=
  m.la && match search par m ix (pos + 1) limit with
    | none => false
    | some m1 => decide (m0.2 < m1.2)

/-- probe(I, pos, limit) (R135): search, insert, then look-ahead with `pos` already indexed. -/
def probe (par : Params) (m : Mf) (ix : Index) (pos limit : Nat) : Option (Nat × Nat) × Index :=
  let ix1 := insertPos m pos limit ix
  match search par m ix pos limit with
  | none => (none, ix1)
  | some m0 => (if deferred par m ix1 pos limit m0 then none else some m0, ix1)

/-- A record of the match list (R25, R142). -/
def matchOf (pos : Nat) (dl : Nat × Nat) : Match := ⟨wordOfNat pos, wordOfNat dl.1, wordOfNat dl.2⟩

/-! ## The whole-buffer driver (R141 to R143) -/

/-- partition(n) (R141). -/
def partition (par : Params) (n : Nat) : List (Nat × Nat) :=
  let k := max 1 (n / par.chunk)
  (List.range k).map fun j => (j * par.chunk, if j = k - 1 then n else (j + 1) * par.chunk)

/-- The loop of lane(s, e) (R142). The first argument bounds the iterations; each one moves `pos` forward, so `e - s`
suffices (notes/assumptions/23.md). -/
def laneLoop (par : Params) (m : Mf) (e : Nat) : Nat → Nat → Index → List Match
  | 0, _, _ => []
  | k + 1, pos, ix =>
    if pos < e then
      match probe par m ix pos e with
      | (some dl, ix1) =>
        matchOf pos dl :: laneLoop par m e k (pos + dl.2) (insertRange m e (dl.2 - 1) (pos + 1) ix1)
      | (none, ix1) => laneLoop par m e k (pos + 1) ix1
    else []

/-- lane(s, e) (R142): up to W bytes of preceding context, then the greedy search with a private index. -/
def lane (par : Params) (m : Mf) (se : Nat × Nat) : List Match :=
  let from' := se.1 - m.winSize.toNat
  laneLoop par m se.2 (se.2 - se.1) se.1 (insertRange m se.2 (se.1 - from') from' ⟨[], 0⟩)

/-- The list that MF_FINDALL builds (R143). -/
def findAll (par : Params) (m : Mf) : List Match :=
  if m.level = .levelNone then [] else (partition par m.n.toNat).flatMap (lane par m)

/-! ## Commands -/

/-- The reply that carries a match (R103). -/
def Reply.ofMatch (m : Match) : Reply := ⟨m.offset, m.distance, m.length⟩

/-- R137. -/
def mfInitOp (s : State) : Res Reply :=
  let c := s.csr
  if ¬(1 ≤ c.winSize.toNat ∧ c.winSize.toNat ≤ s.par.wmax) then .raise .configError 0x10 c.winSize s
  else if ¬(1 ≤ c.minLen.toNat) then .raise .configError 0x11 c.minLen s
  else if ¬(c.minLen.toNat ≤ c.maxLen.toNat) then .raise .configError 0x12 c.maxLen s
  else .ok Reply.zero (s.withMf
    { active := true
      winSize := c.winSize
      minLen := c.minLen
      maxLen := c.maxLen
      level := c.mfCtrl.level
      la := c.mfCtrl.la && laOk s.par c.mfCtrl.level
      n := c.mfInlen
      input := s.inbuf
      index := ⟨[], 0⟩
      ml := [] })

/-- R138. -/
def mfFindOp (position : Word) (s : State) : Res Reply :=
  if ¬(position.toNat < s.mf.n.toNat) then illegal (.mfFind position) s
  else
    let r := probe s.par s.mf s.mf.index position.toNat s.mf.n.toNat
    .ok (match r.1 with | none => Reply.zero | some dl => Reply.ofMatch (matchOf position.toNat dl))
      (s.withMf { s.mf with index := r.2 })

/-- R139. -/
def mfAddOp (position : Word) (s : State) : Res Reply :=
  if ¬(position.toNat < s.mf.n.toNat) then illegal (.mfAdd position) s
  else .ok Reply.zero (s.withMf { s.mf with index := insertPos s.mf position.toNat s.mf.n.toNat s.mf.index })

/-- R140; the sum is exact. -/
def mfAddrOp (position count : Word) (s : State) : Res Reply :=
  if ¬(position.toNat + count.toNat ≤ s.mf.n.toNat) then illegal (.mfAddr position count) s
  else .ok Reply.zero
    (s.withMf { s.mf with index := insertRange s.mf s.mf.n.toNat count.toNat position.toNat s.mf.index })

/-- R143. -/
def mfFindallOp (s : State) : Res Reply :=
  let l := findAll s.par s.mf
  .ok (Reply.one (wordOfNat l.length)) (s.withMf { s.mf with ml := l })

/-- R144: the record, or the sentinel at or past the end. -/
def mfMreadOp (entry : Word) (s : State) : Res Reply :=
  .ok (match s.mf.ml[entry.toNat]? with | some m => Reply.ofMatch m | none => Reply.zero) s

/-- MF_INIT (R137). -/
def execMfInit (s : State) : Host.Outcome State Fault Refusal := runCommand .mfInit mfInitOp s

/-- MF_FIND (R138). -/
def execMfFind (position : Word) (s : State) : Host.Outcome State Fault Refusal :=
  runCommand (.mfFind position) (mfFindOp position) s

/-- MF_ADD (R139). -/
def execMfAdd (position : Word) (s : State) : Host.Outcome State Fault Refusal :=
  runCommand (.mfAdd position) (mfAddOp position) s

/-- MF_ADDR (R140). -/
def execMfAddr (position count : Word) (s : State) : Host.Outcome State Fault Refusal :=
  runCommand (.mfAddr position count) (mfAddrOp position count) s

/-- MF_FINDALL (R143). -/
def execMfFindall (s : State) : Host.Outcome State Fault Refusal := runCommand .mfFindall mfFindallOp s

/-- MF_MREAD (R144). -/
def execMfMread (entry : Word) (s : State) : Host.Outcome State Fault Refusal :=
  runCommand (.mfMread entry) (mfMreadOp entry) s

end Sys2Proof.Machine
end

