-- ==== Sys2Proof/Machine/System.lean ====
section
/-! DEFINITION. The system commands NOP, RESET, CSRW, CSRR (40_system.md). -/

namespace Sys2Proof.Machine

/-- `csr[number] <- value` (R122): none for a number other than 0x10 .. 0x16 and for an illegal value. -/
def csrWrite (number : Nat) (v : Word) (c : Csr) : Option Csr :=
  match number with
  | 0x10 => some { c with winSize := v }
  | 0x11 => some { c with minLen := v }
  | 0x12 => some { c with maxLen := v }
  | 0x13 => some { c with winStart := v }
  | 0x14 => (MfCtrl.ofWord v).map fun x => { c with mfCtrl := x }
  | 0x15 => some { c with mfInlen := v }
  | 0x16 => (FlagCfg.ofWord v).map fun x => { c with fcCfg := x }
  | _ => none

/-- R122. -/
def csrwOp (csr value : Word) (s : State) : Res Reply :=
  match csrWrite csr.toNat value s.csr with
  | some c => .ok Reply.zero (s.withCsr c)
  | none => illegal (.csrw csr value) s

/-- R123. -/
def csrrOp (csr : Word) (s : State) : Res Reply :=
  match s.csrRead csr.toNat with
  | some v => .ok (Reply.one v) s
  | none => illegal (.csrr csr) s

/-- NOP (R120). -/
def execNop (s : State) : Host.Outcome State Fault Refusal := runCommand .nop (fun s => .ok Reply.zero s) s

/-- RESET (R121): in every state, and not counted (R106 step 1, R40). -/
def execReset (s : State) : Host.Outcome State Fault Refusal := .next (respond ⟨0, 0, 0, 0⟩ (resetBlock s))

/-- CSRW (R122). -/
def execCsrw (csr value : Word) (s : State) : Host.Outcome State Fault Refusal :=
  runCommand (.csrw csr value) (csrwOp csr value) s

/-- CSRR (R123). -/
def execCsrr (csr : Word) (s : State) : Host.Outcome State Fault Refusal := runCommand (.csrr csr) (csrrOp csr) s

end Sys2Proof.Machine
end

