-- ==== Sys2Proof/Machine/Window.lean ====
section
/-! DEFINITION. The sliding window commands SW_INIT, SW_WRB, SW_BCOPY, SW_OCOPY, SW_COPYFROM, SW_DISPOSE
(42_sliding_window.md). -/

namespace Sys2Proof.Machine

/-! ## Primitives -/

/-- The ring slot of the next write: (ws + produced) mod W (R42, R161). -/
def Sw.writeSlot (w : Sw) : Nat := (w.winStart.toNat + w.produced.toNat) % w.winSize.toNat

/-- The ring slot `d` bytes behind the write cursor: (ws + produced - d) mod W (R164). -/
def Sw.readSlot (w : Sw) (d : Nat) : Nat := (w.winStart.toNat + w.produced.toNat - d) % w.winSize.toNat

/-- put(b) (R161). -/
def put (b : Byte) (s : State) : Res Unit :=
  if ¬(s.sw.produced.toNat < posMax) then .raise .overflow csrSwProduced 0 s
  else
    let s1 := sinkPut b (s.withSw { s.sw with ring := s.sw.ring.write s.sw.writeSlot b })
    .ok () (s1.withSw { s1.sw with produced := s1.sw.produced + 1 })

/-- The loop of R164: the read slot is recomputed for every byte. -/
def copyLoop (d : Nat) : Nat → State → Res Unit
  | 0, s => .ok () s
  | k + 1, s => (put (s.sw.ringAt (s.sw.readSlot d)) s).bind fun _ s1 => copyLoop d k s1

/-- The distance check (R164), made once and before any byte is copied, then the loop. -/
def backCopy (d length : Nat) (s : State) : Res Unit :=
  if ¬(1 ≤ d ∧ d ≤ s.sw.winSize.toNat ∧ d ≤ s.sw.produced.toNat) then
    .raise .corruptReference (wordOfNat d) s.sw.produced s
  else copyLoop d length s

/-- The distance that an offset names (R165). -/
def Sw.offsetDistance (w : Sw) (offset : Nat) : Nat :=
  let t := (w.writeSlot + w.winSize.toNat - offset % w.winSize.toNat) % w.winSize.toNat
  if t = 0 then w.winSize.toNat else t

/-- The loop of R166. -/
def copyFromLoop : Nat → State → Res Unit
  | 0, s => .ok () s
  | k + 1, s =>
    (srcNext 1 s).bind fun bytes s1 => (put (bytes.headD 0) s1).bind fun _ s2 => copyFromLoop k s2

/-- The end of a command that produces bytes: the reply says nothing, and at most SWBUF bytes stay pending (R172). -/
def producing (r : Res Unit) : Res Reply := (r.bind fun _ s => .ok Reply.zero s).mapState settle

/-! ## Commands -/

/-- R162. -/
def swInitOp (s : State) : Res Reply :=
  if ¬(1 ≤ s.csr.winSize.toNat ∧ s.csr.winSize.toNat ≤ s.par.wmax) then .raise .configError 0x10 s.csr.winSize s
  else .ok Reply.zero (s.withSw
    { active := true
      winSize := s.csr.winSize
      winStart := s.csr.winStart
      ring := []
      produced := 0
      pend := [] })

/-- R163. -/
def swWrbOp (byte : Word) (s : State) : Res Reply := producing (put (byteOperand byte) s)

/-- R164. -/
def swBcopyOp (distance length : Word) (s : State) : Res Reply :=
  producing (backCopy distance.toNat length.toNat s)

/-- R165. -/
def swOcopyOp (offset length : Word) (s : State) : Res Reply :=
  producing (backCopy (s.sw.offsetDistance offset.toNat) length.toNat s)

/-- R166. -/
def swCopyfromOp (length : Word) (s : State) : Res Reply := producing (copyFromLoop length.toNat s)

/-- R167: the drain and the deactivation come before the size check. -/
def swDisposeOp (check : Bool) (expected : Word) (s : State) : Res Reply :=
  if ¬(check = true ∨ expected = 0) then illegal (.swDispose check expected) s
  else
    let s1 := drainBy s.sw.pend.length s
    let s2 := s1.withSw { s1.sw with active := false }
    if check && s.sw.produced != expected then .raise .sizeMismatch expected s.sw.produced s2
    else .ok (Reply.one s.sw.produced) s2

/-- SW_INIT (R162). -/
def execSwInit (s : State) : Host.Outcome State Fault Refusal := runCommand .swInit swInitOp s

/-- SW_WRB (R163). -/
def execSwWrb (byte : Word) (s : State) : Host.Outcome State Fault Refusal :=
  runCommand (.swWrb byte) (swWrbOp byte) s

/-- SW_BCOPY (R164). -/
def execSwBcopy (distance length : Word) (s : State) : Host.Outcome State Fault Refusal :=
  runCommand (.swBcopy distance length) (swBcopyOp distance length) s

/-- SW_OCOPY (R165). -/
def execSwOcopy (offset length : Word) (s : State) : Host.Outcome State Fault Refusal :=
  runCommand (.swOcopy offset length) (swOcopyOp offset length) s

/-- SW_COPYFROM (R166). -/
def execSwCopyfrom (length : Word) (s : State) : Host.Outcome State Fault Refusal :=
  runCommand (.swCopyfrom length) (swCopyfromOp length) s

/-- SW_DISPOSE (R167). -/
def execSwDispose (check : Bool) (expected : Word) (s : State) : Host.Outcome State Fault Refusal :=
  runCommand (.swDispose check expected) (swDisposeOp check expected) s

end Sys2Proof.Machine
end

