-- ==== Sys2Proof/Machine/Dispatch.lean ====
section
/-! DEFINITION. The dispatch from a decoded command to its meaning, one arm per command. -/

namespace Sys2Proof.Machine

/-- What the block does with a well-formed command (R106). -/
def exec (i : Instr) (s : State) : Host.Outcome State Fault Refusal :=
  match i with
  | .nop => Sys2Proof.Machine.execNop s
  | .reset => Sys2Proof.Machine.execReset s
  | .csrw csr value => Sys2Proof.Machine.execCsrw csr value s
  | .csrr csr => Sys2Proof.Machine.execCsrr csr s
  | .mfInit => Sys2Proof.Machine.execMfInit s
  | .mfFind position => Sys2Proof.Machine.execMfFind position s
  | .mfAdd position => Sys2Proof.Machine.execMfAdd position s
  | .mfAddr position count => Sys2Proof.Machine.execMfAddr position count s
  | .mfFindall => Sys2Proof.Machine.execMfFindall s
  | .mfMread entry => Sys2Proof.Machine.execMfMread entry s
  | .swInit => Sys2Proof.Machine.execSwInit s
  | .swWrb byte => Sys2Proof.Machine.execSwWrb byte s
  | .swBcopy distance length => Sys2Proof.Machine.execSwBcopy distance length s
  | .swOcopy offset length => Sys2Proof.Machine.execSwOcopy offset length s
  | .swCopyfrom length => Sys2Proof.Machine.execSwCopyfrom length s
  | .swDispose check expected => Sys2Proof.Machine.execSwDispose check expected s
  | .frInit => Sys2Proof.Machine.execFrInit s
  | .frRbit => Sys2Proof.Machine.execFrRbit s
  | .frRint lsbf bits => Sys2Proof.Machine.execFrRint lsbf bits s
  | .frReset => Sys2Proof.Machine.execFrReset s
  | .srcRb => Sys2Proof.Machine.execSrcRb s
  | .fwInit => Sys2Proof.Machine.execFwInit s
  | .fwWbit bit => Sys2Proof.Machine.execFwWbit bit s
  | .fwWint lsbf value bits => Sys2Proof.Machine.execFwWint lsbf value bits s
  | .fwPay byte => Sys2Proof.Machine.execFwPay byte s
  | .fwFlushn => Sys2Proof.Machine.execFwFlushn s
  | .fwFlush => Sys2Proof.Machine.execFwFlush s

end Sys2Proof.Machine
end

