-- ==== Sys2Proof/Machine/Sequencer.lean ====
section
/-! DEFINITION. The sequencer (R8, R75, R90, R106): what one command word does, and one host action with the drain around
it (R172, R173). -/

namespace Sys2Proof.Machine

/-- One command word (R106): a well-formed one runs, an ill-formed one raises IllegalCommand or is refused. -/
def issue (c : Cmd) (s : State) : Host.Outcome State Fault Refusal :=
  match decode c with
  | .ok i => exec i s
  | .rejected _ => .next (illFormed c s)

/-- The same outcome with the next state changed. -/
def mapNext (f : State → State) : Host.Outcome State Fault Refusal → Host.Outcome State Fault Refusal
  | .next s => .next (f s)
  | .fault r => .fault r
  | .refused r => .refused r

/-- The drain after a step. -/
def drainAfter (o : Host.Outcome State Fault Refusal) : Host.Outcome State Fault Refusal := mapNext freeDrain o

/-! ## What the host does -/

/-- Whether a response says that its command raised a fault: ST is a cause code, neither 0 nor 0xFF (R95). -/
def Response.isFault (r : Response) : Bool := r.st != 0 && r.st != 0xFF

/-- The commands of a sequence that are still to be issued, as host actions. -/
def untilFaultActs : List Cmd → List HostAct
  | [] => []
  | c :: cs => [.untilFault (c :: cs)]

/-- After one command of a sequence: the host goes on with the others, unless the command faulted (R173). -/
def goOn (cs : List Cmd) (s : State) : State :=
  if s.resp.any Response.isFault then s else s.withHost (untilFaultActs cs ++ s.host)

/-- The first command of a sequence (R173). -/
def issueFirst : List Cmd → State → Host.Outcome State Fault Refusal
  | [], s => .next s
  | c :: cs, s => mapNext (goOn cs) (issue c s)

/-- The command word that an action presents now. -/
def HostAct.word : HostAct → Option Cmd
  | .command c => some c
  | .untilFault cs => cs.head?
  | .powerOn => none
  | .setSource _ => none
  | .setInput _ => none

/-- The command word that the next step takes, if it takes one. -/
def State.nextWord (s : State) : Option Cmd := s.host.head?.bind HostAct.word

/-- One action of the host (R90, R61, R66, R173, R250). Power-on reset leaves no response outstanding. -/
def hostAct (a : HostAct) (s : State) : Host.Outcome State Fault Refusal :=
  match a with
  | .command c => issue c s
  | .untilFault cs => issueFirst cs s
  | .powerOn => .next (resetBlock s)
  | .setSource bytes => .next { s with srcNext := bytes }
  | .setInput bytes => .next { s with inbuf := Memory.ofBytes 0 bytes }

/-- One step of the machine: the drain may move bytes, the host's next action is done, the drain may move bytes again
(R172; notes/assumptions/8.md). With no action waiting the block holds its state (R239, R251; notes/assumptions/1.md). -/
def cycle (s : State) : Host.Outcome State Fault Refusal :=
  match s.host with
  | [] => .next (freeDrain s)
  | a :: rest => drainAfter (hostAct a (freeDrain (s.withHost rest)))

/-- The host presents a command word before anything else it has in mind. -/
def presentFirst (c : Cmd) (s : State) : State := s.withHost (.command c :: s.host)

end Sys2Proof.Machine
end

