-- ==== Sys2Proof/Machine/Step.lean ====
section
/-! DEFINITION. One step of the machine, and a state whose next step runs a given command word. -/

namespace Sys2Proof.Machine

/-- One step (R75): one action of the host, or waiting for one. -/
def step (s : State) : Host.Outcome State Fault Refusal := cycle s

/-- The state whose next step takes the command with the low `nbits` bits of the 96-bit number `w` (R91): commands arrive
by value from the host (R22, R90), so the word is the host's next action (notes/assumptions/1.md). -/
def State.withFetchWord (s : State) (nbits w : Nat) : State := presentFirst (Cmd.ofNat (w % 2 ^ nbits)) s

end Sys2Proof.Machine
end

