-- ==== Sys2Proof/Machine/Assembler.lean ====
section
/-! DEFINITION. The assembler spelling of a command (R101) and the pseudo-commands (R102, R173). Neither is seen by the
block, which receives words. -/

namespace Sys2Proof.Machine

/-- The mnemonic of a command as the opcode map has it (R97). -/
def tableName : Instr → String
  | .nop => "NOP"
  | .reset => "RESET"
  | .csrw _ _ => "CSRW"
  | .csrr _ => "CSRR"
  | .mfInit => "MF_INIT"
  | .mfFind _ => "MF_FIND"
  | .mfAdd _ => "MF_ADD"
  | .mfAddr _ _ => "MF_ADDR"
  | .mfFindall => "MF_FINDALL"
  | .mfMread _ => "MF_MREAD"
  | .swInit => "SW_INIT"
  | .swWrb _ => "SW_WRB"
  | .swBcopy _ _ => "SW_BCOPY"
  | .swOcopy _ _ => "SW_OCOPY"
  | .swCopyfrom _ => "SW_COPYFROM"
  | .swDispose _ _ => "SW_DISPOSE"
  | .frInit => "FR_INIT"
  | .frRbit => "FR_RBIT"
  | .frRint _ _ => "FR_RINT"
  | .frReset => "FR_RESET"
  | .srcRb => "SRC_RB"
  | .fwInit => "FW_INIT"
  | .fwWbit _ => "FW_WBIT"
  | .fwWint _ _ _ => "FW_WINT"
  | .fwPay _ => "FW_PAY"
  | .fwFlushn => "FW_FLUSHN"
  | .fwFlush => "FW_FLUSH"

/-- The suffix of a set MOD[0]: `.L` for LSBF, `.C` for CHECK (R101). -/
def suffixOf : Instr → String
  | .swDispose true _ => ".C"
  | .frRint true _ | .fwWint true _ _ => ".L"
  | .swDispose false _ | .frRint false _ | .fwWint false _ _ | .nop | .reset | .csrw _ _ | .csrr _ | .mfInit
  | .mfFind _ | .mfAdd _ | .mfAddr _ _ | .mfFindall | .mfMread _ | .swInit | .swWrb _ | .swBcopy _ _ | .swOcopy _ _
  | .swCopyfrom _ | .frInit | .frRbit | .frReset | .srcRb | .fwInit | .fwWbit _ | .fwPay _ | .fwFlushn | .fwFlush => ""

/-- The mnemonic in a listing (R101). -/
def mnemonicOf (i : Instr) : String := tableName i ++ suffixOf i

/-- The operands of a command, `A` before `B` (R101). -/
def operandsOf : Instr → List Word
  | .nop | .reset | .mfInit | .mfFindall | .swInit | .frInit | .frRbit | .frReset | .srcRb | .fwInit | .fwFlushn
  | .fwFlush => []
  | .csrr a | .mfFind a | .mfAdd a | .mfMread a | .swWrb a | .swCopyfrom a | .swDispose _ a | .frRint _ a | .fwWbit a
  | .fwPay a => [a]
  | .csrw a b | .mfAddr a b | .swBcopy a b | .swOcopy a b | .fwWint _ a b => [a, b]

/-- One line of a listing: the mnemonic, then the operands in decimal, separated by a comma (R101). -/
def asmLine (i : Instr) : String :=
  match operandsOf i with
  | [] => mnemonicOf i
  | ops => mnemonicOf i ++ " " ++ String.intercalate ", " (ops.map fun w => toString w.toNat)

/-- The pseudo-commands (R102). `MF_ADD p` is a command of its own. -/
inductive Pseudo where
  | swWrite (bytes : List Byte)
  | fwPays (bytes : List Byte)
  | setc (w lo hi ws : Word)
  | mfCompress
  deriving DecidableEq, Repr

/-- The expansions of R102. -/
def expandPseudo : Pseudo → List Instr
  | .swWrite bytes => bytes.map fun b => .swWrb (wordOfByte b)
  | .fwPays bytes => bytes.map fun b => .fwPay (wordOfByte b)
  | .setc w lo hi ws => [.csrw 0x10 w, .csrw 0x11 lo, .csrw 0x12 hi, .csrw 0x13 ws]
  | .mfCompress => [.mfInit, .mfFindall]

/-- The host actions that issue commands in order. -/
def presentAll (is : List Instr) : List HostAct := is.map fun i => .command (encode i)

/-- The host actions of a pseudo-command. Of SW_WRITE, the commands after one that faults are not issued (R173); of the
others R102 gives the expansion and no more (notes/assumptions/24.md). -/
def presentPseudo : Pseudo → List HostAct
  | .swWrite bytes => untilFaultActs ((expandPseudo (.swWrite bytes)).map encode)
  | .fwPays bytes => presentAll (expandPseudo (.fwPays bytes))
  | .setc w lo hi ws => presentAll (expandPseudo (.setc w lo hi ws))
  | .mfCompress => presentAll (expandPseudo .mfCompress)

end Sys2Proof.Machine
end

