-- ==== Sys2Proof/Safety.lean ====
section
/-! DEFINITION. The vocabulary of claims: what the window has produced, what a valid match is, the invariants of each
unit, and what a safe run is. -/

namespace Sys2Proof.Machine

/-! ## The machine-readable opcode table -/

/-- The rows of spec/opcode_table.json: mnemonic, match, mask, each number as its words W0, W1, W2 (R91, R98). -/
def tableRows : List (String × Cmd × Cmd) :=
  [
  ("NOP", ⟨0x00000000, 0x00000000, 0x00000000⟩, ⟨0xFFFFFFFF, 0xFFFFFFFF, 0xFFFFFFFF⟩),
  ("RESET", ⟨0x00000001, 0x00000000, 0x00000000⟩, ⟨0xFFFFFFFF, 0xFFFFFFFF, 0xFFFFFFFF⟩),
  ("CSRW", ⟨0x00000002, 0x00000000, 0x00000000⟩, ⟨0xFFFFFFFF, 0xFFFFFF00, 0x00000000⟩),
  ("CSRR", ⟨0x00000003, 0x00000000, 0x00000000⟩, ⟨0xFFFFFFFF, 0xFFFFFF00, 0xFFFFFFFF⟩),
  ("MF_INIT", ⟨0x00000010, 0x00000000, 0x00000000⟩, ⟨0xFFFFFFFF, 0xFFFFFFFF, 0xFFFFFFFF⟩),
  ("MF_FIND", ⟨0x00000011, 0x00000000, 0x00000000⟩, ⟨0xFFFFFFFF, 0x00000000, 0xFFFFFFFF⟩),
  ("MF_ADD", ⟨0x00000012, 0x00000000, 0x00000000⟩, ⟨0xFFFFFFFF, 0x00000000, 0xFFFFFFFF⟩),
  ("MF_ADDR", ⟨0x00000013, 0x00000000, 0x00000000⟩, ⟨0xFFFFFFFF, 0x00000000, 0x00000000⟩),
  ("MF_FINDALL", ⟨0x00000014, 0x00000000, 0x00000000⟩, ⟨0xFFFFFFFF, 0xFFFFFFFF, 0xFFFFFFFF⟩),
  ("MF_MREAD", ⟨0x00000015, 0x00000000, 0x00000000⟩, ⟨0xFFFFFFFF, 0x00000000, 0xFFFFFFFF⟩),
  ("SW_INIT", ⟨0x00000020, 0x00000000, 0x00000000⟩, ⟨0xFFFFFFFF, 0xFFFFFFFF, 0xFFFFFFFF⟩),
  ("SW_WRB", ⟨0x00000021, 0x00000000, 0x00000000⟩, ⟨0xFFFFFFFF, 0xFFFFFF00, 0xFFFFFFFF⟩),
  ("SW_BCOPY", ⟨0x00000022, 0x00000000, 0x00000000⟩, ⟨0xFFFFFFFF, 0x00000000, 0x00000000⟩),
  ("SW_OCOPY", ⟨0x00000023, 0x00000000, 0x00000000⟩, ⟨0xFFFFFFFF, 0x00000000, 0x00000000⟩)] ++
  [
  ("SW_COPYFROM", ⟨0x00000024, 0x00000000, 0x00000000⟩, ⟨0xFFFFFFFF, 0x00000000, 0xFFFFFFFF⟩),
  ("SW_DISPOSE", ⟨0x00000025, 0x00000000, 0x00000000⟩, ⟨0xFFFFFEFF, 0x00000000, 0xFFFFFFFF⟩),
  ("FR_INIT", ⟨0x00000030, 0x00000000, 0x00000000⟩, ⟨0xFFFFFFFF, 0xFFFFFFFF, 0xFFFFFFFF⟩),
  ("FR_RBIT", ⟨0x00000031, 0x00000000, 0x00000000⟩, ⟨0xFFFFFFFF, 0xFFFFFFFF, 0xFFFFFFFF⟩),
  ("FR_RINT", ⟨0x00000032, 0x00000000, 0x00000000⟩, ⟨0xFFFFFEFF, 0xFFFFFFC0, 0xFFFFFFFF⟩),
  ("FR_RESET", ⟨0x00000033, 0x00000000, 0x00000000⟩, ⟨0xFFFFFFFF, 0xFFFFFFFF, 0xFFFFFFFF⟩),
  ("SRC_RB", ⟨0x00000034, 0x00000000, 0x00000000⟩, ⟨0xFFFFFFFF, 0xFFFFFFFF, 0xFFFFFFFF⟩),
  ("FW_INIT", ⟨0x00000040, 0x00000000, 0x00000000⟩, ⟨0xFFFFFFFF, 0xFFFFFFFF, 0xFFFFFFFF⟩),
  ("FW_WBIT", ⟨0x00000041, 0x00000000, 0x00000000⟩, ⟨0xFFFFFFFF, 0xFFFFFFFE, 0xFFFFFFFF⟩),
  ("FW_WINT", ⟨0x00000042, 0x00000000, 0x00000000⟩, ⟨0xFFFFFEFF, 0x00000000, 0xFFFFFFC0⟩),
  ("FW_PAY", ⟨0x00000043, 0x00000000, 0x00000000⟩, ⟨0xFFFFFFFF, 0xFFFFFF00, 0xFFFFFFFF⟩),
  ("FW_FLUSHN", ⟨0x00000044, 0x00000000, 0x00000000⟩, ⟨0xFFFFFFFF, 0xFFFFFFFF, 0xFFFFFFFF⟩),
  ("FW_FLUSH", ⟨0x00000045, 0x00000000, 0x00000000⟩, ⟨0xFFFFFFFF, 0xFFFFFFFF, 0xFFFFFFFF⟩)]

/-- `w AND mask = match` (R98). -/
def matchesRow (c : Cmd) (row : String × Cmd × Cmd) : Prop :=
  c.w0 &&& row.2.2.w0 = row.2.1.w0 ∧ c.w1 &&& row.2.2.w1 = row.2.1.w1 ∧ c.w2 &&& row.2.2.w2 = row.2.1.w2

/-! ## How a command ends (R95, R224, R226) -/

/-- The state in which a completed command leaves the block: `s` with the response ST = 0, R0, R1, R2 and the count. -/
def replied (r0 r1 r2 : Word) (s : State) : State :=
  { s with resp := some ⟨0, r0, r1, r2⟩, cmdcnt := s.cmdcnt + 1 }

/-- The state in which a faulting command leaves the block: `s` with the fault record, the response and the count. -/
def faultedBy (i : Instr) (c : Cause) (i0 i1 : Word) (s : State) : State :=
  { s with
    flt := some ⟨c, i.fields.opc, i0, i1⟩
    resp := some ⟨c.code, i0, i1, 0⟩
    cmdcnt := s.cmdcnt + 1 }

/-- The state in which a refused command leaves the block: `s` with the response ST = 0xFF and the count. -/
def refusedIn (s : State) : State :=
  { s with resp := some ⟨0xFF, s.status, s.finfo0, s.finfo1⟩, cmdcnt := s.cmdcnt + 1 }

/-! ## The state after reset (R50) -/

/-- Every entry of the table of R50 that names a value. -/
structure HasResetValues (s : State) : Prop where
  id : s.csrRead 0x00 = some 0x4C5A0001
  registers : ∀ n ∈ [0x01, 0x02, 0x03, 0x04, 0x10, 0x11, 0x12, 0x13, 0x14, 0x15, 0x16, 0x20, 0x21, 0x22, 0x23, 0x24, 0x25, 0x26],
    s.csrRead n = some 0
  finder : s.mf.active = false ∧ s.mf.index.set = [] ∧ s.mf.index.next = 0 ∧ s.mf.ml = [] ∧ s.mf.winSize = 0 ∧
    s.mf.minLen = 0 ∧ s.mf.maxLen = 0 ∧ s.mf.level = .levelNone ∧ s.mf.la = false ∧ s.mf.n = 0
  window : s.sw.active = false ∧ s.sw.produced = 0 ∧ s.sw.winSize = 0 ∧ s.sw.winStart = 0 ∧ s.sw.pend = []
  ring : ∀ i, s.sw.ring.read i = none
  reader : s.fr.active = false ∧ s.fr.acc = 0 ∧ s.fr.left = 0 ∧ s.fr.cfg.unit.bytes = 1 ∧ s.fr.cfg.lsb = false ∧
    s.fr.cfg.le = false
  writer : s.fw.active = false ∧ s.fw.acc = 0 ∧ s.fw.cnt = 0 ∧ s.fw.cfg.unit.bytes = 1 ∧ s.fw.cfg.lsb = false ∧
    s.fw.cfg.le = false ∧ s.fw.aux = []
  streams : s.srcPos = 0 ∧ s.sink = [] ∧ s.dst = []

/-! ## Window -/

/-- SINK followed by SW.pend: every byte the window has produced since reset, less those a `SW_INIT` threw away
(95_test_vectors.md conventions, R67, R77). The drain does not change it. -/
def State.out (s : State) : List Byte := s.sink ++ s.sw.pend

/-- R43, R169, R170: while SW is active, RING holds a byte in exactly the slots of the last min(produced, W) bytes, and
there the byte that was produced. -/
structure WindowInv (s : State) : Prop where
  ringWf : s.sw.ring.wf
  pendBound : s.sw.pend.length ≤ s.par.swbuf
  sizeLegal : s.sw.active = true → 1 ≤ s.sw.winSize.toNat ∧ s.sw.winSize.toNat ≤ s.par.wmax
  producedOut : s.sw.produced.toNat ≤ s.out.length
  ringTail : s.sw.active = true → ∀ d, 1 ≤ d → d ≤ s.sw.winSize.toNat → d ≤ s.sw.produced.toNat →
    s.sw.ring.read (s.sw.readSlot d) = s.out[s.out.length - d]?
  ringExact : s.sw.active = true → ∀ i, (s.sw.ring.read i).isSome = true →
    ∃ d, 1 ≤ d ∧ d ≤ s.sw.winSize.toNat ∧ d ≤ s.sw.produced.toNat ∧ i = s.sw.readSlot d

/-! ## Match finder -/

/-- R145 for one match in an input of which the first `limit` bytes may be read. -/
structure ValidMatch (m : Mf) (limit pos distance length : Nat) : Prop where
  distancePos : 1 ≤ distance
  inWindow : distance ≤ m.winSize.toNat
  notBeforeStart : distance ≤ pos
  longEnough : m.minLen.toNat ≤ length
  shortEnough : length ≤ m.maxLen.toNat
  inInput : pos + length ≤ limit
  trueRepeat : ∀ i, i < length → m.inputAt (pos + i) = m.inputAt (pos - distance + i)

/-- R26, R145: every record is a valid match, offsets rise strictly and the ranges do not overlap. -/
def ValidList (m : Mf) (l : List Match) : Prop :=
  (∀ r ∈ l, ValidMatch m m.n.toNat r.offset.toNat r.distance.toNat r.length.toNat) ∧
  l.Pairwise fun a b => a.offset.toNat + a.length.toNat ≤ b.offset.toNat ∧ a.offset.toNat < b.offset.toNat

/-- R46, R47, R132: the index holds keyable positions below the cursor, newest first. -/
structure ValidIndex (m : Mf) (limit : Nat) (ix : Index) : Prop where
  falling : ix.set.Pairwise (fun a b => b < a)
  belowNext : ∀ p ∈ ix.set, p < ix.next
  keyables : ∀ p ∈ ix.set, p + m.minLen.toNat ≤ limit
  nextBound : ix.next ≤ limit

/-- R24, R46, R47, R136, R145. -/
structure FinderInv (s : State) : Prop where
  constraints : s.mf.active = true →
    (1 ≤ s.mf.winSize.toNat ∧ s.mf.winSize.toNat ≤ s.par.wmax) ∧ 1 ≤ s.mf.minLen.toNat ∧
    s.mf.minLen.toNat ≤ s.mf.maxLen.toNat
  lookAhead : s.mf.la = true → laOk s.par s.mf.level = true
  inputWf : s.mf.input.wf
  index : ValidIndex s.mf s.mf.n.toNat s.mf.index
  list : ValidList s.mf s.mf.ml

/-! ## Flag codec and streams -/

/-- R44, R45, R65, R66: the accumulators hold no bit outside their unit, the reader has at most a unit left, the writer never
keeps a full one, its unwritten bits are 0, AUX is within its capacity and the cursor within SRC. -/
structure FlagInv (s : State) : Prop where
  readerLeft : s.fr.left ≤ s.fr.cfg.bits
  readerAcc : s.fr.acc.toNat < 2 ^ s.fr.cfg.bits
  writerCnt : s.fw.cnt < s.fw.cfg.bits
  writerAcc : ∀ j, s.fw.acc.getLsbD j = true → ∃ k, k < s.fw.cnt ∧ j = s.fw.cfg.place k
  auxBound : s.fw.aux.length ≤ s.par.auxmax
  cursor : s.srcPos.toNat ≤ s.src.length

/-- The flag bits of a unit's value in the order they are written and read (R69). -/
def unitFlags (c : FlagCfg) (v : Word) : List Bool := (List.range c.bits).map fun k => v.getLsbD (c.place k)

/-- The whole units of `u` bytes at the front of a byte sequence. -/
def wholeUnits (u : Nat) (bytes : List Byte) : List (List Byte) :=
  (List.range (bytes.length / u)).map fun j => (bytes.drop (j * u)).take u

/-- The flag bits the reader would hand out from here on if nothing else read the source (R181, R182, R188): what is left of
the current unit, then the whole units from the cursor on. -/
def flagStream (s : State) : List Bool :=
  (unitFlags s.fr.cfg s.fr.acc).drop (s.fr.cfg.bits - s.fr.left) ++
    (wholeUnits s.fr.cfg.unit.bytes (s.src.drop s.srcPos.toNat)).flatMap fun bytes =>
      unitFlags s.fr.cfg (wordOfNat (unitValue s.fr.cfg.le bytes))

/-- The integer that flag bits compose to (R185): the first bit is the least significant with LSBF, else the most. -/
def composeInt (lsbf : Bool) (bits : List Bool) : Nat :=
  if lsbf then bits.foldr (fun b v => b.toNat + 2 * v) 0 else bits.foldl (fun v b => 2 * v + b.toNat) 0

/-- FW_WBIT commands, one per bit, in order. -/
def writeBits : List Bool → State → Host.Outcome State Fault Refusal
  | [], s => .next s
  | b :: bs, s =>
    match exec (.fwWbit (wordOfBit b)) s with
    | .next t => writeBits bs t
    | .fault r => .fault r
    | .refused r => .refused r

/-! ## What a command leaves alone -/

/-- Everything but the window's ring, counter and queue, SINK, and what every command changes (response, CMDCNT). -/
structure WindowFrame (s t : State) : Prop where
  par : t.par = s.par
  host : t.host = s.host
  srcNext : t.srcNext = s.srcNext
  inbuf : t.inbuf = s.inbuf
  drainTick : t.drainTick = s.drainTick
  csr : t.csr = s.csr
  mf : t.mf = s.mf
  fr : t.fr = s.fr
  fw : t.fw = s.fw
  src : t.src = s.src
  dst : t.dst = s.dst
  active : t.sw.active = s.sw.active
  winSize : t.sw.winSize = s.sw.winSize
  winStart : t.sw.winStart = s.sw.winStart

/-- Storing `k` bytes from the write cursor on (R161): every ring slot other than the `k` slots `(ws + produced + j) mod W`
reads as before. -/
def RingFrame (k : Nat) (s t : State) : Prop :=
  ∀ i, (∀ j, j < k → i ≠ (s.sw.winStart.toNat + s.sw.produced.toNat + j) % s.sw.winSize.toNat) →
    t.sw.ring.read i = s.sw.ring.read i

/-! ## The streaming host of R146 -/

/-- The state and the response that a command leaves, if it completed (R95). -/
def completed : Host.Outcome State Fault Refusal → Option (State × Response)
  | .next t => (t.resp.filter fun r => r.st == 0).map fun r => (t, r)
  | .fault _ => none
  | .refused _ => none

/-- The host loop of R146 from `pos` on: MF_FIND, then MF_ADDR over the rest of a match of two bytes or more. It answers the
matches it records, or none if a command does not complete. The first argument bounds the iterations. -/
def streamLoop : Nat → Nat → State → Option (List Match)
  | 0, _, _ => some []
  | k + 1, pos, s =>
    if pos < s.mf.n.toNat then
      match completed (exec (.mfFind (wordOfNat pos)) s) with
      | none => none
      | some (t, r) =>
        if r.r2.toNat = 0 then streamLoop k (pos + 1) t
        else if r.r2.toNat = 1 then (streamLoop k (pos + 1) t).map (⟨r.r0, r.r1, r.r2⟩ :: ·)
        else
          match completed (exec (.mfAddr (wordOfNat (pos + 1)) (wordOfNat (r.r2.toNat - 1))) t) with
          | none => none
          | some (u, _) => (streamLoop k (pos + r.r2.toNat) u).map (⟨r.r0, r.r1, r.r2⟩ :: ·)
    else some []

/-! ## All of it -/

/-- The invariant of the whole block. -/
structure Inv (s : State) : Prop where
  params : s.par.Legal
  inbufWf : s.inbuf.wf
  window : WindowInv s
  finder : FinderInv s
  flags : FlagInv s

/-- A safe state is one in which no fault has been recorded: only then may the host use SINK and DST (R81, R269). -/
def SafeState (s : State) : Prop := s.flt = none

/-- A safe run of `k` steps (R254 "The output is valid only if every command returned ST = 0"): it completes, and no fault
was recorded. -/
def SafeRun (k : Nat) (s t : State) : Prop := Sys2Proof.core.run k s = .next t ∧ SafeState s ∧ SafeState t

/-- A state as the host sets the block up: the contents it supplies, its parameters and its commands, right after power-on
(R250, R252 to R254). -/
def powerOnWith (par : Params) (src input : List Byte) (is : List Instr) : State :=
  { State.reset with
    par := par, src := src, srcNext := src, inbuf := Memory.ofBytes 0 input, host := presentAll is }

end Sys2Proof.Machine
end

