-- ==== Sys2Proof/Certificates/Slice0/Obligations.lean ====
section
/-! DEFINITION. The statements for the provers. `replied r0 r1 r2 u` is the state `u` with the response ST = 0, R0, R1, R2
and CMDCNT one higher; `faultedBy i c i0 i1 u` is `u` with the fault recorded, the fault response and CMDCNT one higher;
`refusedIn s` is `s` with the response of a refusal and CMDCNT one higher. An equation with one of them therefore says what
the command changes and that it changes nothing else. -/

open Sys2Proof Sys2Proof.Machine

/-! ## Reset and the system commands -/

/-- R50: the machine right after reset, and the state after a RESET command and after power-on reset in whatever state the
block was, have the value of every entry of the rule's table. -/
def Obligations.ResetStateHoldsResetValues : Prop :=
  HasResetValues State.reset ∧
  (∀ s : State, ∃ t, exec .reset s = .next t ∧ HasResetValues t) ∧
  (∀ s : State, ∃ t, hostAct .powerOn s = .next t ∧ HasResetValues t)

/-- RESET completes in every state, faulted or not, and every piece of the block's state is then the reset value. That the
SRC contents the host has ready are installed is the model's form of "The host may install a new SRC" (entry 4); that the
parameters and INBUF stay is R51 and entries 3 and 5. -/
def Obligations.ResetCommandRestoresEverything : Prop :=
  ∀ s : State, ∃ t, exec .reset s = .next t ∧ t.resp = some ⟨0, 0, 0, 0⟩ ∧
    t.flt = none ∧ t.cmdcnt = 0 ∧ t.csr = State.reset.csr ∧ t.mf = State.reset.mf ∧ t.sw = State.reset.sw ∧
    t.fr = State.reset.fr ∧ t.fw = State.reset.fw ∧ t.srcPos = 0 ∧ t.sink = [] ∧ t.dst = [] ∧
    t.src = s.srcNext ∧ t.par = s.par ∧ t.inbuf = s.inbuf

/-- R250: power-on reset and the RESET command have the same effect on the block. They differ in the response, which only a
command has (entry 2), and in the drain's own counter (entry 9). -/
def Obligations.PowerOnEqualsResetCommand : Prop :=
  ∀ (s : State) (rest : List HostAct), s.host = .powerOn :: rest →
    ∃ t u, step s = .next t ∧ exec .reset (s.withHost rest) = .next u ∧
      { t with resp := u.resp, drainTick := u.drainTick } = u

/-- R120: NOP does nothing but count, in every state, faulted or not; its one encoding is the all-zero word, and any other
word with its opcode is ill-formed. -/
def Obligations.NopOnlyCounts : Prop :=
  (∀ s : State, exec .nop s = .next (replied 0 0 0 s)) ∧
  decode ⟨0, 0, 0⟩ = .ok .nop ∧
  ∀ c : Cmd, c.w0.extractLsb' 0 8 = 0 → c ≠ ⟨0, 0, 0⟩ → ∃ r, decode c = .rejected r

/-- R122: a CSRW of 0x10 .. 0x16 with a legal value writes that one register and nothing else; any other number or an
illegal value raises IllegalCommand(W0, W1) and leaves every register unchanged; while faulted it is refused. The two
structured registers then read as the word written, and hold the fields that R36, R38 and R105 place in it: LEVEL in bits 1:0
(0 None, 1 Fastest, 2 Optimal, 3 SmallestSize) and LA in bit 2; UNIT in bits 1:0 (0, 1, 2 for 1, 2, 4 bytes), BITORD in bit 2
(1 = least-significant-first) and BYTEORD in bit 3 (1 = little-endian). -/
def Obligations.CsrwWritesOneRegister : Prop :=
  (∀ (s : State) (csr v : Word), s.flt ≠ none → exec (.csrw csr v) s = .next (refusedIn s)) ∧
  (∀ (s : State) (v : Word), s.flt = none →
    exec (.csrw 0x10 v) s = .next (replied 0 0 0 { s with csr := { s.csr with winSize := v } }) ∧
    exec (.csrw 0x11 v) s = .next (replied 0 0 0 { s with csr := { s.csr with minLen := v } }) ∧
    exec (.csrw 0x12 v) s = .next (replied 0 0 0 { s with csr := { s.csr with maxLen := v } }) ∧
    exec (.csrw 0x13 v) s = .next (replied 0 0 0 { s with csr := { s.csr with winStart := v } }) ∧
    exec (.csrw 0x15 v) s = .next (replied 0 0 0 { s with csr := { s.csr with mfInlen := v } })) ∧
  (∀ (s : State) (v : Word), s.flt = none → v.toNat < 8 →
    ∃ x, exec (.csrw 0x14 v) s = .next (replied 0 0 0 { s with csr := { s.csr with mfCtrl := x } }) ∧ x.word = v ∧
      x.la = v.getLsbD 2 ∧ (v.toNat % 4 = 0 → x.level = .levelNone) ∧ (v.toNat % 4 = 1 → x.level = .fastest) ∧
      (v.toNat % 4 = 2 → x.level = .optimal) ∧ (v.toNat % 4 = 3 → x.level = .smallestSize)) ∧
  (∀ (s : State) (v : Word), s.flt = none → v.toNat < 16 → v.toNat % 4 ≠ 3 →
    ∃ x, exec (.csrw 0x16 v) s = .next (replied 0 0 0 { s with csr := { s.csr with fcCfg := x } }) ∧ x.word = v ∧
      x.lsb = v.getLsbD 2 ∧ x.le = v.getLsbD 3 ∧ (v.toNat % 4 = 0 → x.unit.bytes = 1) ∧
      (v.toNat % 4 = 1 → x.unit.bytes = 2) ∧ (v.toNat % 4 = 2 → x.unit.bytes = 4)) ∧
  (∀ (s : State) (csr v : Word), s.flt = none →
    (csr.toNat < 0x10 ∨ 0x16 < csr.toNat ∨ (csr = 0x14 ∧ 8 ≤ v.toNat) ∨
      (csr = 0x16 ∧ (16 ≤ v.toNat ∨ v.toNat % 4 = 3))) →
    exec (.csrw csr v) s = .next (faultedBy (.csrw csr v) .illegalCommand 0x00000002 csr s))

/-- R123, R28: a CSRR of a listed number returns that register, in every state, faulted or not, and changes nothing else;
of a reserved number it raises IllegalCommand(W0, W1), or is refused while faulted. -/
def Obligations.CsrrReturnsRegister : Prop :=
  (∀ (s : State) (csr v : Word),
    (csr.toNat, v) ∈
      [(0x00, 0x4C5A0001), (0x01, s.status), (0x02, s.finfo0), (0x03, s.finfo1), (0x04, s.cmdcnt),
       (0x10, s.csr.winSize), (0x11, s.csr.minLen), (0x12, s.csr.maxLen), (0x13, s.csr.winStart),
       (0x14, s.csr.mfCtrl.word), (0x15, s.csr.mfInlen), (0x16, s.csr.fcCfg.word),
       (0x20, BitVec.ofNat 32 s.mf.index.next), (0x21, BitVec.ofNat 32 s.mf.ml.length), (0x22, s.sw.produced),
       (0x23, s.srcPos), (0x24, BitVec.ofNat 32 s.fr.left), (0x25, BitVec.ofNat 32 s.fw.cnt),
       (0x26, BitVec.ofNat 32 s.fw.aux.length)] →
    exec (.csrr csr) s = .next (replied v 0 0 s)) ∧
  (∀ (s : State) (csr : Word),
    csr.toNat ∉ [0x00, 0x01, 0x02, 0x03, 0x04, 0x10, 0x11, 0x12, 0x13, 0x14, 0x15, 0x16, 0x20, 0x21, 0x22, 0x23, 0x24,
      0x25, 0x26] →
    (s.flt = none → exec (.csrr csr) s = .next (faultedBy (.csrr csr) .illegalCommand 0x00000003 csr s)) ∧
    (s.flt ≠ none → exec (.csrr csr) s = .next (refusedIn s)))

/-- R30: ID is 0x4C5A0001 at all times: "LZ" in bits 31:16, 0 in bits 15:8, the version 1 in bits 7:0. -/
def Obligations.IdRegisterIsConstant : Prop :=
  (∀ s : State, exec (.csrr 0x00) s = .next (replied 0x4C5A0001 0 0 s)) ∧
  (0x4C5A0001 : Word).extractLsb' 16 16 = 0x4C5A ∧ (0x4C5A0001 : Word).extractLsb' 8 8 = 0 ∧
  (0x4C5A0001 : Word).extractLsb' 0 8 = 1

/-- The layout of STATUS (R31) and the cause codes in it (R221). -/
def Obligations.StatusWordLayout : Prop :=
  (∀ s : State,
    s.status.getLsbD 0 = s.flt.isSome ∧ s.status.getLsbD 1 = s.mf.active ∧ s.status.getLsbD 2 = s.sw.active ∧
    s.status.getLsbD 3 = s.fr.active ∧ s.status.getLsbD 4 = s.fw.active ∧ s.status.extractLsb' 5 3 = 0 ∧
    s.status.extractLsb' 8 8 = ((s.flt.map fun f => f.cause.code).getD 0) ∧
    s.status.extractLsb' 16 8 = ((s.flt.map fun f => f.fopc).getD 0) ∧ s.status.extractLsb' 24 8 = 0) ∧
  Cause.configError.code = 1 ∧ Cause.corruptReference.code = 2 ∧ Cause.endOfInput.code = 3 ∧
  Cause.sizeMismatch.code = 4 ∧ Cause.illegalCommand.code = 5 ∧ Cause.badSequence.code = 6 ∧ Cause.overflow.code = 7

/-! ## Faults and the frame of every command -/

/-- R226: while faulted the block executes only RESET, NOP and CSRR of an existing CSR; every other command word, well-formed
or not, changes nothing but CMDCNT and is answered ST = 0xFF, STATUS, FINFO0, FINFO1. -/
def Obligations.FaultedBlockRefuses : Prop :=
  ∀ (s : State) (c : Cmd), s.flt ≠ none →
    (decode c = .ok .reset → ∃ t, issue c s = .next t ∧ t.flt = none) ∧
    (decode c = .ok .nop → issue c s = .next (replied 0 0 0 s)) ∧
    (∀ csr v, decode c = .ok (.csrr csr) → s.csrRead csr.toNat = some v → issue c s = .next (replied v 0 0 s)) ∧
    ((decode c ≠ .ok .reset ∧ decode c ≠ .ok .nop ∧
        ∀ csr, decode c = .ok (.csrr csr) → s.csrRead csr.toNat = none) →
      issue c s = .next (refusedIn s))

/-- R98: a word that matches no row of the opcode table raises IllegalCommand(W0, W1) and changes nothing else; if the block
is already faulted it is refused. -/
def Obligations.IllFormedWordTraps : Prop :=
  ∀ (s : State) (c : Cmd), (∀ row ∈ tableRows, ¬matchesRow c row) →
    (s.flt = none → issue c s = .next
      { s with
        flt := some ⟨.illegalCommand, c.w0.extractLsb' 0 8, c.w0, c.w1⟩
        resp := some ⟨5, c.w0, c.w1, 0⟩
        cmdcnt := s.cmdcnt + 1 }) ∧
    (s.flt ≠ none → issue c s = .next (refusedIn s))

/-- R48, R106 step 4: a command of a unit, other than its INIT, raises BadSequence(W0, STATUS) while the unit is idle, and
changes nothing else. The opcode ranges are those of R106. -/
def Obligations.IdleUnitRaisesBadSequence : Prop :=
  ∀ (i : Instr) (s : State), s.flt = none →
    ((0x11 ≤ i.fields.opc.toNat ∧ i.fields.opc.toNat ≤ 0x15 ∧ s.mf.active = false) ∨
      (0x21 ≤ i.fields.opc.toNat ∧ i.fields.opc.toNat ≤ 0x25 ∧ s.sw.active = false) ∨
      (0x31 ≤ i.fields.opc.toNat ∧ i.fields.opc.toNat ≤ 0x33 ∧ s.fr.active = false) ∨
      (0x41 ≤ i.fields.opc.toNat ∧ i.fields.opc.toNat ≤ 0x45 ∧ s.fw.active = false)) →
    exec i s = .next (faultedBy i .badSequence (encode i).w0 s.status s)

/-- R224: fault entry sets STATUS.FAULT, CAUSE and FOPC = W0[7:0], FINFO0 and FINFO1, gives the response and counts the
command, and does nothing else; the unit-active bits stay. -/
def Obligations.FaultEntryRecordsTheFault : Prop :=
  ∀ (i : Instr) (c : Cause) (i0 i1 : Word) (s : State),
    ∃ t, finish (encode i).w0 (.raise c i0 i1 s) = t ∧
      t = { s with flt := t.flt, resp := t.resp, cmdcnt := t.cmdcnt } ∧
      t.status.getLsbD 0 = true ∧ t.status.extractLsb' 8 8 = c.code ∧
      t.status.extractLsb' 16 8 = (encode i).w0.extractLsb' 0 8 ∧
      t.status.extractLsb' 1 4 = s.status.extractLsb' 1 4 ∧
      t.csrRead 0x02 = some i0 ∧ t.csrRead 0x03 = some i1 ∧
      t.resp = some ⟨c.code, i0, i1, 0⟩ ∧ t.cmdcnt = s.cmdcnt + 1

/-- R226, R227, R230: only a reset leaves the faulted state. Any other step of a faulted block keeps the fault record, every
unit, the registers and the streams; the drain agent may still move pending bytes (R172), which changes what SINK has but
not what the window has produced. -/
def Obligations.OnlyResetLeavesTheFaultedState : Prop :=
  ∀ (s t : State), s.flt ≠ none → step s = .next t →
    (∀ rest, s.host ≠ .powerOn :: rest) → (∀ c, s.nextWord = some c → decode c ≠ .ok .reset) →
    t.flt = s.flt ∧ t.csr = s.csr ∧ t.mf = s.mf ∧ t.fr = s.fr ∧ t.fw = s.fw ∧ t.src = s.src ∧ t.srcPos = s.srcPos ∧
    t.dst = s.dst ∧ t.out = s.out ∧ { t.sw with pend := [] } = { s.sw with pend := [] }

/-- R40: every command word other than RESET adds 1 to CMDCNT modulo 2^32, whether it completes, faults or is refused; RESET
sets it to 0; a CSRR of CMDCNT returns the number of commands before itself. -/
def Obligations.CommandCounterCountsEveryCommand : Prop :=
  (∀ (c : Cmd) (s t : State), issue c s = .next t → decode c ≠ .ok .reset →
    t.cmdcnt.toNat = (s.cmdcnt.toNat + 1) % 2 ^ 32) ∧
  (∀ (c : Cmd) (s t : State), issue c s = .next t → decode c = .ok .reset → t.cmdcnt = 0) ∧
  (∀ s : State, exec (.csrr 0x04) s = .next (replied s.cmdcnt 0 0 s))

/-- Every command word gets a response (R95, R226, U24): ST = 0, or ST = the cause code of a fault that this command has just
recorded, with its information words, or ST = 0xFF with the record of the earlier fault. A command that completes records no
fault. -/
def Obligations.EveryCommandGetsAResponse : Prop :=
  ∀ (c : Cmd) (s : State), ∃ t r, issue c s = .next t ∧ t.resp = some r ∧
    ((r.st = 0 ∧ (t.flt = s.flt ∨ decode c = .ok .reset)) ∨
     (s.flt = none ∧ ∃ f, t.flt = some f ∧ f.fopc = c.w0.extractLsb' 0 8 ∧ r = ⟨f.cause.code, f.info0, f.info1, 0⟩) ∨
     (s.flt ≠ none ∧ t.flt = s.flt ∧ r = ⟨0xFF, s.status, s.finfo0, s.finfo1⟩))

/-- R51: no step changes the parameters; SRC changes only at a reset; what the finder reads as INBUF changes only at MF_INIT
and at a reset (entries 3, 4, 5). -/
def Obligations.ParametersAndInputsHoldStill : Prop :=
  ∀ (s t : State), step s = .next t →
    t.par = s.par ∧
    ((∀ rest, s.host ≠ .powerOn :: rest) → (∀ c, s.nextWord = some c → decode c ≠ .ok .reset) →
      t.src = s.src ∧
      ((∀ c, s.nextWord = some c → decode c ≠ .ok .mfInit) → t.mf.input = s.mf.input))

/-! ## Encoding and the step -/

/-- Decoding the words of a well-formed command gives the command back, with every operand. -/
def Obligations.DecodeOfEncode : Prop := ∀ i : Instr, i.wellFormed = true → decode (encode i) = .ok i

/-- R99, R98: a word that decodes is the one encoding of the command it decodes to, which is well formed. -/
def Obligations.EncodeOfDecode : Prop :=
  ∀ (c : Cmd) (i : Instr), decode c = .ok i → i.wellFormed = true ∧ encode i = c

/-- R98: a word is well-formed exactly when some row of opcode_table.json has `w AND mask = match`, at most one row can, and
it is the row of the command the word decodes to. -/
def Obligations.DecoderFollowsOpcodeTable : Prop :=
  (∀ c : Cmd, (∃ i, decode c = .ok i) ↔ ∃ row ∈ tableRows, matchesRow c row) ∧
  (∀ (c : Cmd) (i : Instr), decode c = .ok i → ∀ row ∈ tableRows, matchesRow c row → row.1 = tableName i) ∧
  (tableRows.map fun row => row.1).Nodup

/-- R91: the 96-bit number and the 12 little-endian bytes of a command word hold all of it. -/
def Obligations.WordNumberAndBytesAgree : Prop :=
  (∀ c : Cmd, Cmd.ofNat c.toNat = c) ∧ (∀ n : Nat, n < 2 ^ 96 → (Cmd.ofNat n).toNat = n) ∧
  (∀ c : Cmd, Cmd.ofBytes c.bytes = some c) ∧ (∀ c : Cmd, c.bytes.length = 12) ∧
  (∀ (c : Cmd) (k : Nat), k < 12 → (c.bytes[k]?).map BitVec.toNat = some (c.toNat / 256 ^ k % 256))

/-- The worked encodings of R107: words written out, and what they decode to. -/
def Obligations.WorkedEncodings : Prop :=
  decode ⟨0x00000022, 0x00000001, 0x00000064⟩ = .ok (.swBcopy 1 100) ∧
  decodeBytes [0x22, 0, 0, 0, 0x01, 0, 0, 0, 0x64, 0, 0, 0] = .ok (.swBcopy 1 100) ∧
  decode ⟨0x00000132, 0x00000004, 0⟩ = .ok (.frRint true 4) ∧
  decode ⟨0x00000002, 0x00000010, 0x00001000⟩ = .ok (.csrw 0x10 0x1000) ∧
  decode ⟨0, 0, 0⟩ = .ok .nop ∧
  decode ⟨0x00010000, 0, 0⟩ = .rejected .reservedBits ∧
  decode ⟨0x00000006, 0, 0⟩ = .rejected .unknownOpcode ∧
  decode ⟨0x00000031, 1, 0⟩ = .rejected .operandA

/-- A step runs the command the next word decodes to. What the model adds around it (entries 1, 8, 24): the host action is
taken off the list, and the drain agent may move bytes before and after; in a sequence that stops at a fault, the words that
follow stay on the list if this one did not fault. -/
def Obligations.StepRunsTheDecodedCommand : Prop :=
  (∀ (s : State) (c : Cmd) (rest : List HostAct) (i : Instr), s.host = .command c :: rest → decode c = .ok i →
    step s = drainAfter (exec i (freeDrain { s with host := rest })) ∧
    (s.sw.pend = [] → step s = drainAfter (exec i { s with host := rest }))) ∧
  (∀ (s : State) (c : Cmd) (cs : List Cmd) (rest : List HostAct) (i : Instr),
    s.host = .untilFault (c :: cs) :: rest → decode c = .ok i →
    ∃ t, exec i (freeDrain { s with host := rest }) = .next t ∧
      ((∃ r, t.resp = some r ∧ r.st ≠ 0 ∧ r.st ≠ 0xFF) → step s = .next (freeDrain t)) ∧
      ((∃ r, t.resp = some r ∧ (r.st = 0 ∨ r.st = 0xFF)) →
        step s = .next (freeDrain { t with host := untilFaultActs cs ++ t.host })))

/-! ## Match finder -/

/-- MF_INIT (R137, R222): the tests in their order, each with its ConfigError, and otherwise the constraints, the level, the
effective look-ahead and the length latched, index and list empty, MF active. The copy of INBUF is the model's (entry 5). -/
def Obligations.MfInitChecksAndLatches : Prop :=
  ∀ s : State, s.flt = none →
    (s.csr.winSize.toNat < 1 ∨ s.par.wmax < s.csr.winSize.toNat →
      exec .mfInit s = .next (faultedBy .mfInit .configError 0x10 s.csr.winSize s)) ∧
    (1 ≤ s.csr.winSize.toNat → s.csr.winSize.toNat ≤ s.par.wmax →
      (s.csr.minLen = 0 → exec .mfInit s = .next (faultedBy .mfInit .configError 0x11 0 s)) ∧
      (1 ≤ s.csr.minLen.toNat → s.csr.maxLen.toNat < s.csr.minLen.toNat →
        exec .mfInit s = .next (faultedBy .mfInit .configError 0x12 s.csr.maxLen s)) ∧
      (1 ≤ s.csr.minLen.toNat → s.csr.minLen.toNat ≤ s.csr.maxLen.toNat →
        exec .mfInit s = .next (replied 0 0 0
          { s with mf :=
            { active := true, winSize := s.csr.winSize, minLen := s.csr.minLen, maxLen := s.csr.maxLen,
              level := s.csr.mfCtrl.level,
              la := s.csr.mfCtrl.la && s.par.laMask.getLsbD s.csr.mfCtrl.level.code.toNat,
              n := s.csr.mfInlen, input := s.inbuf, index := ⟨[], 0⟩, ml := [] } })))

/-- MF_FIND (R138, R135): the search, then the insert of the position, then, if a match was found and look-ahead is on, the
search one position further with the position indexed; the match is dropped exactly when that one is strictly longer. Only
the index changes. Idle, it raises BadSequence; a position outside the input raises IllegalCommand. -/
def Obligations.MfFindProbesAndInserts : Prop :=
  ∀ (s : State) (a : Word), s.flt = none →
    let ix := insertPos s.mf a.toNat s.mf.n.toNat s.mf.index
    let ahead := search s.par s.mf ix (a.toNat + 1) s.mf.n.toNat
    let t : State := { s with mf := { s.mf with index := ix } }
    (s.mf.active = false → exec (.mfFind a) s = .next (faultedBy (.mfFind a) .badSequence 0x00000011 s.status s)) ∧
    (s.mf.active = true → s.mf.n.toNat ≤ a.toNat →
      exec (.mfFind a) s = .next (faultedBy (.mfFind a) .illegalCommand 0x00000011 a s)) ∧
    (s.mf.active = true → a.toNat < s.mf.n.toNat →
      (search s.par s.mf s.mf.index a.toNat s.mf.n.toNat = none → exec (.mfFind a) s = .next (replied 0 0 0 t)) ∧
      (∀ d l, search s.par s.mf s.mf.index a.toNat s.mf.n.toNat = some (d, l) →
        ((s.mf.la = true ∧ ∃ d' l', ahead = some (d', l') ∧ l < l') → exec (.mfFind a) s = .next (replied 0 0 0 t)) ∧
        ((s.mf.la = false ∨ ∀ d' l', ahead = some (d', l') → l' ≤ l) →
          exec (.mfFind a) s = .next (replied a (BitVec.ofNat 32 d) (BitVec.ofNat 32 l) t))))

/-- R145 for MF_FIND: with the constraints MF_INIT has checked and an index in order, the answer is the sentinel or a valid
match at the position asked for. -/
def Obligations.MfFindReportsOnlyValidMatches : Prop :=
  ∀ (s : State) (a : Word), s.flt = none → s.mf.active = true → FinderInv s → a.toNat < s.mf.n.toNat →
    ∃ t o d l, exec (.mfFind a) s = .next t ∧ t.resp = some ⟨0, o, d, l⟩ ∧
      ((o = 0 ∧ d = 0 ∧ l = 0) ∨ (o = a ∧ ValidMatch s.mf s.mf.n.toNat a.toNat d.toNat l.toNat))

/-- R133: the search answers none when level is None or the position is not keyable. Otherwise it looks at the candidates
(earlier positions in the window with the same key), newest first and no more than the level's budget, and answers the
longest run of equal bytes among them, up to maxLength and the limit, at the smallest distance that reaches it. -/
def Obligations.SearchFindsLongestNearest : Prop :=
  ∀ (par : Params) (m : Mf) (ix : Index) (pos limit : Nat),
    ix.set.Pairwise (fun a b => b < a) → m.minLen.toNat ≤ m.maxLen.toNat →
    (m.level = .levelNone ∨ limit < pos + m.minLen.toNat → search par m ix pos limit = none) ∧
    (m.level ≠ .levelNone → pos + m.minLen.toNat ≤ limit →
      let near := ix.set.filter fun p => decide (p < pos ∧ pos - p ≤ m.winSize.toNat) &&
        (List.range m.minLen.toNat).all fun i => m.inputAt (p + i) == m.inputAt (pos + i)
      let cands := match m.level with
        | .levelNone => []
        | .fastest => near.take par.candFast
        | .optimal => near.take par.candOpt
        | .smallestSize => near
      let run := fun p l => l ≤ m.maxLen.toNat ∧ pos + l ≤ limit ∧ ∀ i, i < l → m.inputAt (p + i) = m.inputAt (pos + i)
      (cands = [] → search par m ix pos limit = none) ∧
      (cands ≠ [] → ∃ d l, search par m ix pos limit = some (d, l) ∧ (∃ p ∈ cands, d = pos - p ∧ run p l) ∧
        ∀ p ∈ cands, ∀ l', run p l' → l' ≤ l ∧ (l' = l → d ≤ pos - p)))

/-- R136: at level None the finder finds nothing and indexes nothing: MF_FIND answers the sentinel and, like MF_ADD, changes
nothing; MF_FINDALL answers the empty list. -/
def Obligations.LevelNoneFindsNothing : Prop :=
  ∀ (s : State) (a : Word), s.flt = none → s.mf.active = true → s.mf.level = .levelNone →
    (a.toNat < s.mf.n.toNat → exec (.mfFind a) s = .next (replied 0 0 0 s) ∧ exec (.mfAdd a) s = .next (replied 0 0 0 s)) ∧
    exec .mfFindall s = .next (replied 0 0 0 { s with mf := { s.mf with ml := [] } })

/-- R139, R132: MF_ADD inserts one position; the same effect as MF_ADDR of one position. -/
def Obligations.MfAddInsertsOnePosition : Prop :=
  ∀ (s : State) (a : Word), s.flt = none →
    (s.mf.active = false → exec (.mfAdd a) s = .next (faultedBy (.mfAdd a) .badSequence 0x00000012 s.status s)) ∧
    (s.mf.active = true → s.mf.n.toNat ≤ a.toNat →
      exec (.mfAdd a) s = .next (faultedBy (.mfAdd a) .illegalCommand 0x00000012 a s)) ∧
    (s.mf.active = true → a.toNat < s.mf.n.toNat →
      ((s.mf.level = .levelNone ∨ a.toNat < s.mf.index.next) → exec (.mfAdd a) s = .next (replied 0 0 0 s)) ∧
      ((s.mf.level ≠ .levelNone ∧ s.mf.index.next ≤ a.toNat) → exec (.mfAdd a) s = .next (replied 0 0 0
        { s with mf := { s.mf with index :=
          ⟨if a.toNat + s.mf.minLen.toNat ≤ s.mf.n.toNat then a.toNat :: s.mf.index.set else s.mf.index.set,
            a.toNat + 1⟩ } })) ∧
      exec (.mfAddr a 1) s = exec (.mfAdd a) s)

/-- R140, R132: MF_ADDR offers every position of the range: afterwards the index holds what it held and the positions of the
range at or above the old cursor that are keyable, and the cursor is past the range. The sum is exact. Idle, it raises
BadSequence. -/
def Obligations.MfAddrInsertsRange : Prop :=
  ∀ (s : State) (a b : Word), s.flt = none →
    (s.mf.active = false → exec (.mfAddr a b) s = .next (faultedBy (.mfAddr a b) .badSequence 0x00000013 s.status s)) ∧
    (s.mf.active = true → s.mf.n.toNat < a.toNat + b.toNat →
      exec (.mfAddr a b) s = .next (faultedBy (.mfAddr a b) .illegalCommand 0x00000013 a s)) ∧
    (s.mf.active = true → a.toNat + b.toNat ≤ s.mf.n.toNat →
      ∃ ix : Index, exec (.mfAddr a b) s = .next (replied 0 0 0 { s with mf := { s.mf with index := ix } }) ∧
        (s.mf.level = .levelNone → ix = s.mf.index) ∧
        (s.mf.level ≠ .levelNone →
          (∀ p, p ∈ ix.set ↔ p ∈ s.mf.index.set ∨
            (a.toNat ≤ p ∧ p < a.toNat + b.toNat ∧ s.mf.index.next ≤ p ∧ p + s.mf.minLen.toNat ≤ s.mf.n.toNat)) ∧
          ix.next = if b = 0 then s.mf.index.next else max s.mf.index.next (a.toNat + b.toNat)))

/-- R143, R145: MF_FINDALL completes, replaces the list by a valid one whose matches do not leave their chunk, answers its
length and changes nothing else. -/
def Obligations.MfFindallBuildsValidList : Prop :=
  ∀ s : State, s.flt = none → s.mf.active = true → FinderInv s → s.par.Legal →
    ∃ l, exec .mfFindall s = .next (replied (BitVec.ofNat 32 l.length) 0 0 { s with mf := { s.mf with ml := l } }) ∧
      ValidList s.mf l ∧
      ∀ r ∈ l, ∃ c ∈ partition s.par s.mf.n.toNat,
        c.1 ≤ r.offset.toNat ∧ r.offset.toNat + r.length.toNat ≤ c.2

/-- R146: on an input of a single chunk the streaming host loop, started right after MF_INIT, records exactly the list that
MF_FINDALL produces. R142, R143: on any input, MF_FINDALL produces the lists of the chunks of R141 in their order, and the
list of the chunk [b, e) is the one that the streaming loop records from `b` on in an input cut off at `e`, with an index of
its own that holds the up to W positions before `b`. -/
def Obligations.StreamingEqualsWholeBuffer : Prop :=
  (∀ s : State, s.flt = none → s.mf.active = true → FinderInv s → s.mf.index = ⟨[], 0⟩ →
    s.mf.n.toNat < 2 * s.par.chunk →
    ∃ t, exec .mfFindall s = .next t ∧ streamLoop s.mf.n.toNat 0 s = some t.mf.ml) ∧
  (∀ s : State, s.flt = none → s.mf.active = true → FinderInv s → s.par.Legal →
    ∃ (t : State) (ls : List (List Match)), exec .mfFindall s = .next t ∧ t.mf.ml = ls.flatten ∧
      ls.length = (partition s.par s.mf.n.toNat).length ∧
      ∀ (j b e : Nat), (partition s.par s.mf.n.toNat)[j]? = some (b, e) →
        ∃ (u : State) (l : List Match),
          exec (.mfAddr (BitVec.ofNat 32 (b - s.mf.winSize.toNat)) (BitVec.ofNat 32 (min b s.mf.winSize.toNat)))
            { s with mf := { s.mf with n := BitVec.ofNat 32 e, index := ⟨[], 0⟩ } } = .next u ∧
          streamLoop (e - b) b u = some l ∧ ls[j]? = some l)

/-- R144: MF_MREAD answers the record, or the sentinel at or past the end, and changes nothing; idle, it raises
BadSequence. -/
def Obligations.MfMreadReturnsRecord : Prop :=
  ∀ (s : State) (a : Word), s.flt = none →
    (s.mf.active = false → exec (.mfMread a) s = .next (faultedBy (.mfMread a) .badSequence 0x00000015 s.status s)) ∧
    (s.mf.active = true →
      (∀ r, s.mf.ml[a.toNat]? = some r → exec (.mfMread a) s = .next (replied r.offset r.distance r.length s)) ∧
      (s.mf.ml.length ≤ a.toNat → exec (.mfMread a) s = .next (replied 0 0 0 s)))

/-- R141: chunk j starts at j * CHUNK and ends at (j + 1) * CHUNK, the last at n; the chunks are contiguous and cover the
input; there are max(1, n div CHUNK) of them, and with two or more each has at least CHUNK and fewer than 2 * CHUNK bytes. -/
def Obligations.PartitionCoversTheInput : Prop :=
  ∀ (par : Params) (n : Nat), 1 ≤ par.chunk →
    let cs := partition par n
    cs.length = max 1 (n / par.chunk) ∧ (cs.head?).map Prod.fst = some 0 ∧ (cs.getLast?).map Prod.snd = some n ∧
    (∀ j, j < cs.length →
      cs[j]? = some (j * par.chunk, if j = cs.length - 1 then n else (j + 1) * par.chunk)) ∧
    (∀ j c c', cs[j]? = some c → cs[j + 1]? = some c' → c'.1 = c.2) ∧
    (∀ c ∈ cs, c.1 ≤ c.2 ∧ (2 ≤ cs.length → par.chunk ≤ c.2 - c.1 ∧ c.2 - c.1 < 2 * par.chunk))

/-! ## Sliding window -/

/-- R162: SW_INIT checks windowSize only, latches windowSize and windowStart, and starts an empty window, whatever SW was
doing; SINK keeps what it has. -/
def Obligations.SwInitStartsEmptyWindow : Prop :=
  ∀ s : State, s.flt = none →
    (s.csr.winSize.toNat < 1 ∨ s.par.wmax < s.csr.winSize.toNat →
      exec .swInit s = .next (faultedBy .swInit .configError 0x10 s.csr.winSize s)) ∧
    (1 ≤ s.csr.winSize.toNat → s.csr.winSize.toNat ≤ s.par.wmax →
      ∃ w : Sw, exec .swInit s = .next (replied 0 0 0 { s with sw := w }) ∧
        w.active = true ∧ w.winSize = s.csr.winSize ∧ w.winStart = s.csr.winStart ∧ w.produced = 0 ∧ w.pend = [] ∧
        ∀ i, w.ring.read i = none)

/-- R163, R161: SW_WRB produces one byte: it goes to the ring slot (ws + produced) mod W and to the sink's queue, and
nothing else changes. At 2^32 - 1 produced bytes it raises Overflow(0x22, 0) and produces nothing. The bound on the pending
bytes is R172's. -/
def Obligations.SwWrbProducesOneByte : Prop :=
  ∀ (s : State) (b : Word), s.flt = none →
    (s.sw.active = false → exec (.swWrb b) s = .next (faultedBy (.swWrb b) .badSequence 0x00000021 s.status s)) ∧
    (s.sw.active = true → s.sw.pend.length ≤ s.par.swbuf →
      (s.sw.produced.toNat = 2 ^ 32 - 1 → exec (.swWrb b) s = .next (faultedBy (.swWrb b) .overflow 0x22 0 s)) ∧
      (s.sw.produced.toNat < 2 ^ 32 - 1 →
        ∃ t, exec (.swWrb b) s = .next t ∧ t.resp = some ⟨0, 0, 0, 0⟩ ∧ t.cmdcnt = s.cmdcnt + 1 ∧ t.flt = none ∧
          WindowFrame s t ∧ t.srcPos = s.srcPos ∧ t.out = s.out ++ [b.extractLsb' 0 8] ∧
          t.sw.pend.length ≤ s.par.swbuf ∧ t.sw.produced.toNat = s.sw.produced.toNat + 1 ∧
          ∀ i, t.sw.ring.read i =
            if i = (s.sw.winStart.toNat + s.sw.produced.toNat) % s.sw.winSize.toNat then some (b.extractLsb' 0 8)
            else s.sw.ring.read i))

/-- R164, R168: SW_BCOPY with a legal distance appends `length` bytes, the i-th of which repeats the last `distance` bytes
with that period, also where source and destination overlap; the ring changes in the slots of those bytes only, the window's
invariant holds again, and nothing else but counter and queue changes. -/
def Obligations.BackCopyRepeatsTheWindow : Prop :=
  ∀ (s : State) (d l : Word), s.flt = none → s.sw.active = true → WindowInv s →
    1 ≤ d.toNat → d.toNat ≤ s.sw.winSize.toNat → d.toNat ≤ s.sw.produced.toNat →
    s.sw.produced.toNat + l.toNat ≤ 2 ^ 32 - 1 →
    ∃ t, exec (.swBcopy d l) s = .next t ∧ t.resp = some ⟨0, 0, 0, 0⟩ ∧ t.cmdcnt = s.cmdcnt + 1 ∧ t.flt = none ∧
      WindowFrame s t ∧ RingFrame l.toNat s t ∧ WindowInv t ∧ t.srcPos = s.srcPos ∧
      t.sw.produced.toNat = s.sw.produced.toNat + l.toNat ∧ t.out.length = s.out.length + l.toNat ∧ s.out <+: t.out ∧
      (∀ i, i < l.toNat → t.out[s.out.length + i]? = t.out[s.out.length + i - d.toNat]?) ∧
      (∀ i, i < l.toNat → t.out[s.out.length + i]? = s.out[s.out.length - d.toNat + i % d.toNat]?)

/-- R164, R221: a distance of 0, above windowSize or above the bytes produced raises CorruptReference(distance, produced)
before any byte is copied, also when the length is 0. (The bound on the pending bytes is R172's.) -/
def Obligations.BackCopyRejectsBadDistance : Prop :=
  ∀ (s : State) (d l : Word), s.flt = none → s.sw.active = true → s.sw.pend.length ≤ s.par.swbuf →
    (d = 0 ∨ s.sw.winSize.toNat < d.toNat ∨ s.sw.produced.toNat < d.toNat) →
    exec (.swBcopy d l) s = .next (faultedBy (.swBcopy d l) .corruptReference d s.sw.produced s)

/-- R161, R164, R225: a copy that would produce byte number 2^32 stops there: the bytes before it stay produced and
Overflow(0x22, 0) is raised. In a window that meets its invariant they are the bytes that the copy without the limit would
have begun with. -/
def Obligations.BackCopyStopsAtTheCounterLimit : Prop :=
  ∀ (s : State) (d l : Word), s.flt = none → s.sw.active = true →
    1 ≤ d.toNat → d.toNat ≤ s.sw.winSize.toNat → d.toNat ≤ s.sw.produced.toNat →
    2 ^ 32 - 1 < s.sw.produced.toNat + l.toNat →
    ∃ t, exec (.swBcopy d l) s = .next t ∧ t.flt = some ⟨.overflow, 0x22, 0x22, 0⟩ ∧
      t.resp = some ⟨7, 0x22, 0, 0⟩ ∧ t.cmdcnt = s.cmdcnt + 1 ∧ WindowFrame s t ∧
      RingFrame (2 ^ 32 - 1 - s.sw.produced.toNat) s t ∧ t.srcPos = s.srcPos ∧
      t.sw.produced.toNat = 2 ^ 32 - 1 ∧ s.out <+: t.out ∧
      t.out.length = s.out.length + (2 ^ 32 - 1 - s.sw.produced.toNat) ∧
      (WindowInv s → ∀ i, i < 2 ^ 32 - 1 - s.sw.produced.toNat →
        t.out[s.out.length + i]? = t.out[s.out.length + i - d.toNat]?)

/-- R165: SW_OCOPY converts the slot `offset mod W` into the distance from the write slot, 0 meaning W, and then does what
SW_BCOPY does with that distance; the first slot read is the one the offset names. A distance above the bytes produced
raises CorruptReference with the converted distance; a copy that would produce byte number 2^32 stops there with
Overflow(0x22, 0) and the bytes before it produced (R161, R225). -/
def Obligations.OffsetCopyIsABackCopy : Prop :=
  ∀ (s : State) (a l : Word), s.flt = none → s.sw.active = true → 1 ≤ s.sw.winSize.toNat →
    s.sw.pend.length ≤ s.par.swbuf →
    let w := s.sw.winSize.toNat
    let back := ((s.sw.winStart.toNat + s.sw.produced.toNat) % w + w - a.toNat % w) % w
    let d := if back = 0 then w else back
    (d ≤ s.sw.produced.toNat → (s.sw.winStart.toNat + s.sw.produced.toNat - d) % w = a.toNat % w) ∧
    (d ≤ s.sw.produced.toNat → s.sw.produced.toNat + l.toNat ≤ 2 ^ 32 - 1 →
      ∃ t, exec (.swOcopy a l) s = .next t ∧ exec (.swBcopy (BitVec.ofNat 32 d) l) s = .next t ∧ t.flt = none ∧
        t.resp = some ⟨0, 0, 0, 0⟩) ∧
    (s.sw.produced.toNat < d → exec (.swOcopy a l) s =
      .next (faultedBy (.swOcopy a l) .corruptReference (BitVec.ofNat 32 d) s.sw.produced s)) ∧
    (d ≤ s.sw.produced.toNat → 2 ^ 32 - 1 < s.sw.produced.toNat + l.toNat →
      ∃ t u, exec (.swOcopy a l) s = .next t ∧ exec (.swBcopy (BitVec.ofNat 32 d) l) s = .next u ∧
        t.flt = some ⟨.overflow, 0x23, 0x22, 0⟩ ∧ t.resp = some ⟨7, 0x22, 0, 0⟩ ∧
        t.sw.produced.toNat = 2 ^ 32 - 1 ∧ t = { u with flt := t.flt })

/-- R166, R66: SW_COPYFROM moves `length` source bytes into the window. When the source ends before that, the bytes there
are stay copied and EndOfInput(SRC.pos, 1) is raised. When SW.produced reaches its limit first, the next byte is taken from
SRC but not produced and Overflow(0x22, 0) is raised; when SRC.pos reaches its limit first, that byte is not taken either and
Overflow(0x23, 0) is raised. -/
def Obligations.CopyFromMovesSourceBytes : Prop :=
  ∀ (s : State) (l : Word), s.flt = none → s.sw.active = true → s.srcPos.toNat ≤ s.src.length →
    let there := s.src.length - s.srcPos.toNat
    let fits := 2 ^ 32 - 1 - s.sw.produced.toNat
    let reach := 2 ^ 32 - 1 - s.srcPos.toNat
    (l.toNat ≤ there → l.toNat ≤ fits → l.toNat ≤ reach →
      ∃ t, exec (.swCopyfrom l) s = .next t ∧ t.resp = some ⟨0, 0, 0, 0⟩ ∧ t.cmdcnt = s.cmdcnt + 1 ∧ t.flt = none ∧
        WindowFrame s t ∧ RingFrame l.toNat s t ∧ t.out = s.out ++ (s.src.drop s.srcPos.toNat).take l.toNat ∧
        t.srcPos.toNat = s.srcPos.toNat + l.toNat ∧ t.sw.produced.toNat = s.sw.produced.toNat + l.toNat) ∧
    (there < l.toNat → there ≤ fits → there ≤ reach →
      ∃ t, exec (.swCopyfrom l) s = .next t ∧
        t.flt = some ⟨.endOfInput, 0x24, BitVec.ofNat 32 s.src.length, 1⟩ ∧
        t.resp = some ⟨3, BitVec.ofNat 32 s.src.length, 1, 0⟩ ∧ t.cmdcnt = s.cmdcnt + 1 ∧
        WindowFrame s t ∧ RingFrame there s t ∧ t.out = s.out ++ s.src.drop s.srcPos.toNat ∧
        t.srcPos.toNat = s.src.length ∧ t.sw.produced.toNat = s.sw.produced.toNat + there) ∧
    (fits < l.toNat → fits < there → fits < reach →
      ∃ t, exec (.swCopyfrom l) s = .next t ∧
        t.flt = some ⟨.overflow, 0x24, 0x22, 0⟩ ∧ t.resp = some ⟨7, 0x22, 0, 0⟩ ∧ t.cmdcnt = s.cmdcnt + 1 ∧
        WindowFrame s t ∧ RingFrame fits s t ∧ t.out = s.out ++ (s.src.drop s.srcPos.toNat).take fits ∧
        t.srcPos.toNat = s.srcPos.toNat + fits + 1 ∧ t.sw.produced.toNat = 2 ^ 32 - 1) ∧
    (reach < l.toNat → reach < there → reach ≤ fits →
      ∃ t, exec (.swCopyfrom l) s = .next t ∧
        t.flt = some ⟨.overflow, 0x24, 0x23, 0⟩ ∧ t.resp = some ⟨7, 0x23, 0, 0⟩ ∧ t.cmdcnt = s.cmdcnt + 1 ∧
        WindowFrame s t ∧ RingFrame reach s t ∧ t.out = s.out ++ (s.src.drop s.srcPos.toNat).take reach ∧
        t.srcPos.toNat = 2 ^ 32 - 1 ∧ t.sw.produced.toNat = s.sw.produced.toNat + reach)

/-- R167: SW_DISPOSE drains the queue into SINK, answers the count and leaves SW idle; with CHECK a differing size raises
SizeMismatch(expected, produced) after that; without CHECK a nonzero operand raises IllegalCommand and drains nothing. -/
def Obligations.SwDisposeDrainsThenChecks : Prop :=
  ∀ (s : State) (check : Bool) (a : Word), s.flt = none →
    let i : Instr := .swDispose check a
    let t : State := { s with sink := s.sink ++ s.sw.pend, sw := { s.sw with active := false, pend := [] } }
    (s.sw.active = false → exec i s = .next (faultedBy i .badSequence (if check then 0x00000125 else 0x00000025) s.status s)) ∧
    (s.sw.active = true →
      (check = false → a ≠ 0 → exec i s = .next (faultedBy i .illegalCommand 0x00000025 a s)) ∧
      (check = true → a ≠ s.sw.produced → exec i s = .next (faultedBy i .sizeMismatch a s.sw.produced t)) ∧
      ((check = false ∧ a = 0) ∨ (check = true ∧ a = s.sw.produced) →
        exec i s = .next (replied s.sw.produced 0 0 t)))

/-- R173: SW_WRITE issues its SW_WRB in order, one per step, and appends their bytes; if one of them faults the rest are not
issued, so that the fault is the last thing the pseudo-command does and CMDCNT counts no command after it. At a counter with
room for fewer bytes the first that does not fit faults; with SW idle the first of all does. (The bound on the pending bytes
is R172's; `drainTick` is the model's own field, entry 9.) -/
def Obligations.SwWriteStopsAtAFault : Prop :=
  ∀ (s : State) (bytes : List Byte) (rest : List HostAct), s.host = presentPseudo (.swWrite bytes) ++ rest →
    s.flt = none → s.sw.pend.length ≤ s.par.swbuf →
    let fits := 2 ^ 32 - 1 - s.sw.produced.toNat
    (s.sw.active = true → bytes.length ≤ fits →
      ∃ t, Sys2Proof.core.run bytes.length s = .next t ∧ t.flt = none ∧
        WindowFrame { s with host := rest, drainTick := t.drainTick } t ∧ t.srcPos = s.srcPos ∧
        RingFrame bytes.length s t ∧ t.cmdcnt = s.cmdcnt + BitVec.ofNat 32 bytes.length ∧ t.out = s.out ++ bytes ∧
        t.sw.produced.toNat = s.sw.produced.toNat + bytes.length) ∧
    (s.sw.active = true → fits < bytes.length →
      ∃ t, Sys2Proof.core.run (fits + 1) s = .next t ∧ t.flt = some ⟨.overflow, 0x21, 0x22, 0⟩ ∧
        t.resp = some ⟨7, 0x22, 0, 0⟩ ∧
        WindowFrame { s with host := rest, drainTick := t.drainTick } t ∧ t.srcPos = s.srcPos ∧
        RingFrame fits s t ∧ t.cmdcnt = s.cmdcnt + BitVec.ofNat 32 (fits + 1) ∧ t.out = s.out ++ bytes.take fits ∧
        t.sw.produced.toNat = 2 ^ 32 - 1) ∧
    (s.sw.active = false → bytes ≠ [] →
      ∃ t, Sys2Proof.core.run 1 s = .next t ∧ t.flt = some ⟨.badSequence, 0x21, 0x21, s.status⟩ ∧
        t.resp = some ⟨6, 0x21, s.status, 0⟩ ∧
        WindowFrame { s with host := rest, drainTick := t.drainTick } t ∧ t.srcPos = s.srcPos ∧
        RingFrame 0 s t ∧ t.cmdcnt = s.cmdcnt + 1 ∧ t.out = s.out ∧ t.sw.produced = s.sw.produced)

/-- R43, R169, R170, R172: every step keeps the window's invariant: the ring is in canonical form and holds exactly the last
min(produced, W) bytes produced, each in its slot, and at most SWBUF bytes are pending. -/
def Obligations.StepKeepsWindowInvariant : Prop :=
  ∀ s t : State, WindowInv s → step s = .next t → WindowInv t

/-- R67, R77: SINK only grows, by bytes in the order produced, except at a reset; and no byte produced is lost or reordered on
its way to it, except at a reset or when SW_INIT throws the queue away. -/
def Obligations.SinkOnlyGrows : Prop :=
  ∀ (s t : State), step s = .next t →
    (∀ rest, s.host ≠ .powerOn :: rest) → (∀ c, s.nextWord = some c → decode c ≠ .ok .reset) →
    s.sink <+: t.sink ∧
    ((∀ c, s.nextWord = some c → decode c ≠ .ok .swInit) → s.out <+: t.out)

/-! ## Flag reader -/

/-- R183: FR_INIT latches FC_CFG and empties the accumulator, whatever FR was doing; the source cursor stays. -/
def Obligations.FrInitStartsEmptyReader : Prop :=
  ∀ s : State, s.flt = none →
    exec .frInit s = .next (replied 0 0 0 { s with fr := { active := true, cfg := s.csr.fcCfg, acc := 0, left := 0 } })

/-- R184, R181, R182: FR_RBIT answers the next flag bit of the stream the source holds from here on and moves past it,
fetching a unit exactly when none is left; if no bit is left it raises EndOfInput(SRC.pos, missing), and if the unit would
move SRC.pos past its limit Overflow(0x23, 0) (R66), and consumes nothing. -/
def Obligations.FrRbitReadsNextFlagBit : Prop :=
  ∀ s : State, s.flt = none → s.fr.active = true → FlagInv s →
    (∀ b rest, flagStream s = b :: rest →
      (s.fr.left = 0 → s.srcPos.toNat + s.fr.cfg.unit.bytes ≤ 2 ^ 32 - 1) →
      ∃ u : State, exec .frRbit s = .next (replied (if b then 1 else 0) 0 0 u) ∧ flagStream u = rest ∧
        u = { s with fr := u.fr, srcPos := u.srcPos } ∧ u.fr.active = true ∧ u.fr.cfg = s.fr.cfg ∧
        u.fr.left = (if s.fr.left = 0 then s.fr.cfg.bits else s.fr.left) - 1 ∧
        u.srcPos.toNat = s.srcPos.toNat + (if s.fr.left = 0 then s.fr.cfg.unit.bytes else 0)) ∧
    (flagStream s = [] → exec .frRbit s = .next (faultedBy .frRbit .endOfInput s.srcPos
      (BitVec.ofNat 32 (s.srcPos.toNat + s.fr.cfg.unit.bytes - s.src.length)) s)) ∧
    (s.fr.left = 0 → s.srcPos.toNat + s.fr.cfg.unit.bytes ≤ s.src.length →
      2 ^ 32 - 1 < s.srcPos.toNat + s.fr.cfg.unit.bytes →
      exec .frRbit s = .next (faultedBy .frRbit .overflow 0x23 0 s))

/-- R185: FR_RINT takes `bits` flag bits of that stream and answers the integer they compose to, most significant first or,
with LSBF, least significant first; more than 32 raises IllegalCommand. R181, R188 (a): it fetches only the units whose
first bit it needs, `units` of them, none for `bits = 0`. If the source holds fewer whole units it raises EndOfInput, and
if SRC.pos cannot pass that many Overflow(0x23, 0) (R66); the bits before the failed refill are consumed (R225), the refill
itself consumes nothing. -/
def Obligations.FrRintComposesFlagBits : Prop :=
  ∀ (s : State) (lsbf : Bool) (n : Word), s.flt = none → s.fr.active = true → FlagInv s →
    let c := s.fr.cfg
    let units := (n.toNat - s.fr.left + c.bits - 1) / c.bits
    let whole := (s.src.length - s.srcPos.toNat) / c.unit.bytes
    let reach := (2 ^ 32 - 1 - s.srcPos.toNat) / c.unit.bytes
    (32 < n.toNat → exec (.frRint lsbf n) s =
      .next (faultedBy (.frRint lsbf n) .illegalCommand (if lsbf then 0x00000132 else 0x00000032) n s)) ∧
    (n.toNat ≤ 32 → n.toNat ≤ (flagStream s).length → units ≤ reach →
      ∃ u : State, exec (.frRint lsbf n) s =
          .next (replied (BitVec.ofNat 32 (composeInt lsbf ((flagStream s).take n.toNat))) 0 0 u) ∧
        flagStream u = (flagStream s).drop n.toNat ∧ u = { s with fr := u.fr, srcPos := u.srcPos } ∧
        u.fr.active = true ∧ u.fr.cfg = c ∧ u.fr.left + n.toNat = s.fr.left + units * c.bits ∧
        u.srcPos.toNat = s.srcPos.toNat + units * c.unit.bytes) ∧
    (n.toNat ≤ 32 → (flagStream s).length < n.toNat → whole ≤ reach →
      ∃ u : State, exec (.frRint lsbf n) s = .next (faultedBy (.frRint lsbf n) .endOfInput u.srcPos
          (BitVec.ofNat 32 (u.srcPos.toNat + c.unit.bytes - s.src.length)) u) ∧
        flagStream u = [] ∧ u = { s with fr := u.fr, srcPos := u.srcPos } ∧ u.fr.active = true ∧ u.fr.cfg = c ∧
        u.fr.left = 0 ∧ u.srcPos.toNat = s.srcPos.toNat + whole * c.unit.bytes) ∧
    (n.toNat ≤ 32 → reach < units → reach < whole →
      ∃ u : State, exec (.frRint lsbf n) s = .next (faultedBy (.frRint lsbf n) .overflow 0x23 0 u) ∧
        flagStream u = (flagStream s).drop (s.fr.left + reach * c.bits) ∧
        u = { s with fr := u.fr, srcPos := u.srcPos } ∧ u.fr.active = true ∧ u.fr.cfg = c ∧ u.fr.left = 0 ∧
        u.srcPos.toNat = s.srcPos.toNat + reach * c.unit.bytes)

/-- R186: FR_RESET drops the bits left; the source cursor stays. Idle, it raises BadSequence. -/
def Obligations.FrResetDropsBits : Prop :=
  ∀ s : State, s.flt = none →
    (s.fr.active = false → exec .frReset s = .next (faultedBy .frReset .badSequence 0x00000033 s.status s)) ∧
    (s.fr.active = true → exec .frReset s = .next (replied 0 0 0 { s with fr := { s.fr with acc := 0, left := 0 } }))

/-- R187, R66: SRC_RB answers the byte at the cursor and moves the cursor, whatever the units do; at the end of the source
it raises EndOfInput(SRC.pos, 1), at the limit of the cursor Overflow(0x23, 0), and consumes nothing. -/
def Obligations.SrcRbReadsNextByte : Prop :=
  ∀ s : State, s.flt = none →
    (∀ b, s.src[s.srcPos.toNat]? = some b → s.srcPos.toNat < 2 ^ 32 - 1 →
      exec .srcRb s = .next (replied (b.setWidth 32) 0 0 { s with srcPos := s.srcPos + 1 })) ∧
    (s.src.length = s.srcPos.toNat → exec .srcRb s = .next (faultedBy .srcRb .endOfInput s.srcPos 1 s)) ∧
    (s.srcPos.toNat < s.src.length → s.srcPos.toNat = 2 ^ 32 - 1 →
      exec .srcRb s = .next (faultedBy .srcRb .overflow 0x23 0 s))

/-! ## Flag writer -/

/-- R197: FW_INIT latches FC_CFG and empties accumulator and AUX, whatever FW was doing; DST keeps what it has. -/
def Obligations.FwInitStartsEmptyWriter : Prop :=
  ∀ s : State, s.flt = none →
    exec .fwInit s =
      .next (replied 0 0 0 { s with fw := { active := true, cfg := s.csr.fcCfg, acc := 0, cnt := 0, aux := [] } })

/-- R198, R196: FW_WBIT puts the bit in the place of bit number `cnt` of the unit; the bit that fills the unit puts the
unit's bytes and then the payload on DST and empties both. Byte number `j` of the unit on DST is bits 8j+7 .. 8j of the
accumulator little-endian, and bits 8(u-1-j)+7 .. 8(u-1-j) big-endian (R69, R196). -/
def Obligations.FwWbitWritesOneFlagBit : Prop :=
  ∀ (s : State) (a : Word), s.flt = none →
    let c := s.fw.cfg
    let place := if c.lsb then s.fw.cnt else c.bits - 1 - s.fw.cnt
    let acc : Word := if a.getLsbD 0 then s.fw.acc ||| BitVec.twoPow 32 place else s.fw.acc
    (s.fw.active = false → exec (.fwWbit a) s = .next (faultedBy (.fwWbit a) .badSequence 0x00000041 s.status s)) ∧
    (s.fw.active = true →
      (s.fw.cnt + 1 ≠ c.bits →
        exec (.fwWbit a) s = .next (replied 0 0 0 { s with fw := { s.fw with acc := acc, cnt := s.fw.cnt + 1 } })) ∧
      (s.fw.cnt + 1 = c.bits →
        exec (.fwWbit a) s = .next (replied 0 0 0
          { s with
            fw := { s.fw with acc := 0, cnt := 0, aux := [] }
            dst := s.dst ++
              ((List.range c.unit.bytes).map fun j => acc.extractLsb' (8 * (if c.le then j else c.unit.bytes - 1 - j)) 8) ++
              s.fw.aux })))

/-- R199: FW_WINT writes what `bits` FW_WBIT commands write with the value's bits, most significant of them first or, with
LSBF, least significant first; bits of the value at and above `bits` are ignored; more than 32 raises IllegalCommand; idle,
it raises BadSequence. -/
def Obligations.FwWintWritesItsBits : Prop :=
  ∀ (s : State) (lsbf : Bool) (v n : Word), s.flt = none →
    (s.fw.active = false → exec (.fwWint lsbf v n) s =
      .next (faultedBy (.fwWint lsbf v n) .badSequence (if lsbf then 0x00000142 else 0x00000042) s.status s)) ∧
    (s.fw.active = true → 32 < n.toNat → exec (.fwWint lsbf v n) s =
      .next (faultedBy (.fwWint lsbf v n) .illegalCommand (if lsbf then 0x00000142 else 0x00000042) v s)) ∧
    (s.fw.active = true → n.toNat ≤ 32 →
      let low := (List.range n.toNat).map fun i => v.getLsbD i
      ∃ u : State, writeBits (if lsbf then low else low.reverse) s = .next u ∧
        exec (.fwWint lsbf v n) s = .next (replied 0 0 0 { s with fw := u.fw, dst := u.dst }))

/-- R200: FW_PAY appends one byte to AUX, or raises Overflow(0x26, 0) when AUX is full. -/
def Obligations.FwPayAppendsPayload : Prop :=
  ∀ (s : State) (a : Word), s.flt = none →
    (s.fw.active = false → exec (.fwPay a) s = .next (faultedBy (.fwPay a) .badSequence 0x00000043 s.status s)) ∧
    (s.fw.active = true →
      (s.par.auxmax ≤ s.fw.aux.length → exec (.fwPay a) s = .next (faultedBy (.fwPay a) .overflow 0x26 0 s)) ∧
      (s.fw.aux.length < s.par.auxmax → exec (.fwPay a) s =
        .next (replied 0 0 0 { s with fw := { s.fw with aux := s.fw.aux ++ [a.extractLsb' 0 8] } })))

/-- R201: FW_FLUSHN moves the waiting payload to DST at a group boundary and does nothing inside a group. -/
def Obligations.FwFlushnMovesPayloadAtBoundary : Prop :=
  ∀ s : State, s.flt = none →
    (s.fw.active = false → exec .fwFlushn s = .next (faultedBy .fwFlushn .badSequence 0x00000044 s.status s)) ∧
    (s.fw.active = true →
      (s.fw.cnt = 0 →
        exec .fwFlushn s = .next (replied 0 0 0 { s with fw := { s.fw with aux := [] }, dst := s.dst ++ s.fw.aux })) ∧
      (s.fw.cnt ≠ 0 → exec .fwFlushn s = .next (replied 0 0 0 s)))

/-- R202: FW_FLUSH puts a partial group's unit, byte by byte in the unit's byte order (R69), and then the payload on DST;
with no partial group only the payload; FW stays active and empty. In a writer that meets its invariant, bit number `k` of
the unit on DST is the one written for `k < cnt` and 0, the padding, from `cnt` on: it is bit `place` of the unit's value,
which stands in byte number `place / 8` little-endian, and that many bytes from the last one big-endian. -/
def Obligations.FwFlushEmitsWhatWaits : Prop :=
  ∀ s : State, s.flt = none →
    let c := s.fw.cfg
    let unit := (List.range c.unit.bytes).map fun j =>
      s.fw.acc.extractLsb' (8 * (if c.le then j else c.unit.bytes - 1 - j)) 8
    (s.fw.active = false → exec .fwFlush s = .next (faultedBy .fwFlush .badSequence 0x00000045 s.status s)) ∧
    (s.fw.active = true →
      (0 < s.fw.cnt → exec .fwFlush s = .next (replied 0 0 0
        { s with
          fw := { s.fw with acc := 0, cnt := 0, aux := [] }
          dst := s.dst ++ unit ++ s.fw.aux })) ∧
      (s.fw.cnt = 0 →
        exec .fwFlush s = .next (replied 0 0 0 { s with fw := { s.fw with aux := [] }, dst := s.dst ++ s.fw.aux }))) ∧
    (FlagInv s → ∀ k, k < c.bits →
      let place := if c.lsb then k else c.bits - 1 - k
      (unit[if c.le then place / 8 else c.unit.bytes - 1 - place / 8]?).map (fun byte => byte.getLsbD (place % 8)) =
        some (decide (k < s.fw.cnt) && s.fw.acc.getLsbD place))

/-- R188 (b), R69: the bits written through an empty writer and flushed are, as a source, the bits a reader of the same
configuration hands out first; the writer puts ceil(N / U) whole units on DST. -/
def Obligations.BitCodecRoundTrip : Prop :=
  ∀ (s : State) (bits : List Bool), s.flt = none → s.fw.active = true → s.fw.acc = 0 → s.fw.cnt = 0 → s.fw.aux = [] →
    s.dst = [] →
    ∃ u t : State, writeBits bits s = .next u ∧ exec .fwFlush u = .next t ∧
      t.dst.length = (bits.length + s.fw.cfg.bits - 1) / s.fw.cfg.bits * s.fw.cfg.unit.bytes ∧
      ∀ r : State, r.fr.cfg = s.fw.cfg → r.fr.left = 0 → r.src = t.dst → r.srcPos = 0 →
        bits <+: flagStream r

/-! ## Invariants -/

/-- R145, R46, R47: every step keeps the match finder's invariant: the constraints an active finder has latched are legal,
the index is in order and within the input, and every record of the match list is a valid match. -/
def Obligations.StepKeepsFinderInvariant : Prop :=
  ∀ s t : State, s.par.Legal → s.inbuf.wf → FinderInv s → step s = .next t → FinderInv t ∧ t.inbuf.wf

/-- R44, R45, R65, R66: every step keeps the invariant of the flag codec and the streams. -/
def Obligations.StepKeepsFlagInvariant : Prop :=
  ∀ s t : State, FlagInv s → step s = .next t → FlagInv t

/-- The reset state meets every invariant. -/
def Obligations.ResetMeetsInvariants : Prop := Inv State.reset
end

