-- ==== Sys2Proof/Laws/State.lean ====
section
/-! SUPPORT. One lemma per field per named update of State, so that no proof unfolds a record update. -/

namespace Sys2Proof.Machine

variable (s : State)

@[simp] theorem State.withResp_par (r : Option Response) : (s.withResp r).par = s.par := rfl
@[simp] theorem State.withResp_host (r : Option Response) : (s.withResp r).host = s.host := rfl
@[simp] theorem State.withResp_resp (r : Option Response) : (s.withResp r).resp = r := rfl
@[simp] theorem State.withResp_srcNext (r : Option Response) : (s.withResp r).srcNext = s.srcNext := rfl
@[simp] theorem State.withResp_inbuf (r : Option Response) : (s.withResp r).inbuf = s.inbuf := rfl
@[simp] theorem State.withResp_drainTick (r : Option Response) : (s.withResp r).drainTick = s.drainTick := rfl
@[simp] theorem State.withResp_flt (r : Option Response) : (s.withResp r).flt = s.flt := rfl
@[simp] theorem State.withResp_cmdcnt (r : Option Response) : (s.withResp r).cmdcnt = s.cmdcnt := rfl
@[simp] theorem State.withResp_csr (r : Option Response) : (s.withResp r).csr = s.csr := rfl
@[simp] theorem State.withResp_mf (r : Option Response) : (s.withResp r).mf = s.mf := rfl
@[simp] theorem State.withResp_sw (r : Option Response) : (s.withResp r).sw = s.sw := rfl
@[simp] theorem State.withResp_fr (r : Option Response) : (s.withResp r).fr = s.fr := rfl
@[simp] theorem State.withResp_fw (r : Option Response) : (s.withResp r).fw = s.fw := rfl
@[simp] theorem State.withResp_src (r : Option Response) : (s.withResp r).src = s.src := rfl
@[simp] theorem State.withResp_srcPos (r : Option Response) : (s.withResp r).srcPos = s.srcPos := rfl
@[simp] theorem State.withResp_sink (r : Option Response) : (s.withResp r).sink = s.sink := rfl
@[simp] theorem State.withResp_dst (r : Option Response) : (s.withResp r).dst = s.dst := rfl

@[simp] theorem State.withFlt_par (f : Option FaultRecord) : (s.withFlt f).par = s.par := rfl
@[simp] theorem State.withFlt_host (f : Option FaultRecord) : (s.withFlt f).host = s.host := rfl
@[simp] theorem State.withFlt_resp (f : Option FaultRecord) : (s.withFlt f).resp = s.resp := rfl
@[simp] theorem State.withFlt_srcNext (f : Option FaultRecord) : (s.withFlt f).srcNext = s.srcNext := rfl
@[simp] theorem State.withFlt_inbuf (f : Option FaultRecord) : (s.withFlt f).inbuf = s.inbuf := rfl
@[simp] theorem State.withFlt_drainTick (f : Option FaultRecord) : (s.withFlt f).drainTick = s.drainTick := rfl
@[simp] theorem State.withFlt_flt (f : Option FaultRecord) : (s.withFlt f).flt = f := rfl
@[simp] theorem State.withFlt_cmdcnt (f : Option FaultRecord) : (s.withFlt f).cmdcnt = s.cmdcnt := rfl
@[simp] theorem State.withFlt_csr (f : Option FaultRecord) : (s.withFlt f).csr = s.csr := rfl
@[simp] theorem State.withFlt_mf (f : Option FaultRecord) : (s.withFlt f).mf = s.mf := rfl
@[simp] theorem State.withFlt_sw (f : Option FaultRecord) : (s.withFlt f).sw = s.sw := rfl
@[simp] theorem State.withFlt_fr (f : Option FaultRecord) : (s.withFlt f).fr = s.fr := rfl
@[simp] theorem State.withFlt_fw (f : Option FaultRecord) : (s.withFlt f).fw = s.fw := rfl
@[simp] theorem State.withFlt_src (f : Option FaultRecord) : (s.withFlt f).src = s.src := rfl
@[simp] theorem State.withFlt_srcPos (f : Option FaultRecord) : (s.withFlt f).srcPos = s.srcPos := rfl
@[simp] theorem State.withFlt_sink (f : Option FaultRecord) : (s.withFlt f).sink = s.sink := rfl
@[simp] theorem State.withFlt_dst (f : Option FaultRecord) : (s.withFlt f).dst = s.dst := rfl

@[simp] theorem State.withCmdcnt_par (n : Word) : (s.withCmdcnt n).par = s.par := rfl
@[simp] theorem State.withCmdcnt_host (n : Word) : (s.withCmdcnt n).host = s.host := rfl
@[simp] theorem State.withCmdcnt_resp (n : Word) : (s.withCmdcnt n).resp = s.resp := rfl
@[simp] theorem State.withCmdcnt_srcNext (n : Word) : (s.withCmdcnt n).srcNext = s.srcNext := rfl
@[simp] theorem State.withCmdcnt_inbuf (n : Word) : (s.withCmdcnt n).inbuf = s.inbuf := rfl
@[simp] theorem State.withCmdcnt_drainTick (n : Word) : (s.withCmdcnt n).drainTick = s.drainTick := rfl
@[simp] theorem State.withCmdcnt_flt (n : Word) : (s.withCmdcnt n).flt = s.flt := rfl
@[simp] theorem State.withCmdcnt_cmdcnt (n : Word) : (s.withCmdcnt n).cmdcnt = n := rfl
@[simp] theorem State.withCmdcnt_csr (n : Word) : (s.withCmdcnt n).csr = s.csr := rfl
@[simp] theorem State.withCmdcnt_mf (n : Word) : (s.withCmdcnt n).mf = s.mf := rfl
@[simp] theorem State.withCmdcnt_sw (n : Word) : (s.withCmdcnt n).sw = s.sw := rfl
@[simp] theorem State.withCmdcnt_fr (n : Word) : (s.withCmdcnt n).fr = s.fr := rfl
@[simp] theorem State.withCmdcnt_fw (n : Word) : (s.withCmdcnt n).fw = s.fw := rfl
@[simp] theorem State.withCmdcnt_src (n : Word) : (s.withCmdcnt n).src = s.src := rfl
@[simp] theorem State.withCmdcnt_srcPos (n : Word) : (s.withCmdcnt n).srcPos = s.srcPos := rfl
@[simp] theorem State.withCmdcnt_sink (n : Word) : (s.withCmdcnt n).sink = s.sink := rfl
@[simp] theorem State.withCmdcnt_dst (n : Word) : (s.withCmdcnt n).dst = s.dst := rfl

@[simp] theorem State.withCsr_par (c : Csr) : (s.withCsr c).par = s.par := rfl
@[simp] theorem State.withCsr_host (c : Csr) : (s.withCsr c).host = s.host := rfl
@[simp] theorem State.withCsr_resp (c : Csr) : (s.withCsr c).resp = s.resp := rfl
@[simp] theorem State.withCsr_srcNext (c : Csr) : (s.withCsr c).srcNext = s.srcNext := rfl
@[simp] theorem State.withCsr_inbuf (c : Csr) : (s.withCsr c).inbuf = s.inbuf := rfl
@[simp] theorem State.withCsr_drainTick (c : Csr) : (s.withCsr c).drainTick = s.drainTick := rfl
@[simp] theorem State.withCsr_flt (c : Csr) : (s.withCsr c).flt = s.flt := rfl
@[simp] theorem State.withCsr_cmdcnt (c : Csr) : (s.withCsr c).cmdcnt = s.cmdcnt := rfl
@[simp] theorem State.withCsr_csr (c : Csr) : (s.withCsr c).csr = c := rfl
@[simp] theorem State.withCsr_mf (c : Csr) : (s.withCsr c).mf = s.mf := rfl
@[simp] theorem State.withCsr_sw (c : Csr) : (s.withCsr c).sw = s.sw := rfl
@[simp] theorem State.withCsr_fr (c : Csr) : (s.withCsr c).fr = s.fr := rfl
@[simp] theorem State.withCsr_fw (c : Csr) : (s.withCsr c).fw = s.fw := rfl
@[simp] theorem State.withCsr_src (c : Csr) : (s.withCsr c).src = s.src := rfl
@[simp] theorem State.withCsr_srcPos (c : Csr) : (s.withCsr c).srcPos = s.srcPos := rfl
@[simp] theorem State.withCsr_sink (c : Csr) : (s.withCsr c).sink = s.sink := rfl
@[simp] theorem State.withCsr_dst (c : Csr) : (s.withCsr c).dst = s.dst := rfl

@[simp] theorem State.withMf_par (m : Mf) : (s.withMf m).par = s.par := rfl
@[simp] theorem State.withMf_host (m : Mf) : (s.withMf m).host = s.host := rfl
@[simp] theorem State.withMf_resp (m : Mf) : (s.withMf m).resp = s.resp := rfl
@[simp] theorem State.withMf_srcNext (m : Mf) : (s.withMf m).srcNext = s.srcNext := rfl
@[simp] theorem State.withMf_inbuf (m : Mf) : (s.withMf m).inbuf = s.inbuf := rfl
@[simp] theorem State.withMf_drainTick (m : Mf) : (s.withMf m).drainTick = s.drainTick := rfl
@[simp] theorem State.withMf_flt (m : Mf) : (s.withMf m).flt = s.flt := rfl
@[simp] theorem State.withMf_cmdcnt (m : Mf) : (s.withMf m).cmdcnt = s.cmdcnt := rfl
@[simp] theorem State.withMf_csr (m : Mf) : (s.withMf m).csr = s.csr := rfl
@[simp] theorem State.withMf_mf (m : Mf) : (s.withMf m).mf = m := rfl
@[simp] theorem State.withMf_sw (m : Mf) : (s.withMf m).sw = s.sw := rfl
@[simp] theorem State.withMf_fr (m : Mf) : (s.withMf m).fr = s.fr := rfl
@[simp] theorem State.withMf_fw (m : Mf) : (s.withMf m).fw = s.fw := rfl
@[simp] theorem State.withMf_src (m : Mf) : (s.withMf m).src = s.src := rfl
@[simp] theorem State.withMf_srcPos (m : Mf) : (s.withMf m).srcPos = s.srcPos := rfl
@[simp] theorem State.withMf_sink (m : Mf) : (s.withMf m).sink = s.sink := rfl
@[simp] theorem State.withMf_dst (m : Mf) : (s.withMf m).dst = s.dst := rfl

@[simp] theorem State.withSw_par (w : Sw) : (s.withSw w).par = s.par := rfl
@[simp] theorem State.withSw_host (w : Sw) : (s.withSw w).host = s.host := rfl
@[simp] theorem State.withSw_resp (w : Sw) : (s.withSw w).resp = s.resp := rfl
@[simp] theorem State.withSw_srcNext (w : Sw) : (s.withSw w).srcNext = s.srcNext := rfl
@[simp] theorem State.withSw_inbuf (w : Sw) : (s.withSw w).inbuf = s.inbuf := rfl
@[simp] theorem State.withSw_drainTick (w : Sw) : (s.withSw w).drainTick = s.drainTick := rfl
@[simp] theorem State.withSw_flt (w : Sw) : (s.withSw w).flt = s.flt := rfl
@[simp] theorem State.withSw_cmdcnt (w : Sw) : (s.withSw w).cmdcnt = s.cmdcnt := rfl
@[simp] theorem State.withSw_csr (w : Sw) : (s.withSw w).csr = s.csr := rfl
@[simp] theorem State.withSw_mf (w : Sw) : (s.withSw w).mf = s.mf := rfl
@[simp] theorem State.withSw_sw (w : Sw) : (s.withSw w).sw = w := rfl
@[simp] theorem State.withSw_fr (w : Sw) : (s.withSw w).fr = s.fr := rfl
@[simp] theorem State.withSw_fw (w : Sw) : (s.withSw w).fw = s.fw := rfl
@[simp] theorem State.withSw_src (w : Sw) : (s.withSw w).src = s.src := rfl
@[simp] theorem State.withSw_srcPos (w : Sw) : (s.withSw w).srcPos = s.srcPos := rfl
@[simp] theorem State.withSw_sink (w : Sw) : (s.withSw w).sink = s.sink := rfl
@[simp] theorem State.withSw_dst (w : Sw) : (s.withSw w).dst = s.dst := rfl

@[simp] theorem State.withFr_par (f : Fr) : (s.withFr f).par = s.par := rfl
@[simp] theorem State.withFr_host (f : Fr) : (s.withFr f).host = s.host := rfl
@[simp] theorem State.withFr_resp (f : Fr) : (s.withFr f).resp = s.resp := rfl
@[simp] theorem State.withFr_srcNext (f : Fr) : (s.withFr f).srcNext = s.srcNext := rfl
@[simp] theorem State.withFr_inbuf (f : Fr) : (s.withFr f).inbuf = s.inbuf := rfl
@[simp] theorem State.withFr_drainTick (f : Fr) : (s.withFr f).drainTick = s.drainTick := rfl
@[simp] theorem State.withFr_flt (f : Fr) : (s.withFr f).flt = s.flt := rfl
@[simp] theorem State.withFr_cmdcnt (f : Fr) : (s.withFr f).cmdcnt = s.cmdcnt := rfl
@[simp] theorem State.withFr_csr (f : Fr) : (s.withFr f).csr = s.csr := rfl
@[simp] theorem State.withFr_mf (f : Fr) : (s.withFr f).mf = s.mf := rfl
@[simp] theorem State.withFr_sw (f : Fr) : (s.withFr f).sw = s.sw := rfl
@[simp] theorem State.withFr_fr (f : Fr) : (s.withFr f).fr = f := rfl
@[simp] theorem State.withFr_fw (f : Fr) : (s.withFr f).fw = s.fw := rfl
@[simp] theorem State.withFr_src (f : Fr) : (s.withFr f).src = s.src := rfl
@[simp] theorem State.withFr_srcPos (f : Fr) : (s.withFr f).srcPos = s.srcPos := rfl
@[simp] theorem State.withFr_sink (f : Fr) : (s.withFr f).sink = s.sink := rfl
@[simp] theorem State.withFr_dst (f : Fr) : (s.withFr f).dst = s.dst := rfl

@[simp] theorem State.withFw_par (f : Fw) : (s.withFw f).par = s.par := rfl
@[simp] theorem State.withFw_host (f : Fw) : (s.withFw f).host = s.host := rfl
@[simp] theorem State.withFw_resp (f : Fw) : (s.withFw f).resp = s.resp := rfl
@[simp] theorem State.withFw_srcNext (f : Fw) : (s.withFw f).srcNext = s.srcNext := rfl
@[simp] theorem State.withFw_inbuf (f : Fw) : (s.withFw f).inbuf = s.inbuf := rfl
@[simp] theorem State.withFw_drainTick (f : Fw) : (s.withFw f).drainTick = s.drainTick := rfl
@[simp] theorem State.withFw_flt (f : Fw) : (s.withFw f).flt = s.flt := rfl
@[simp] theorem State.withFw_cmdcnt (f : Fw) : (s.withFw f).cmdcnt = s.cmdcnt := rfl
@[simp] theorem State.withFw_csr (f : Fw) : (s.withFw f).csr = s.csr := rfl
@[simp] theorem State.withFw_mf (f : Fw) : (s.withFw f).mf = s.mf := rfl
@[simp] theorem State.withFw_sw (f : Fw) : (s.withFw f).sw = s.sw := rfl
@[simp] theorem State.withFw_fr (f : Fw) : (s.withFw f).fr = s.fr := rfl
@[simp] theorem State.withFw_fw (f : Fw) : (s.withFw f).fw = f := rfl
@[simp] theorem State.withFw_src (f : Fw) : (s.withFw f).src = s.src := rfl
@[simp] theorem State.withFw_srcPos (f : Fw) : (s.withFw f).srcPos = s.srcPos := rfl
@[simp] theorem State.withFw_sink (f : Fw) : (s.withFw f).sink = s.sink := rfl
@[simp] theorem State.withFw_dst (f : Fw) : (s.withFw f).dst = s.dst := rfl

@[simp] theorem State.withSrcPos_par (p : Word) : (s.withSrcPos p).par = s.par := rfl
@[simp] theorem State.withSrcPos_host (p : Word) : (s.withSrcPos p).host = s.host := rfl
@[simp] theorem State.withSrcPos_resp (p : Word) : (s.withSrcPos p).resp = s.resp := rfl
@[simp] theorem State.withSrcPos_srcNext (p : Word) : (s.withSrcPos p).srcNext = s.srcNext := rfl
@[simp] theorem State.withSrcPos_inbuf (p : Word) : (s.withSrcPos p).inbuf = s.inbuf := rfl
@[simp] theorem State.withSrcPos_drainTick (p : Word) : (s.withSrcPos p).drainTick = s.drainTick := rfl
@[simp] theorem State.withSrcPos_flt (p : Word) : (s.withSrcPos p).flt = s.flt := rfl
@[simp] theorem State.withSrcPos_cmdcnt (p : Word) : (s.withSrcPos p).cmdcnt = s.cmdcnt := rfl
@[simp] theorem State.withSrcPos_csr (p : Word) : (s.withSrcPos p).csr = s.csr := rfl
@[simp] theorem State.withSrcPos_mf (p : Word) : (s.withSrcPos p).mf = s.mf := rfl
@[simp] theorem State.withSrcPos_sw (p : Word) : (s.withSrcPos p).sw = s.sw := rfl
@[simp] theorem State.withSrcPos_fr (p : Word) : (s.withSrcPos p).fr = s.fr := rfl
@[simp] theorem State.withSrcPos_fw (p : Word) : (s.withSrcPos p).fw = s.fw := rfl
@[simp] theorem State.withSrcPos_src (p : Word) : (s.withSrcPos p).src = s.src := rfl
@[simp] theorem State.withSrcPos_srcPos (p : Word) : (s.withSrcPos p).srcPos = p := rfl
@[simp] theorem State.withSrcPos_sink (p : Word) : (s.withSrcPos p).sink = s.sink := rfl
@[simp] theorem State.withSrcPos_dst (p : Word) : (s.withSrcPos p).dst = s.dst := rfl

@[simp] theorem State.withSink_par (l : List Byte) : (s.withSink l).par = s.par := rfl
@[simp] theorem State.withSink_host (l : List Byte) : (s.withSink l).host = s.host := rfl
@[simp] theorem State.withSink_resp (l : List Byte) : (s.withSink l).resp = s.resp := rfl
@[simp] theorem State.withSink_srcNext (l : List Byte) : (s.withSink l).srcNext = s.srcNext := rfl
@[simp] theorem State.withSink_inbuf (l : List Byte) : (s.withSink l).inbuf = s.inbuf := rfl
@[simp] theorem State.withSink_drainTick (l : List Byte) : (s.withSink l).drainTick = s.drainTick := rfl
@[simp] theorem State.withSink_flt (l : List Byte) : (s.withSink l).flt = s.flt := rfl
@[simp] theorem State.withSink_cmdcnt (l : List Byte) : (s.withSink l).cmdcnt = s.cmdcnt := rfl
@[simp] theorem State.withSink_csr (l : List Byte) : (s.withSink l).csr = s.csr := rfl
@[simp] theorem State.withSink_mf (l : List Byte) : (s.withSink l).mf = s.mf := rfl
@[simp] theorem State.withSink_sw (l : List Byte) : (s.withSink l).sw = s.sw := rfl
@[simp] theorem State.withSink_fr (l : List Byte) : (s.withSink l).fr = s.fr := rfl
@[simp] theorem State.withSink_fw (l : List Byte) : (s.withSink l).fw = s.fw := rfl
@[simp] theorem State.withSink_src (l : List Byte) : (s.withSink l).src = s.src := rfl
@[simp] theorem State.withSink_srcPos (l : List Byte) : (s.withSink l).srcPos = s.srcPos := rfl
@[simp] theorem State.withSink_sink (l : List Byte) : (s.withSink l).sink = l := rfl
@[simp] theorem State.withSink_dst (l : List Byte) : (s.withSink l).dst = s.dst := rfl

@[simp] theorem State.withDst_par (l : List Byte) : (s.withDst l).par = s.par := rfl
@[simp] theorem State.withDst_host (l : List Byte) : (s.withDst l).host = s.host := rfl
@[simp] theorem State.withDst_resp (l : List Byte) : (s.withDst l).resp = s.resp := rfl
@[simp] theorem State.withDst_srcNext (l : List Byte) : (s.withDst l).srcNext = s.srcNext := rfl
@[simp] theorem State.withDst_inbuf (l : List Byte) : (s.withDst l).inbuf = s.inbuf := rfl
@[simp] theorem State.withDst_drainTick (l : List Byte) : (s.withDst l).drainTick = s.drainTick := rfl
@[simp] theorem State.withDst_flt (l : List Byte) : (s.withDst l).flt = s.flt := rfl
@[simp] theorem State.withDst_cmdcnt (l : List Byte) : (s.withDst l).cmdcnt = s.cmdcnt := rfl
@[simp] theorem State.withDst_csr (l : List Byte) : (s.withDst l).csr = s.csr := rfl
@[simp] theorem State.withDst_mf (l : List Byte) : (s.withDst l).mf = s.mf := rfl
@[simp] theorem State.withDst_sw (l : List Byte) : (s.withDst l).sw = s.sw := rfl
@[simp] theorem State.withDst_fr (l : List Byte) : (s.withDst l).fr = s.fr := rfl
@[simp] theorem State.withDst_fw (l : List Byte) : (s.withDst l).fw = s.fw := rfl
@[simp] theorem State.withDst_src (l : List Byte) : (s.withDst l).src = s.src := rfl
@[simp] theorem State.withDst_srcPos (l : List Byte) : (s.withDst l).srcPos = s.srcPos := rfl
@[simp] theorem State.withDst_sink (l : List Byte) : (s.withDst l).sink = s.sink := rfl
@[simp] theorem State.withDst_dst (l : List Byte) : (s.withDst l).dst = l := rfl

@[simp] theorem State.withHost_par (l : List HostAct) : (s.withHost l).par = s.par := rfl
@[simp] theorem State.withHost_host (l : List HostAct) : (s.withHost l).host = l := rfl
@[simp] theorem State.withHost_resp (l : List HostAct) : (s.withHost l).resp = s.resp := rfl
@[simp] theorem State.withHost_srcNext (l : List HostAct) : (s.withHost l).srcNext = s.srcNext := rfl
@[simp] theorem State.withHost_inbuf (l : List HostAct) : (s.withHost l).inbuf = s.inbuf := rfl
@[simp] theorem State.withHost_drainTick (l : List HostAct) : (s.withHost l).drainTick = s.drainTick := rfl
@[simp] theorem State.withHost_flt (l : List HostAct) : (s.withHost l).flt = s.flt := rfl
@[simp] theorem State.withHost_cmdcnt (l : List HostAct) : (s.withHost l).cmdcnt = s.cmdcnt := rfl
@[simp] theorem State.withHost_csr (l : List HostAct) : (s.withHost l).csr = s.csr := rfl
@[simp] theorem State.withHost_mf (l : List HostAct) : (s.withHost l).mf = s.mf := rfl
@[simp] theorem State.withHost_sw (l : List HostAct) : (s.withHost l).sw = s.sw := rfl
@[simp] theorem State.withHost_fr (l : List HostAct) : (s.withHost l).fr = s.fr := rfl
@[simp] theorem State.withHost_fw (l : List HostAct) : (s.withHost l).fw = s.fw := rfl
@[simp] theorem State.withHost_src (l : List HostAct) : (s.withHost l).src = s.src := rfl
@[simp] theorem State.withHost_srcPos (l : List HostAct) : (s.withHost l).srcPos = s.srcPos := rfl
@[simp] theorem State.withHost_sink (l : List HostAct) : (s.withHost l).sink = s.sink := rfl
@[simp] theorem State.withHost_dst (l : List HostAct) : (s.withHost l).dst = s.dst := rfl

end Sys2Proof.Machine
end

