-- ==== Sys2Proof/Laws/Decode.lean ====
section
/-! SUPPORT. The laws of the fields of a command word and of its number and byte forms (R91). -/

namespace Sys2Proof

/-- No bit of a field is lost in the word. -/
@[simp] theorem Fields.fields_cmd (f : Fields) : f.cmd.fields = f := by
  obtain ⟨opc, mod, rsv, a, b⟩ := f
  simp only [Fields.cmd, Cmd.fields, Fields.mk.injEq, and_true]
  refine ⟨?_, ?_, ?_⟩ <;>
    (apply BitVec.eq_of_getLsbD_eq
     intro i hi
     simp only [BitVec.getLsbD_extractLsb', BitVec.getLsbD_append])
  · simp [hi]
  · simp [hi]
  · have h : 16 + i - 8 - 8 = i := by omega
    simp [hi, h, show ¬16 + i < 8 by omega, show ¬16 + i - 8 < 8 by omega]

/-- The word has no bit outside its fields. -/
@[simp] theorem Cmd.cmd_fields (c : Cmd) : c.fields.cmd = c := by
  obtain ⟨w0, w1, w2⟩ := c
  simp only [Fields.cmd, Cmd.fields, Cmd.mk.injEq, and_true]
  apply BitVec.eq_of_getLsbD_eq
  intro i hi
  have e : (16 + 8 + 8 : Nat) = 32 := rfl
  simp only [BitVec.getLsbD_append, BitVec.getLsbD_extractLsb']
  by_cases h1 : i < 8
  · simp [h1]
  · by_cases h2 : i - 8 < 8
    · simp [h1, h2, show 8 + (i - 8) = i by omega]
    · simp [h1, h2, show i - 8 - 8 < 16 by omega, show 16 + (i - 8 - 8) = i by omega]

@[simp] theorem encode_fields (i : Instr) : (encode i).fields = i.fields := Fields.fields_cmd _

/-- No bit from `k` on is set exactly when the value is below `2 ^ k`. -/
theorem outside_low_bits {n : Nat} (k : Nat) (x : BitVec n) :
    x &&& ~~~(BitVec.ofNat n (2 ^ k - 1)) = 0 ↔ x.toNat < 2 ^ k := by
  constructor
  · intro h
    apply Nat.lt_pow_two_of_testBit
    intro i hi
    have hb := congrArg (fun y => y.getLsbD i) h
    simp only [BitVec.getLsbD_and, BitVec.getLsbD_not, BitVec.getLsbD_ofNat, Nat.testBit_two_pow_sub_one] at hb
    by_cases hin : i < n
    · simpa [hin, Nat.not_lt.mpr hi, BitVec.getLsbD] using hb
    · exact BitVec.getLsbD_of_ge x i (Nat.not_lt.mp hin)
  · intro h
    apply BitVec.eq_of_getLsbD_eq
    intro i hi
    simp only [BitVec.getLsbD_and, BitVec.getLsbD_not, BitVec.getLsbD_ofNat, Nat.testBit_two_pow_sub_one]
    by_cases hk : i < k
    · simp [hi, hk]
    · have : x.getLsbD i = false := Nat.testBit_lt_two_pow (Nat.lt_of_lt_of_le h (Nat.pow_le_pow_right (by decide)
        (Nat.not_lt.mp hk)))
      simp [this]

theorem unused_word (x : Word) : x &&& ~~~(0 : Word) = 0 ↔ x = 0 := by
  refine (outside_low_bits 0 x).trans ⟨fun h => ?_, fun h => by simp [h]⟩
  exact BitVec.eq_of_toNat_eq (by simpa using h)

theorem unused_byte (x : BitVec 8) : x &&& ~~~(0 : BitVec 8) = 0 ↔ x = 0 := by
  refine (outside_low_bits 0 x).trans ⟨fun h => ?_, fun h => by simp [h]⟩
  exact BitVec.eq_of_toNat_eq (by simpa using h)

theorem uses_flag (x : BitVec 8) : x &&& ~~~(1 : BitVec 8) = 0 ↔ x.toNat < 2 := outside_low_bits 1 x
theorem uses_one_bit (x : Word) : x &&& ~~~(0x1 : Word) = 0 ↔ x.toNat < 2 := outside_low_bits 1 x
theorem uses_six_bits (x : Word) : x &&& ~~~(0x3F : Word) = 0 ↔ x.toNat < 64 := outside_low_bits 6 x
theorem uses_byte (x : Word) : x &&& ~~~(0xFF : Word) = 0 ↔ x.toNat < 256 := outside_low_bits 8 x
theorem uses_word (x : Word) : x &&& ~~~(0xFFFFFFFF : Word) = 0 := (outside_low_bits 32 x).mpr x.isLt

/-- MOD with only its bit 0 is what the encoder writes for the flag. -/
theorem modOf_getLsbD {x : BitVec 8} (h : x.toNat < 2) : modOf (x.getLsbD 0) = x := by
  have : x = 0 ∨ x = 1 := by
    rcases Nat.lt_succ_iff.mp h |>.eq_or_lt with h | h
    · exact .inr (BitVec.eq_of_toNat_eq h)
    · exact .inl (BitVec.eq_of_toNat_eq (Nat.lt_one_iff.mp h))
  rcases this with rfl | rfl <;> rfl

@[simp] theorem getLsbD_modOf (b : Bool) : (modOf b).getLsbD 0 = b := by cases b <;> rfl

theorem modOf_lt (b : Bool) : (modOf b).toNat < 2 := by cases b <;> decide

/-- A word meets a format exactly when every bit the format does not use is 0 (R92, R98). -/
theorem Format.violation_eq_none (fmt : Format) (f : Fields) :
    fmt.violation f = none ↔
      f.rsv = 0 ∧ f.mod &&& ~~~fmt.modUsed = 0 ∧ f.a &&& ~~~fmt.aUsed = 0 ∧ f.b &&& ~~~fmt.bUsed = 0 := by
  unfold Format.violation
  split_ifs <;> simp_all

/-- Everything decoding can do. -/
theorem decode_cases (c : Cmd) :
    (opcodeRow c.fields.opc = none ∧ decode c = .rejected .unknownOpcode) ∨
    ∃ fmt build, opcodeRow c.fields.opc = some (fmt, build) ∧
      ((fmt.violation c.fields = none ∧ decode c = .ok (build c.fields)) ∨
       ∃ r, fmt.violation c.fields = some r ∧ decode c = .rejected r) := by
  unfold decode
  cases h : opcodeRow c.fields.opc with
  | none => exact .inl ⟨rfl, rfl⟩
  | some row =>
    obtain ⟨fmt, build⟩ := row
    refine .inr ⟨fmt, build, rfl, ?_⟩
    cases hv : fmt.violation c.fields with
    | none => exact .inl ⟨rfl, by simp [hv]⟩
    | some r => exact .inr ⟨r, rfl, by simp [hv]⟩

/-- A word decodes exactly when its opcode has a row and its fields meet the row's format. -/
theorem decode_eq_ok {c : Cmd} {i : Instr} :
    decode c = .ok i ↔
      ∃ fmt build, opcodeRow c.fields.opc = some (fmt, build) ∧ fmt.violation c.fields = none ∧ build c.fields = i := by
  constructor
  · intro h
    rcases decode_cases c with ⟨-, e⟩ | ⟨fmt, build, hr, ⟨hv, e⟩ | ⟨r, -, e⟩⟩
    · rw [e] at h; cases h
    · rw [e] at h; exact ⟨fmt, build, hr, hv, by injection h⟩
    · rw [e] at h; cases h
  · rintro ⟨fmt, build, hr, hv, rfl⟩
    simp [decode, hr, hv]

end Sys2Proof
end

