-- ==== Sys2Proof/Laws/Ops.lean ====
section
/-! SUPPORT. One lemma per shared operation of Machine/Ops.lean: everything it can do. -/

namespace Sys2Proof.Machine

/-! ## The end of a command -/

theorem opcode_of_w0 (i : Instr) : (encode i).w0.extractLsb' 0 8 = i.fields.opc :=
  congrArg Fields.opc (encode_fields i)

@[simp] theorem finish_ok (w0 : Word) (r : Reply) (s : State) :
    finish w0 (.ok r s) = replied r.r0 r.r1 r.r2 s := rfl

theorem finish_raise (i : Instr) (c : Cause) (i0 i1 : Word) (s : State) :
    finish (encode i).w0 (.raise c i0 i1 s) = faultedBy i c i0 i1 s := by
  simp [finish, takeFault, respond, countCommand, opcode_of_w0, faultedBy, State.withResp, State.withFlt,
    State.withCmdcnt]

@[simp] theorem completed_replied (a b c : Word) (s : State) :
    completed (.next (replied a b c s)) = some (replied a b c s, ⟨0, a, b, c⟩) := rfl

theorem refuse_eq (s : State) : refuse s = refusedIn s := rfl

theorem faulted_eq_false {s : State} (h : s.flt = none) : s.faulted = false := by simp [State.faulted, h]

theorem faulted_eq_true {s : State} {f : FaultRecord} (h : s.flt = some f) : s.faulted = true := by
  simp [State.faulted, h]

/-! ## The frame of a command (R106) -/

/-- A command whose unit is there, on a block that is not faulted, ends as its body does. -/
theorem runCommand_runs {i : Instr} {body : State → Res Reply} {s : State} (hf : s.flt = none)
    (hu : unitReady i s = true) : runCommand i body s = .next (finish (encode i).w0 (body s)) := by
  simp [runCommand, faulted_eq_false hf, hu]

theorem runCommand_done {i : Instr} {body : State → Res Reply} {s u : State} {r : Reply} (hf : s.flt = none)
    (hu : unitReady i s = true) (hb : body s = .ok r u) :
    runCommand i body s = .next (replied r.r0 r.r1 r.r2 u) := by
  rw [runCommand_runs hf hu, hb, finish_ok]

theorem runCommand_raises {i : Instr} {body : State → Res Reply} {s u : State} {c : Cause} {i0 i1 : Word}
    (hf : s.flt = none) (hu : unitReady i s = true) (hb : body s = .raise c i0 i1 u) :
    runCommand i body s = .next (faultedBy i c i0 i1 u) := by
  rw [runCommand_runs hf hu, hb, finish_raise]

theorem runCommand_idle {i : Instr} {body : State → Res Reply} {s : State} (hf : s.flt = none)
    (hu : unitReady i s = false) :
    runCommand i body s = .next (faultedBy i .badSequence (encode i).w0 s.status s) := by
  simp [runCommand, faulted_eq_false hf, hu, finish_raise]

theorem runCommand_refused {i : Instr} {body : State → Res Reply} {s : State} (hf : s.flt ≠ none)
    (hr : runsWhileFaulted i s = false) : runCommand i body s = .next (refusedIn s) := by
  obtain ⟨f, hf⟩ := Option.ne_none_iff_exists'.mp hf
  simp [runCommand, faulted_eq_true hf, hr, refuse_eq]

/-- Everything `runCommand` can do. -/
theorem runCommand_cases (i : Instr) (body : State → Res Reply) (s : State) :
    (s.flt ≠ none ∧ runsWhileFaulted i s = false ∧ runCommand i body s = .next (refusedIn s)) ∨
    ((s.flt = none ∨ runsWhileFaulted i s = true) ∧ unitReady i s = false ∧
      runCommand i body s = .next (faultedBy i .badSequence (encode i).w0 s.status s)) ∨
    ((s.flt = none ∨ runsWhileFaulted i s = true) ∧ unitReady i s = true ∧
      runCommand i body s = .next (finish (encode i).w0 (body s))) := by
  cases hf : s.flt with
  | none =>
    cases hu : unitReady i s with
    | false => exact .inr (.inl ⟨.inl rfl, rfl, runCommand_idle hf hu⟩)
    | true => exact .inr (.inr ⟨.inl rfl, rfl, runCommand_runs hf hu⟩)
  | some f =>
    cases hr : runsWhileFaulted i s with
    | false => exact .inl ⟨by simp, rfl, runCommand_refused (by simp [hf]) hr⟩
    | true =>
      cases hu : unitReady i s with
      | false => exact .inr (.inl ⟨.inr rfl, rfl, by simp [runCommand, faulted_eq_true hf, hr, hu, finish_raise]⟩)
      | true => exact .inr (.inr ⟨.inr rfl, rfl, by simp [runCommand, faulted_eq_true hf, hr, hu]⟩)

/-! ## Pseudocode results -/

@[simp] theorem Res.bind_ok {α β : Type} (a : α) (s : State) (f : α → State → Res β) : (Res.ok a s).bind f = f a s := rfl

@[simp] theorem Res.bind_raise {α β : Type} (c : Cause) (i0 i1 : Word) (s : State) (f : α → State → Res β) :
    (Res.raise c i0 i1 s : Res α).bind f = .raise c i0 i1 s := rfl

@[simp] theorem Res.mapState_ok {α : Type} (g : State → State) (a : α) (s : State) :
    (Res.ok a s).mapState g = .ok a (g s) := rfl

@[simp] theorem Res.mapState_raise {α : Type} (g : State → State) (c : Cause) (i0 i1 : Word) (s : State) :
    (Res.raise c i0 i1 s : Res α).mapState g = .raise c i0 i1 (g s) := rfl

/-! ## Streams -/

/-- Everything `SrcNext(k)` can do (R66). -/
theorem srcNext_cases (k : Nat) (s : State) :
    (s.src.length < s.srcPos.toNat + k ∧
      srcNext k s = .raise .endOfInput s.srcPos (wordOfNat (s.srcPos.toNat + k - s.src.length)) s) ∨
    (s.srcPos.toNat + k ≤ s.src.length ∧ posMax < s.srcPos.toNat + k ∧ srcNext k s = .raise .overflow 0x23 0 s) ∨
    (s.srcPos.toNat + k ≤ s.src.length ∧ s.srcPos.toNat + k ≤ posMax ∧
      srcNext k s = .ok ((s.src.drop s.srcPos.toNat).take k) (s.withSrcPos (wordOfNat (s.srcPos.toNat + k)))) := by
  unfold srcNext
  split
  · next h => exact .inl ⟨h, rfl⟩
  · next h =>
    split
    · next h' => exact .inr (.inl ⟨by omega, h', rfl⟩)
    · next h' => exact .inr (.inr ⟨by omega, by omega, rfl⟩)

theorem wordOfNat_toNat {n : Nat} (h : n ≤ posMax) : (wordOfNat n).toNat = n := by
  simp only [wordOfNat, BitVec.toNat_ofNat]
  exact Nat.mod_eq_of_lt (by unfold posMax at h; omega)

@[simp] theorem wordOfNat_toNat_word (w : Word) : wordOfNat w.toNat = w := by simp [wordOfNat]

/-! ## The drain -/

/-- The drain does not change what the window has produced (R67). -/
@[simp] theorem drainBy_out (k : Nat) (s : State) : (drainBy k s).out = s.out := by
  simp [drainBy, State.out, State.withSink, State.withSw]

theorem settle_pend (s : State) : (settle s).sw.pend.length ≤ s.par.swbuf := by
  simp only [settle, drainBy, State.withSw_sw, List.length_drop]
  omega

theorem settle_of_le {s : State} (h : s.sw.pend.length ≤ s.par.swbuf) : settle s = s := by
  have : s.sw.pend.length - s.par.swbuf = 0 := by omega
  simp [settle, drainBy, this, State.withSink, State.withSw]

@[simp] theorem settle_out (s : State) : (settle s).out = s.out := drainBy_out _ _

/-- Everything the free drain can do (R172): it moves some of the pending bytes, oldest first. -/
theorem freeDrain_cases (s : State) :
    (s.sw.pend = [] ∧ freeDrain s = s) ∨
    ∃ k, freeDrain s = { drainBy k s with drainTick := s.drainTick + 1 } := by
  unfold freeDrain
  split
  · next h => exact .inl ⟨h, rfl⟩
  · exact .inr ⟨_, rfl⟩

@[simp] theorem freeDrain_out (s : State) : (freeDrain s).out = s.out := by
  rcases freeDrain_cases s with ⟨-, h⟩ | ⟨k, h⟩
  · rw [h]
  · rw [h]; exact drainBy_out k s

/-! ## Host actions and steps -/

theorem step_waits {s : State} (h : s.host = []) : step s = .next (freeDrain s) := by simp [step, cycle, h]

theorem step_acts {s : State} {a : HostAct} {rest : List HostAct} (h : s.host = a :: rest) :
    step s = drainAfter (hostAct a (freeDrain (s.withHost rest))) := by simp [step, cycle, h]

theorem issue_ok {c : Cmd} {i : Instr} (h : decode c = .ok i) (s : State) : issue c s = exec i s := by
  simp [issue, h]

theorem issue_rejected {c : Cmd} {r : Reject} (h : decode c = .rejected r) (s : State) :
    issue c s = .next (illFormed c s) := by simp [issue, h]

end Sys2Proof.Machine
end

