-- ==== Sys2Proof/Laws/FlagWriter.lean ====
section
/-! SUPPORT. One lemma per primitive of the flag writer: everything `emit_group`, `put_bit` and the flush can do. -/

namespace Sys2Proof.Machine

/-- R196, R201: the payload goes to DST. -/
theorem flushAux_eq (s : State) : flushAux s = { s with fw := { s.fw with aux := [] }, dst := s.dst ++ s.fw.aux } := rfl

/-- R196: the unit's bytes, then the payload. -/
theorem emitGroup_eq (s : State) :
    emitGroup s = { s with
      fw := { s.fw with acc := 0, cnt := 0, aux := [] }
      dst := s.dst ++ unitBytes s.fw.cfg.le s.fw.cfg.unit.bytes s.fw.acc ++ s.fw.aux } := rfl

/-- The accumulator after one more flag bit (R198). -/
def accWith (b : Bool) (f : Fw) : Word := if b then setFlagBit f.cfg f.acc f.cnt else f.acc

/-- R198: a bit that does not fill the unit. -/
theorem putBit_room {b : Bool} {s : State} (h : s.fw.cnt + 1 ≠ s.fw.cfg.bits) :
    putBit b s = { s with fw := { s.fw with acc := accWith b s.fw, cnt := s.fw.cnt + 1 } } := by
  unfold putBit
  exact if_neg h

/-- R198: the bit that fills the unit. -/
theorem putBit_fills {b : Bool} {s : State} (h : s.fw.cnt + 1 = s.fw.cfg.bits) :
    putBit b s = { s with
      fw := { s.fw with acc := 0, cnt := 0, aux := [] }
      dst := s.dst ++ unitBytes s.fw.cfg.le s.fw.cfg.unit.bytes (accWith b s.fw) ++ s.fw.aux } := by
  unfold putBit
  exact (if_pos h).trans (emitGroup_eq _)

theorem putBits_append (l1 l2 : List Bool) (s : State) : putBits (l1 ++ l2) s = putBits l2 (putBits l1 s) := by
  induction l1 generalizing s with
  | nil => rfl
  | cons b l ih => exact ih (putBit b s)

/-- What the writer does depends on FW and DST only. -/
theorem putBits_congr (bits : List Bool) {s t : State} (hw : s.fw = t.fw) (hd : s.dst = t.dst) :
    (putBits bits s).fw = (putBits bits t).fw ∧ (putBits bits s).dst = (putBits bits t).dst := by
  induction bits generalizing s t with
  | nil => exact ⟨hw, hd⟩
  | cons b bits ih =>
    have h : (putBit b s).fw = (putBit b t).fw ∧ (putBit b s).dst = (putBit b t).dst := by
      by_cases h : s.fw.cnt + 1 = s.fw.cfg.bits
      · rw [putBit_fills h, putBit_fills (hw ▸ h)]; simp [hw, hd]
      · rw [putBit_room h, putBit_room (hw ▸ h)]; simp [hw, hd]
    exact ih h.1 h.2

/-! ## Units and their bytes (R69) -/

@[simp] theorem length_bytesLE (v : Word) (u : Nat) : (bytesLE v u).length = u := by
  induction u generalizing v with
  | zero => rfl
  | succ u ih => simp [bytesLE, ih]

@[simp] theorem length_unitBytes (le : Bool) (u : Nat) (v : Word) : (unitBytes le u v).length = u := by
  cases le <;> simp [unitBytes]

theorem getElem?_bytesLE (v : Word) (u j : Nat) :
    (bytesLE v u)[j]? = if j < u then some (v.extractLsb' (8 * j) 8) else none := by
  induction u generalizing v j with
  | zero => simp [bytesLE]
  | succ u ih =>
    cases j with
    | zero => simp [bytesLE]
    | succ j =>
      rw [bytesLE, List.getElem?_cons_succ, ih]
      have h : (v >>> 8).extractLsb' (8 * j) 8 = v.extractLsb' (8 * (j + 1)) 8 := by
        ext i hi
        simp [Nat.mul_add, Nat.add_comm, Nat.add_left_comm]
      simp [h]

/-- Which bits of the value each byte of a unit holds, in either byte order (R69). -/
theorem unitBytes_eq (le : Bool) (u : Nat) (v : Word) :
    unitBytes le u v = (List.range u).map fun j => v.extractLsb' (8 * (if le then j else u - 1 - j)) 8 := by
  apply List.ext_getElem?
  intro j
  rw [List.getElem?_map]
  by_cases hj : j < u
  · cases le
    · rw [unitBytes, if_neg (by simp), List.getElem?_reverse (by simpa using hj), getElem?_bytesLE]
      simp [hj, show u - 1 - j < u by omega]
    · rw [unitBytes, if_pos rfl, getElem?_bytesLE]
      simp [hj]
  · rw [List.getElem?_eq_none (by simpa using hj)]
    simp [Nat.le_of_not_lt hj]

theorem valueLE_bytesLE (v : Word) (u : Nat) : valueLE (bytesLE v u) = v.toNat % 256 ^ u := by
  induction u generalizing v with
  | zero => simp [bytesLE, valueLE, Nat.mod_one]
  | succ u ih =>
    have h0 : (v.extractLsb' 0 8).toNat = v.toNat % 256 := by simp [BitVec.extractLsb'_toNat]
    have h1 : (v >>> 8).toNat = v.toNat / 256 := by simp [Nat.shiftRight_eq_div_pow]
    rw [bytesLE, valueLE, ih, h0, h1, show 256 ^ (u + 1) = 256 * 256 ^ u by rw [Nat.pow_succ, Nat.mul_comm], Nat.mod_mul]

/-- Reading a unit's bytes back gives the bits of the value that the unit holds, in either byte order. -/
theorem unitValue_unitBytes (le : Bool) (u : Nat) (v : Word) : unitValue le (unitBytes le u v) = v.toNat % 256 ^ u := by
  cases le <;> simp [unitValue, unitBytes, valueLE_bytesLE]

/-- A sequence of bytes is worth less than 256 to the power of its length. -/
theorem valueLE_lt (bs : List Byte) : valueLE bs < 256 ^ bs.length := by
  induction bs with
  | nil => simp [valueLE]
  | cons b bs ih =>
    have := b.isLt
    simp only [valueLE, List.length_cons, Nat.pow_succ]
    omega

theorem unitValue_lt (le : Bool) (bs : List Byte) : unitValue le bs < 256 ^ bs.length := by
  cases le
  · simpa [unitValue] using valueLE_lt bs.reverse
  · simpa [unitValue] using valueLE_lt bs

/-- A unit has at least one flag bit. -/
theorem FlagCfg.bits_pos (c : FlagCfg) : 0 < c.bits := by
  unfold FlagCfg.bits
  cases c.unit <;> decide

/-- A unit fits a word. -/
theorem FlagCfg.bits_le (c : FlagCfg) : c.bits ≤ 32 := by
  unfold FlagCfg.bits
  cases c.unit <;> decide

theorem FlagCfg.bits_eq (c : FlagCfg) : c.bits = 8 * c.unit.bytes := rfl

/-- Different flag bits of a group stand in different places (R69). -/
theorem FlagCfg.place_inj (c : FlagCfg) {j k : Nat} (hj : j < c.bits) (hk : k < c.bits) (h : c.place j = c.place k) :
    j = k := by
  unfold FlagCfg.place at h
  split at h <;> omega

theorem FlagCfg.place_lt (c : FlagCfg) {k : Nat} (hk : k < c.bits) : c.place k < c.bits := by
  unfold FlagCfg.place
  split <;> omega

end Sys2Proof.Machine
end

