-- ==== Sys2Proof/Laws/FlagReader.lean ====
section
/-! SUPPORT. One lemma per primitive of the flag reader, in terms of the flag bits the source still holds. -/

namespace Sys2Proof.Machine

/-! ## Units and their flag bits -/

@[simp] theorem length_unitFlags (c : FlagCfg) (v : Word) : (unitFlags c v).length = c.bits := by simp [unitFlags]

theorem getElem?_unitFlags (c : FlagCfg) (v : Word) {k : Nat} (h : k < c.bits) :
    (unitFlags c v)[k]? = some (v.getLsbD (c.place k)) := by simp [unitFlags, h]

theorem UnitSize.bytes_pos (u : UnitSize) : 0 < u.bytes := by cases u <;> decide

/-- No whole unit is left. -/
theorem wholeUnits_short {u : Nat} {bytes : List Byte} (h : bytes.length < u) : wholeUnits u bytes = [] := by
  simp [wholeUnits, Nat.div_eq_of_lt h]

/-- The first whole unit, then the others. -/
theorem wholeUnits_step {u : Nat} {bytes : List Byte} (hu : 0 < u) (h : u ≤ bytes.length) :
    wholeUnits u bytes = bytes.take u :: wholeUnits u (bytes.drop u) := by
  have hd : bytes.length / u = (bytes.length - u) / u + 1 := by
    rw [← Nat.add_div_right _ hu, Nat.sub_add_cancel h]
  simp only [wholeUnits, List.length_drop, hd, List.range_succ_eq_map, List.map_cons, List.map_map]
  congr 1
  · simp
  · apply List.map_congr_left
    intro j _
    simp [List.drop_drop, Nat.add_mul, Nat.add_comm]

/-! ## next_bit (R181, R182) -/

/-- The bit handed out is the first of those left of the unit (R182, R69). -/
theorem topBit_eq {f : Fr} (h : 0 < f.left) (hb : f.left ≤ f.cfg.bits) :
    f.topBit = f.acc.getLsbD (f.cfg.place (f.cfg.bits - f.left)) := by
  unfold Fr.topBit FlagCfg.place
  split
  · rfl
  · rw [show f.cfg.bits - 1 - (f.cfg.bits - f.left) = f.left - 1 by omega]

theorem drop_unitFlags {f : Fr} (h : 0 < f.left) (hb : f.left ≤ f.cfg.bits) :
    (unitFlags f.cfg f.acc).drop (f.cfg.bits - f.left) =
      f.topBit :: (unitFlags f.cfg f.acc).drop (f.cfg.bits - (f.left - 1)) := by
  have hlt : f.cfg.bits - f.left < (unitFlags f.cfg f.acc).length := by simp; omega
  rw [List.drop_eq_getElem_cons hlt, show f.cfg.bits - f.left + 1 = f.cfg.bits - (f.left - 1) by omega]
  congr 1
  have := getElem?_unitFlags f.cfg f.acc (k := f.cfg.bits - f.left) (by omega)
  rw [List.getElem?_eq_getElem hlt] at this
  rw [topBit_eq h hb]
  exact Option.some.inj this

/-- The state after a bit is handed out (R182). -/
def taken (s : State) : State := s.withFr { s.fr with left := s.fr.left - 1 }

/-- Taking a bit of a unit that has one. -/
theorem takeBit_stream {s : State} (h : 0 < s.fr.left) (hb : s.fr.left ≤ s.fr.cfg.bits) :
    flagStream s = s.fr.topBit :: flagStream (taken s) := by
  simp only [flagStream, drop_unitFlags h hb, List.cons_append]
  rfl

/-- The state after a refill (R181). -/
def refilled (s : State) : State :=
  { s with
    srcPos := wordOfNat (s.srcPos.toNat + s.fr.cfg.unit.bytes)
    fr := { s.fr with
      acc := wordOfNat (unitValue s.fr.cfg.le ((s.src.drop s.srcPos.toNat).take s.fr.cfg.unit.bytes))
      left := s.fr.cfg.bits } }

theorem refill_ok {s : State} (h : s.srcPos.toNat + s.fr.cfg.unit.bytes ≤ s.src.length)
    (hl : s.srcPos.toNat + s.fr.cfg.unit.bytes ≤ posMax) : refill s = .ok () (refilled s) := by
  rcases srcNext_cases s.fr.cfg.unit.bytes s with ⟨h', e⟩ | ⟨_, h', e⟩ | ⟨_, _, e⟩
  · omega
  · omega
  · rw [refill, e]; rfl

theorem refill_overflow {s : State} (h : s.srcPos.toNat + s.fr.cfg.unit.bytes ≤ s.src.length)
    (hl : posMax < s.srcPos.toNat + s.fr.cfg.unit.bytes) : refill s = .raise .overflow 0x23 0 s := by
  rcases srcNext_cases s.fr.cfg.unit.bytes s with ⟨h', e⟩ | ⟨_, h', e⟩ | ⟨_, _, e⟩
  · omega
  · rw [refill, e]; rfl
  · omega

theorem refill_raise {s : State} (h : s.src.length < s.srcPos.toNat + s.fr.cfg.unit.bytes) :
    refill s = .raise .endOfInput s.srcPos (wordOfNat (s.srcPos.toNat + s.fr.cfg.unit.bytes - s.src.length)) s := by
  rcases srcNext_cases s.fr.cfg.unit.bytes s with ⟨h', e⟩ | ⟨_, h', e⟩ | ⟨_, _, e⟩
  · rw [refill, e]; rfl
  · omega
  · omega

theorem refilled_stream {s : State} (h0 : s.fr.left = 0)
    (h : s.srcPos.toNat + s.fr.cfg.unit.bytes ≤ s.src.length) (hl : s.srcPos.toNat + s.fr.cfg.unit.bytes ≤ posMax) :
    flagStream (refilled s) = flagStream s := by
  have hp : (refilled s).srcPos.toNat = s.srcPos.toNat + s.fr.cfg.unit.bytes := wordOfNat_toNat hl
  have hstep := wholeUnits_step (bytes := s.src.drop s.srcPos.toNat) s.fr.cfg.unit.bytes_pos (by simp; omega)
  rw [List.drop_drop] at hstep
  simp only [flagStream, h0, Nat.sub_zero, hstep, List.flatMap_cons, hp]
  rw [List.drop_of_length_le (l := unitFlags s.fr.cfg s.fr.acc) (by simp), List.nil_append]
  congr 1
  show List.drop (s.fr.cfg.bits - s.fr.cfg.bits) (unitFlags s.fr.cfg _) = _
  rw [Nat.sub_self]; rfl

/-- With fewer bytes than a unit and no bit left, the stream is at its end. -/
theorem flagStream_end {s : State} (h0 : s.fr.left = 0) (h : s.src.length < s.srcPos.toNat + s.fr.cfg.unit.bytes) :
    flagStream s = [] := by
  simp only [flagStream, h0, Nat.sub_zero]
  rw [wholeUnits_short (by have := s.fr.cfg.unit.bytes_pos; simp; omega), List.drop_of_length_le (by simp)]
  rfl

/-- `t` is `s` after `m` flag bits have been taken: they came from the stream, and `q` units have been fetched for them, as
few as hold them (R181, R182, R188). -/
structure BitsTaken (m q : Nat) (s t : State) : Prop where
  stream : flagStream t = (flagStream s).drop m
  enough : m ≤ (flagStream s).length
  frame : t = { s with fr := t.fr, srcPos := t.srcPos }
  active : t.fr.active = s.fr.active
  cfg : t.fr.cfg = s.fr.cfg
  room : t.fr.left ≤ t.fr.cfg.bits
  bits : t.fr.left + m = s.fr.left + q * s.fr.cfg.bits
  lazy : q = 0 ∨ t.fr.left < s.fr.cfg.bits
  cursor : t.srcPos.toNat = s.srcPos.toNat + q * s.fr.cfg.unit.bytes
  inside : s.srcPos.toNat ≤ s.src.length → t.srcPos.toNat ≤ s.src.length

theorem BitsTaken.refl {s : State} (h : s.fr.left ≤ s.fr.cfg.bits) : BitsTaken 0 0 s s :=
  ⟨rfl, Nat.zero_le _, rfl, rfl, rfl, h, by simp, .inl rfl, by simp, id⟩

/-- Everything next_bit can do (R182, R66): it hands out the first bit of the stream, fetching a unit exactly when none is
left; or that unit is not there, or SRC.pos cannot pass it, and nothing is consumed. -/
theorem nextBit_spec {s : State} (hb : s.fr.left ≤ s.fr.cfg.bits) :
    (∃ b u, nextBit s = .ok b u ∧ flagStream s = b :: flagStream u ∧
      BitsTaken 1 (if s.fr.left = 0 then 1 else 0) s u) ∨
    (s.fr.left = 0 ∧ s.src.length < s.srcPos.toNat + s.fr.cfg.unit.bytes ∧ nextBit s =
      .raise .endOfInput s.srcPos (wordOfNat (s.srcPos.toNat + s.fr.cfg.unit.bytes - s.src.length)) s) ∨
    (s.fr.left = 0 ∧ s.srcPos.toNat + s.fr.cfg.unit.bytes ≤ s.src.length ∧
      posMax < s.srcPos.toNat + s.fr.cfg.unit.bytes ∧ nextBit s = .raise .overflow 0x23 0 s) := by
  have taken_of : ∀ {b : Bool} {u : State}, flagStream s = b :: flagStream u →
      flagStream u = (flagStream s).drop 1 ∧ 1 ≤ (flagStream s).length := by
    intro b u h
    rw [h]
    exact ⟨rfl, Nat.succ_le_succ (Nat.zero_le _)⟩
  rcases Nat.eq_zero_or_pos s.fr.left with h0 | hpos
  · rcases Nat.lt_or_ge s.src.length (s.srcPos.toNat + s.fr.cfg.unit.bytes) with h | h
    · exact .inr (.inl ⟨h0, h, by rw [nextBit, if_pos h0, refill_raise h, Res.bind_raise]⟩)
    rcases Nat.lt_or_ge posMax (s.srcPos.toNat + s.fr.cfg.unit.bytes) with hl | hl
    · exact .inr (.inr ⟨h0, h, hl, by rw [nextBit, if_pos h0, refill_overflow h hl, Res.bind_raise]⟩)
    have hp : (refilled s).srcPos.toNat = s.srcPos.toNat + s.fr.cfg.unit.bytes := wordOfNat_toNat hl
    have hbp : 0 < s.fr.cfg.bits := s.fr.cfg.bits_pos
    have hs : flagStream s = (refilled s).fr.topBit :: flagStream (taken (refilled s)) := by
      rw [← refilled_stream h0 h hl]
      exact takeBit_stream (s := refilled s) hbp (Nat.le_refl _)
    refine .inl ⟨_, taken (refilled s), ?_, hs, ?_⟩
    · rw [nextBit, if_pos h0, refill_ok h hl, Res.bind_ok]; rfl
    · have hleft : (taken (refilled s)).fr.left = s.fr.cfg.bits - 1 := rfl
      rw [if_pos h0]
      refine ⟨(taken_of hs).1, (taken_of hs).2, rfl, rfl, rfl, Nat.sub_le _ _, ?_, .inr ?_, ?_, fun _ => ?_⟩
      · rw [hleft]; omega
      · rw [hleft]; omega
      · rw [Nat.one_mul]; exact hp
      · exact Nat.le_trans (Nat.le_of_eq hp) h
  · have hs := takeBit_stream hpos hb
    refine .inl ⟨s.fr.topBit, taken s, ?_, hs, ?_⟩
    · rw [nextBit, if_neg (by omega)]; rfl
    · have hleft : (taken s).fr.left = s.fr.left - 1 := rfl
      rw [if_neg (by omega)]
      refine ⟨(taken_of hs).1, (taken_of hs).2, rfl, rfl, rfl, ?_, ?_, .inl rfl, ?_, id⟩
      · exact Nat.le_trans (Nat.sub_le _ _) hb
      · rw [hleft]; omega
      · rw [Nat.zero_mul]; rfl

theorem BitsTaken.trans {m1 m2 q1 q2 : Nat} {s t u : State} (h1 : BitsTaken m1 q1 s t) (h2 : BitsTaken m2 q2 t u) :
    BitsTaken (m1 + m2) (q1 + q2) s u where
  stream := by rw [h2.stream, h1.stream, List.drop_drop]
  enough := by
    have := h2.enough
    rw [h1.stream, List.length_drop] at this
    have := h1.enough
    omega
  frame := by rw [h2.frame, h1.frame]
  active := h2.active.trans h1.active
  cfg := h2.cfg.trans h1.cfg
  room := h2.room
  bits := by
    have a := h1.bits
    have b := h2.bits
    rw [h1.cfg] at b
    rw [Nat.add_mul]
    omega
  lazy := by
    have a := h1.lazy
    have b := h2.bits
    have c := h2.lazy
    rw [h1.cfg] at b c
    rcases c with c | c
    · rcases a with a | a
      · exact .inl (by omega)
      · subst c
        exact .inr (by omega)
    · exact .inr c
  cursor := by
    have b := h2.cursor
    rw [h1.cfg] at b
    rw [b, h1.cursor, Nat.add_mul]
    omega
  inside := by
    intro h
    have b := h2.inside
    rw [show t.src = s.src by rw [h1.frame]] at b
    exact b (h1.inside h)

/-- As few units as hold the bits: the number that R188 (a) gives. -/
theorem BitsTaken.units {m q : Nat} {s t : State} (h : BitsTaken m q s t) :
    q = (m - s.fr.left + s.fr.cfg.bits - 1) / s.fr.cfg.bits := by
  have hb := s.fr.cfg.bits_pos
  have e := h.bits
  symm
  rcases h.lazy with rfl | hl
  · exact Nat.div_eq_of_lt (by omega)
  · rcases Nat.eq_zero_or_pos q with rfl | hq
    · exact Nat.div_eq_of_lt (by omega)
    · obtain ⟨q, rfl⟩ := Nat.exists_eq_add_of_le' hq
      rw [Nat.add_mul] at e
      rw [Nat.div_eq_iff hb, Nat.add_mul]
      omega

/-- The value that the loop of R185 composes from the flag bits it takes, `i` having been taken for `v`. -/
def composedFrom (lsbf : Bool) (i v : Nat) (bits : List Bool) : Nat :=
  if lsbf then v + 2 ^ i * composeInt true bits else bits.foldl (fun v b => 2 * v + b.toNat) v

theorem composedFrom_cons (lsbf : Bool) (i v : Nat) (b : Bool) (bits : List Bool) :
    composedFrom lsbf i v (b :: bits) = composedFrom lsbf (i + 1) (composeBit lsbf i v b) bits := by
  cases lsbf
  · rfl
  · simp [composedFrom, composeBit, composeInt, Nat.pow_succ]
    ring

theorem composedFrom_start (lsbf : Bool) (bits : List Bool) : composedFrom lsbf 0 0 bits = composeInt lsbf bits := by
  cases lsbf <;> simp [composedFrom, composeInt]

/-- Everything the loop of R185 can do: it takes `k` bits of the stream, or stops at the first refill that fails, with the
bits before it taken and nothing more consumed. -/
theorem readInt_spec (lsbf : Bool) (k i v : Nat) {s : State} (hb : s.fr.left ≤ s.fr.cfg.bits) :
    ∃ m q u, BitsTaken m q s u ∧
      ((m = k ∧ readInt lsbf k i v s = .ok (composedFrom lsbf i v ((flagStream s).take k)) u) ∨
       (m < k ∧ u.fr.left = 0 ∧ s.src.length < u.srcPos.toNat + s.fr.cfg.unit.bytes ∧ readInt lsbf k i v s =
         .raise .endOfInput u.srcPos (wordOfNat (u.srcPos.toNat + s.fr.cfg.unit.bytes - s.src.length)) u) ∨
       (m < k ∧ u.fr.left = 0 ∧ u.srcPos.toNat + s.fr.cfg.unit.bytes ≤ s.src.length ∧
         posMax < u.srcPos.toNat + s.fr.cfg.unit.bytes ∧ readInt lsbf k i v s = .raise .overflow 0x23 0 u)) := by
  induction k generalizing i v s with
  | zero => exact ⟨0, 0, s, .refl hb, .inl ⟨rfl, by cases lsbf <;> simp [readInt, composedFrom, composeInt]⟩⟩
  | succ k ih =>
    rcases nextBit_spec hb with ⟨b, t, e, hs, ht⟩ | ⟨h0, h, e⟩ | ⟨h0, h, hl, e⟩
    · obtain ⟨m, q, u, hu, h⟩ := ih (i + 1) (composeBit lsbf i v b) ht.room
      have hsrc : t.src = s.src := by rw [ht.frame]
      rw [ht.cfg, hsrc] at h
      refine ⟨1 + m, _, u, ht.trans hu, ?_⟩
      rw [readInt, e, Res.bind_ok, hs, List.take_succ_cons, composedFrom_cons]
      rcases h with ⟨h, e'⟩ | ⟨h, e'⟩ | ⟨h, e'⟩
      · exact .inl ⟨by omega, e'⟩
      · exact .inr (.inl ⟨by omega, e'⟩)
      · exact .inr (.inr ⟨by omega, e'⟩)
    · exact ⟨0, 0, s, .refl hb, .inr (.inl ⟨by omega, h0, h, by rw [readInt, e]; rfl⟩)⟩
    · exact ⟨0, 0, s, .refl hb, .inr (.inr ⟨by omega, h0, h, hl, by rw [readInt, e]; rfl⟩)⟩

end Sys2Proof.Machine
end

