-- ==== Sys2Proof/Laws/Window.lean ====
section
/-! SUPPORT. One lemma per primitive of the sliding window: everything `put`, the copy loops and the drain can do. -/

namespace Sys2Proof.Machine

/-! ## The drain -/

/-- The drain moves bytes from the queue to SINK and changes nothing else (R172). -/
theorem drainBy_frame (k : Nat) (s : State) :
    drainBy k s = { s with sink := (drainBy k s).sink, sw := { s.sw with pend := (drainBy k s).sw.pend } } := rfl

theorem settle_frame (s : State) :
    settle s = { s with sink := (settle s).sink, sw := { s.sw with pend := (settle s).sw.pend } } := rfl

/-- SINK only grows by the drain (R67). -/
theorem drainBy_sink (k : Nat) (s : State) : s.sink <+: (drainBy k s).sink := by
  simp [drainBy, State.withSink, State.withSw]

/-! ## put (R161) -/

/-- The state `put` leaves: the byte in its slot and in the queue, the counter one higher. -/
def putState (b : Byte) (s : State) : State :=
  { s with sw := { s.sw with
      ring := s.sw.ring.write s.sw.writeSlot b
      pend := s.sw.pend ++ [b]
      produced := s.sw.produced + 1 } }

theorem put_ok {b : Byte} {s : State} (h : s.sw.produced.toNat < posMax) : put b s = .ok () (putState b s) := by
  unfold put
  rw [if_neg (not_not_intro h)]
  rfl

theorem put_overflow {b : Byte} {s : State} (h : posMax ≤ s.sw.produced.toNat) :
    put b s = .raise .overflow 0x22 0 s := by
  simp [put, h, csrSwProduced]

@[simp] theorem putState_out (b : Byte) (s : State) : (putState b s).out = s.out ++ [b] := by
  simp [putState, State.out]

theorem putState_produced {b : Byte} {s : State} (h : s.sw.produced.toNat < posMax) :
    (putState b s).sw.produced.toNat = s.sw.produced.toNat + 1 := by
  have h1 : (1 : Word).toNat = 1 := rfl
  simp only [putState, BitVec.toNat_add, h1]
  simp only [posMax] at h
  omega

/-! ## The ring holds the last bytes produced (R43, R169) -/

/-- The part of the window's invariant that does not speak of the drain. -/
structure RingInv (s : State) : Prop where
  ringWf : s.sw.ring.wf
  sizePos : 1 ≤ s.sw.winSize.toNat
  producedOut : s.sw.produced.toNat ≤ s.out.length
  ringTail : ∀ d, 1 ≤ d → d ≤ s.sw.winSize.toNat → d ≤ s.sw.produced.toNat →
    s.sw.ring.read (s.sw.readSlot d) = s.out[s.out.length - d]?
  ringExact : ∀ i, (s.sw.ring.read i).isSome = true →
    ∃ d, 1 ≤ d ∧ d ≤ s.sw.winSize.toNat ∧ d ≤ s.sw.produced.toNat ∧ i = s.sw.readSlot d

theorem WindowInv.ringInv {s : State} (h : WindowInv s) (ha : s.sw.active = true) : RingInv s :=
  ⟨h.ringWf, (h.sizeLegal ha).1, h.producedOut, h.ringTail ha, h.ringExact ha⟩

/-- Two slots less than a window apart differ. -/
theorem slot_ne {w a d : Nat} (h1 : 1 ≤ d) (h2 : d < w) (h3 : d ≤ a) : (a - d) % w ≠ a % w := by
  intro h
  have h4 : w ∣ a - (a - d) := (Nat.modEq_iff_dvd' (Nat.sub_le a d)).mp h
  rw [Nat.sub_sub_self h3] at h4
  exact absurd (Nat.le_of_dvd h1 h4) (by omega)

/-- Writing one byte keeps the ring's invariant. -/
theorem RingInv.put {s : State} (h : RingInv s) (hp : s.sw.produced.toNat < posMax) (b : Byte) :
    RingInv (putState b s) := by
  have hprod := putState_produced (b := b) hp
  have hslot : ∀ d, (putState b s).sw.readSlot (d + 1) = s.sw.readSlot d := by
    intro d
    simp only [Sw.readSlot, hprod]
    show (s.sw.winStart.toNat + (s.sw.produced.toNat + 1) - (d + 1)) % s.sw.winSize.toNat = _
    rw [show s.sw.winStart.toNat + (s.sw.produced.toNat + 1) - (d + 1) =
      s.sw.winStart.toNat + s.sw.produced.toNat - d by omega]
  have hzero : s.sw.readSlot 0 = s.sw.writeSlot := rfl
  have hread : ∀ i, (putState b s).sw.ring.read i = if i = s.sw.writeSlot then some b else s.sw.ring.read i :=
    fun i => Memory.read_write _ _ _ _
  have hlen : (putState b s).out.length = s.out.length + 1 := by simp
  refine ⟨Memory.write_wf h.ringWf _ _, h.sizePos, ?_, ?_, ?_⟩
  · rw [hprod, hlen]; exact Nat.succ_le_succ h.producedOut
  · intro d h1 h2 h3
    obtain ⟨d, rfl⟩ := Nat.exists_eq_add_of_le' h1
    rw [hprod] at h3
    replace h2 : d + 1 ≤ s.sw.winSize.toNat := h2
    rw [hslot, hread, hlen, putState_out]
    rcases Nat.eq_zero_or_pos d with rfl | hd
    · rw [hzero, if_pos rfl]; simp
    · have hne : s.sw.readSlot d ≠ s.sw.writeSlot := slot_ne hd (by omega) (by omega)
      have := h.producedOut
      rw [if_neg hne, h.ringTail d hd (by omega) (by omega), List.getElem?_append_left (by omega)]
      rw [show s.out.length + 1 - (d + 1) = s.out.length - d by omega]
  · intro i hi
    rw [hread] at hi
    show ∃ d, 1 ≤ d ∧ d ≤ s.sw.winSize.toNat ∧ _
    rw [hprod]
    split at hi
    · next he => exact ⟨1, Nat.le_refl 1, h.sizePos, by omega, by rw [he, ← hzero, ← hslot 0]⟩
    · next hne =>
      obtain ⟨d, h1, h2, h3, rfl⟩ := h.ringExact i hi
      refine ⟨d + 1, by omega, ?_, by omega, (hslot d).symm⟩
      rcases Nat.lt_or_eq_of_le h2 with hlt | heq
      · exact hlt
      · exfalso
        apply hne
        rw [← hzero]
        simp only [Sw.readSlot, Nat.sub_zero]
        rw [heq]
        exact (Nat.mod_eq_sub_mod (by omega)).symm

/-! ## Producing several bytes -/

/-- What producing bytes changes: ring, counter and queue (R161); SRC.pos is left open (R166). -/
structure Produces (bytes : List Byte) (s t : State) : Prop where
  frame : WindowFrame s t
  flt : t.flt = s.flt
  resp : t.resp = s.resp
  cmdcnt : t.cmdcnt = s.cmdcnt
  sink : t.sink = s.sink
  out : t.out = s.out ++ bytes
  produced : t.sw.produced.toNat = s.sw.produced.toNat + bytes.length
  ring : RingFrame bytes.length s t

theorem Produces.refl (s : State) : Produces [] s s := by
  refine ⟨?_, rfl, rfl, rfl, rfl, by simp, rfl, fun _ _ => rfl⟩
  constructor <;> rfl

theorem Produces.trans {l1 l2 : List Byte} {s t u : State} (h1 : Produces l1 s t) (h2 : Produces l2 t u) :
    Produces (l1 ++ l2) s u where
  frame := by
    have a := h1.frame
    have b := h2.frame
    exact ⟨b.par.trans a.par, b.host.trans a.host, b.srcNext.trans a.srcNext, b.inbuf.trans a.inbuf,
      b.drainTick.trans a.drainTick, b.csr.trans a.csr, b.mf.trans a.mf, b.fr.trans a.fr, b.fw.trans a.fw,
      b.src.trans a.src, b.dst.trans a.dst, b.active.trans a.active, b.winSize.trans a.winSize,
      b.winStart.trans a.winStart⟩
  flt := h2.flt.trans h1.flt
  resp := h2.resp.trans h1.resp
  cmdcnt := h2.cmdcnt.trans h1.cmdcnt
  sink := h2.sink.trans h1.sink
  out := by rw [h2.out, h1.out, List.append_assoc]
  produced := by rw [h2.produced, h1.produced, List.length_append]; omega
  ring := by
    intro i hi
    rw [List.length_append] at hi
    rw [h2.ring i, h1.ring i]
    · exact fun j hj => hi j (by omega)
    · intro j hj
      rw [h1.frame.winStart, h1.frame.winSize, h1.produced, ← Nat.add_assoc, Nat.add_assoc _ _ j]
      exact hi (l1.length + j) (by omega)

theorem Produces.put {s : State} (h : s.sw.produced.toNat < posMax) (b : Byte) : Produces [b] s (putState b s) where
  frame := by constructor <;> rfl
  flt := rfl
  resp := rfl
  cmdcnt := rfl
  sink := rfl
  out := putState_out b s
  produced := putState_produced h
  ring := by
    intro i hi
    exact Memory.read_write_other _ _ (hi 0 Nat.one_pos)

/-- Everything the copy loop can do (R164, R161): it produces `k` bytes, each, where the ring's invariant holds, the byte `d`
places back at that moment, or it stops with Overflow after the bytes that still fit the counter. -/
theorem copyLoop_spec (d k : Nat) (s : State) :
    ∃ t bytes, Produces bytes s t ∧ t.srcPos = s.srcPos ∧ (RingInv s → RingInv t) ∧
      (RingInv s → 1 ≤ d → d ≤ s.sw.winSize.toNat → d ≤ s.sw.produced.toNat →
        ∀ i, i < bytes.length → t.out[s.out.length + i]? = t.out[s.out.length + i - d]?) ∧
      ((s.sw.produced.toNat + k ≤ posMax ∧ bytes.length = k ∧ copyLoop d k s = .ok () t) ∨
       (posMax < s.sw.produced.toNat + k ∧ s.sw.produced.toNat + bytes.length = posMax ∧
        copyLoop d k s = .raise .overflow 0x22 0 t)) := by
  induction k generalizing s with
  | zero =>
    refine ⟨s, [], Produces.refl s, rfl, id, by simp, .inl ⟨?_, rfl, rfl⟩⟩
    have := s.sw.produced.isLt
    simp only [posMax]; omega
  | succ k ih =>
    rcases Nat.lt_or_ge s.sw.produced.toNat posMax with hp | hp
    · generalize hb : s.sw.ringAt (s.sw.readSlot d) = b
      have hpr := putState_produced (b := b) hp
      obtain ⟨t, bytes, hm, hsrc, hring, hrep, hout⟩ := ih (putState b s)
      have hstep : copyLoop d (k + 1) s = copyLoop d k (putState b s) := by
        rw [copyLoop, hb, put_ok hp, Res.bind_ok]
      have hm' := (Produces.put hp b).trans hm
      have hlen : (putState b s).out.length = s.out.length + 1 := by simp
      refine ⟨t, b :: bytes, hm', hsrc, fun h => hring (h.put hp b), ?_, ?_⟩
      · intro hs h1 h2 h3 i hi
        cases i with
        | zero =>
          have hge := hs.producedOut
          have hr := hs.ringTail d h1 h2 h3
          have hbd : s.out[s.out.length - d]? = some b := by
            rw [List.getElem?_eq_getElem (by omega)] at hr ⊢
            rw [← hb, Sw.ringAt, hr]; rfl
          rw [hm'.out, Nat.add_zero, List.getElem?_append_right (Nat.le_refl _),
            List.getElem?_append_left (show s.out.length - d < s.out.length by omega), hbd]
          simp
        | succ i =>
          have := hrep (hs.put hp b) h1 h2 (by omega) i (by simpa using hi)
          rw [hlen] at this
          rwa [show s.out.length + (i + 1) = s.out.length + 1 + i by omega]
      · rw [hstep]
        rcases hout with ⟨e1, e2, e3⟩ | ⟨e1, e2, e3⟩
        · exact .inl ⟨by omega, by simp [e2], e3⟩
        · exact .inr ⟨by omega, by simp only [List.length_cons]; omega, e3⟩
    · refine ⟨s, [], Produces.refl s, rfl, id, by simp, .inr ⟨by omega, ?_, ?_⟩⟩
      · have := s.sw.produced.isLt
        simp only [posMax] at hp ⊢; simp; omega
      · rw [copyLoop, put_overflow hp, Res.bind_raise]

/-- Everything the loop of SW_COPYFROM can do (R166, R66, R161): it moves `k` bytes, or stops after the bytes that SRC still
has, or after those that still fit the counters. -/
theorem copyFromLoop_spec (k : Nat) {s : State} (hc : s.srcPos.toNat ≤ s.src.length) :
    ∃ t j, j ≤ k ∧ Produces ((s.src.drop s.srcPos.toNat).take j) s t ∧ s.srcPos.toNat + j ≤ s.src.length ∧
      t.srcPos.toNat = s.srcPos.toNat + j ∧ (RingInv s → RingInv t) ∧
      ((j = k ∧ copyFromLoop k s = .ok () t) ∨
       (j < k ∧ s.srcPos.toNat + j = s.src.length ∧ copyFromLoop k s = .raise .endOfInput t.srcPos 1 t) ∨
       (j < k ∧ s.srcPos.toNat + j < s.src.length ∧ posMax < s.srcPos.toNat + j + 1 ∧
        copyFromLoop k s = .raise .overflow 0x23 0 t) ∨
       (j < k ∧ s.sw.produced.toNat + j = posMax ∧ s.srcPos.toNat + j + 1 ≤ s.src.length ∧
        s.srcPos.toNat + j + 1 ≤ posMax ∧
        ∃ u, u = { t with srcPos := wordOfNat (t.srcPos.toNat + 1) } ∧
        copyFromLoop k s = .raise .overflow 0x22 0 u)) := by
  induction k generalizing s with
  | zero => exact ⟨s, 0, Nat.le_refl _, by simpa using Produces.refl s, hc, rfl, id, .inl ⟨rfl, rfl⟩⟩
  | succ k ih =>
    rcases srcNext_cases 1 s with ⟨h, e⟩ | ⟨h, h', e⟩ | ⟨h, h', e⟩
    · refine ⟨s, 0, Nat.zero_le _, by simpa using Produces.refl s, hc, rfl, id, .inr (.inl ⟨by omega, by omega, ?_⟩)⟩
      rw [copyFromLoop, e, Res.bind_raise, show s.srcPos.toNat + 1 - s.src.length = 1 by omega]
      rfl
    · refine ⟨s, 0, Nat.zero_le _, by simpa using Produces.refl s, hc, rfl, id,
        .inr (.inr (.inl ⟨by omega, by omega, by omega, ?_⟩))⟩
      rw [copyFromLoop, e, Res.bind_raise]
    · generalize hs1 : s.withSrcPos (wordOfNat (s.srcPos.toNat + 1)) = s1 at e
      have hsw : s1.sw = s.sw := by rw [← hs1]; rfl
      have hsrc : s1.src = s.src := by rw [← hs1]; rfl
      have hout1 : s1.out = s.out := by rw [← hs1]; rfl
      have hpos : s1.srcPos.toNat = s.srcPos.toNat + 1 := by rw [← hs1]; exact wordOfNat_toNat h'
      have hmove : Produces [] s s1 := by
        rw [← hs1]
        refine ⟨?_, rfl, rfl, rfl, rfl, by simp [State.out], rfl, fun _ _ => rfl⟩
        constructor <;> rfl
      obtain ⟨b, hb⟩ : ∃ b, s.src[s.srcPos.toNat]? = some b := ⟨_, List.getElem?_eq_getElem (by omega)⟩
      have htake : (s.src.drop s.srcPos.toNat).take 1 = [b] := by
        rw [List.take_one, List.head?_drop, hb]; rfl
      rcases Nat.lt_or_ge s.sw.produced.toNat posMax with hp | hp
      · have hp1 : s1.sw.produced.toNat < posMax := by rw [hsw]; exact hp
        obtain ⟨t, j, hj, hm, hle, htp, hri, hend⟩ := ih (s := putState b s1) (by
          show s1.srcPos.toNat ≤ s1.src.length
          rw [hpos, hsrc]; exact h)
        have hpr := putState_produced (b := b) hp1
        rw [hsw] at hpr
        replace hle : s1.srcPos.toNat + j ≤ s1.src.length := hle
        replace htp : t.srcPos.toNat = s1.srcPos.toNat + j := htp
        rw [hpos, hsrc] at hle
        rw [hpos] at htp
        have hm' := (hmove.trans (Produces.put hp1 b)).trans hm
        have hbytes : [] ++ [b] ++ ((putState b s1).src.drop (putState b s1).srcPos.toNat).take j =
            (s.src.drop s.srcPos.toNat).take (j + 1) := by
          show [b] ++ (s1.src.drop s1.srcPos.toNat).take j = _
          rw [hsrc, hpos, Nat.add_comm j 1, List.take_add, htake, List.drop_drop]
        rw [hbytes] at hm'
        have hstep : copyFromLoop (k + 1) s = copyFromLoop k (putState b s1) := by
          rw [copyFromLoop, e, htake, Res.bind_ok, List.headD_cons, put_ok hp1, Res.bind_ok]
        refine ⟨t, j + 1, by omega, hm', by omega, by omega, fun hr => hri (RingInv.put ?_ hp1 b), ?_⟩
        · obtain ⟨a1, a2, a3, a4, a5⟩ := hr
          constructor <;> rw [hsw] <;> (try rw [hout1]) <;> assumption
        · rw [hstep]
          replace hend : _ := hend
          rw [show (putState b s1).srcPos = s1.srcPos from rfl, show (putState b s1).src = s1.src from rfl,
            hpos, hsrc, hpr] at hend
          rcases hend with ⟨e1, e2⟩ | ⟨e1, e2, e3⟩ | ⟨e1, e2, e3, e4⟩ | ⟨e1, e2, e3, e4, e5⟩
          · exact .inl ⟨by omega, e2⟩
          · exact .inr (.inl ⟨by omega, by omega, e3⟩)
          · exact .inr (.inr (.inl ⟨by omega, by omega, by omega, e4⟩))
          · exact .inr (.inr (.inr ⟨by omega, by omega, by omega, by omega, e5⟩))
      · have := s.sw.produced.isLt
        refine ⟨s, 0, Nat.zero_le _, by simpa using Produces.refl s, hc, rfl, id,
          .inr (.inr (.inr ⟨by omega, by simp only [posMax] at hp ⊢; omega, by omega, by omega, s1, ?_, ?_⟩))⟩
        · rw [← hs1]; rfl
        · rw [copyFromLoop, e, Res.bind_ok, put_overflow (by rw [hsw]; exact hp), Res.bind_raise]

end Sys2Proof.Machine
end

