-- ==== Sys2Proof/Laws/Frames.lean ====
section
/-! SUPPORT. What each command can change: every meaning as its body in the frame of R106, and the parts of the state
that the body of each unit leaves alone. -/

namespace Sys2Proof.Machine

/-! ## Every command runs in the frame of R106 -/

/-- The checks and the operation of each command's own rule; RESET has no frame (R106 step 1). -/
def bodyOf : Instr → State → Res Reply
  | .nop => fun s => .ok Reply.zero s
  | .reset => fun s => .ok Reply.zero s
  | .csrw csr value => csrwOp csr value
  | .csrr csr => csrrOp csr
  | .mfInit => mfInitOp
  | .mfFind position => mfFindOp position
  | .mfAdd position => mfAddOp position
  | .mfAddr position count => mfAddrOp position count
  | .mfFindall => mfFindallOp
  | .mfMread entry => mfMreadOp entry
  | .swInit => swInitOp
  | .swWrb byte => swWrbOp byte
  | .swBcopy distance length => swBcopyOp distance length
  | .swOcopy offset length => swOcopyOp offset length
  | .swCopyfrom length => swCopyfromOp length
  | .swDispose check expected => swDisposeOp check expected
  | .frInit => frInitOp
  | .frRbit => frRbitOp
  | .frRint lsbf bits => frRintOp lsbf bits
  | .frReset => frResetOp
  | .srcRb => srcRbOp
  | .fwInit => fwInitOp
  | .fwWbit bit => fwWbitOp bit
  | .fwWint lsbf value bits => fwWintOp lsbf value bits
  | .fwPay byte => fwPayOp byte
  | .fwFlushn => fwFlushnOp
  | .fwFlush => fwFlushOp

theorem exec_eq_run {i : Instr} (h : i ≠ .reset) (s : State) : exec i s = runCommand i (bodyOf i) s := by
  cases i <;> first | rfl | exact absurd rfl h

/-- The state a piece of pseudocode leaves, whether it raises or not (R225). -/
def Res.state {α : Type} : Res α → State
  | .ok _ s => s
  | .raise _ _ _ s => s

@[simp] theorem Res.state_ok {α : Type} (a : α) (s : State) : (Res.ok a s).state = s := rfl
@[simp] theorem Res.state_raise {α : Type} (c : Cause) (i0 i1 : Word) (s : State) :
    (Res.raise c i0 i1 s : Res α).state = s := rfl

/-- The end of a command changes the fault record, the response and the count only (R95, R224). -/
theorem finish_state (w0 : Word) (r : Res Reply) :
    finish w0 r = { r.state with
      flt := (finish w0 r).flt, resp := (finish w0 r).resp, cmdcnt := r.state.cmdcnt + 1 } := by
  cases r <;> rfl

/-- What a command other than RESET leaves: the state it found (refused, or its unit idle), or the one its body leaves, with
another fault record, response and count. -/
theorem exec_state {i : Instr} (h : i ≠ .reset) (s : State) :
    ∃ u f r, exec i s = .next { u with flt := f, resp := r, cmdcnt := u.cmdcnt + 1 } ∧
      (u = s ∨ (s.flt = none ∧ unitReady i s = true ∧ u = (bodyOf i s).state)) := by
  rw [exec_eq_run h]
  rcases runCommand_cases i (bodyOf i) s with ⟨-, -, e⟩ | ⟨-, -, e⟩ | ⟨hf, hu, e⟩
  · exact ⟨s, _, _, e, .inl rfl⟩
  · exact ⟨s, _, _, e, .inl rfl⟩
  · rw [e, finish_state]
    rcases hf with hf | hf
    · exact ⟨_, _, _, rfl, .inr ⟨hf, hu, rfl⟩⟩
    · refine ⟨_, _, _, rfl, .inl ?_⟩
      cases i <;> simp [runsWhileFaulted] at hf
      · rfl
      · next csr =>
        obtain ⟨v, hv⟩ := Option.isSome_iff_exists.mp hf
        simp [bodyOf, csrrOp, hv]

/-- Every command answers a next state (R226 "the block is never stuck"). -/
theorem exec_next (i : Instr) (s : State) : ∃ t, exec i s = .next t := by
  by_cases h : i = .reset
  · exact ⟨_, by rw [h]; rfl⟩
  · obtain ⟨u, f, r, e, -⟩ := exec_state h s
    exact ⟨_, e⟩

/-! ## The bodies, unit by unit -/

/-- Which unit's state the body of a command may change. -/
inductive Touches where
  | nothing | registers | finder | window | reader | writer
  deriving DecidableEq, Repr

def touches : Instr → Touches
  | .nop | .reset | .csrr _ => .nothing
  | .csrw _ _ => .registers
  | .mfInit | .mfFind _ | .mfAdd _ | .mfAddr _ _ | .mfFindall | .mfMread _ => .finder
  | .swInit | .swWrb _ | .swBcopy _ _ | .swOcopy _ _ | .swCopyfrom _ | .swDispose _ _ => .window
  | .frInit | .frRbit | .frRint _ _ | .frReset | .srcRb => .reader
  | .fwInit | .fwWbit _ | .fwWint _ _ _ | .fwPay _ | .fwFlushn | .fwFlush => .writer

theorem csrwOp_state (csr v : Word) (s : State) : ∃ c, (csrwOp csr v s).state = { s with csr := c } := by
  unfold csrwOp
  split
  · exact ⟨_, rfl⟩
  · exact ⟨s.csr, rfl⟩

theorem csrrOp_state (csr : Word) (s : State) : (csrrOp csr s).state = s := by
  unfold csrrOp
  split <;> rfl

/-- The bodies of the match finder's commands change MF only. -/
theorem finder_state {i : Instr} (h : touches i = .finder) (s : State) :
    ∃ m, (bodyOf i s).state = { s with mf := m } := by
  cases i <;> simp only [touches, reduceCtorEq] at h <;> simp only [bodyOf]
  · unfold mfInitOp
    simp only
    split
    · exact ⟨s.mf, rfl⟩
    · split
      · exact ⟨s.mf, rfl⟩
      · split
        · exact ⟨s.mf, rfl⟩
        · exact ⟨_, rfl⟩
  · unfold mfFindOp
    split
    · exact ⟨s.mf, rfl⟩
    · exact ⟨_, rfl⟩
  · unfold mfAddOp
    split
    · exact ⟨s.mf, rfl⟩
    · exact ⟨_, rfl⟩
  · unfold mfAddrOp
    split
    · exact ⟨s.mf, rfl⟩
    · exact ⟨_, rfl⟩
  · exact ⟨_, rfl⟩
  · exact ⟨s.mf, rfl⟩

theorem srcNext_state (k : Nat) (s : State) : ∃ p, (srcNext k s).state = { s with srcPos := p } := by
  rcases srcNext_cases k s with ⟨-, e⟩ | ⟨-, -, e⟩ | ⟨-, -, e⟩ <;> rw [e]
  · exact ⟨s.srcPos, rfl⟩
  · exact ⟨s.srcPos, rfl⟩
  · exact ⟨_, rfl⟩

theorem nextBit_state (s : State) : ∃ f p, (nextBit s).state = { s with fr := f, srcPos := p } := by
  unfold nextBit
  split
  · unfold refill
    obtain ⟨p, e⟩ := srcNext_state s.fr.cfg.unit.bytes s
    cases h : srcNext s.fr.cfg.unit.bytes s with
    | ok a t => rw [h] at e; cases e; exact ⟨_, _, rfl⟩
    | raise c i0 i1 t => rw [h] at e; cases e; exact ⟨s.fr, p, rfl⟩
  · exact ⟨_, s.srcPos, rfl⟩

theorem readInt_state (lsbf : Bool) (k i v : Nat) (s : State) :
    ∃ f p, (readInt lsbf k i v s).state = { s with fr := f, srcPos := p } := by
  induction k generalizing i v s with
  | zero => exact ⟨s.fr, s.srcPos, rfl⟩
  | succ k ih =>
    obtain ⟨f, p, e⟩ := nextBit_state s
    rw [readInt]
    cases h : nextBit s with
    | raise c i0 i1 t => rw [h] at e; exact ⟨f, p, e⟩
    | ok b t =>
      rw [h] at e
      cases e
      obtain ⟨f', p', e'⟩ := ih (i + 1) (composeBit lsbf i v b) { s with fr := f, srcPos := p }
      exact ⟨f', p', e'⟩

/-- The bodies of the reader's commands and of SRC_RB change FR and SRC.pos only. -/
theorem reader_state {i : Instr} (h : touches i = .reader) (s : State) :
    ∃ f p, (bodyOf i s).state = { s with fr := f, srcPos := p } := by
  cases i <;> simp only [touches, reduceCtorEq] at h <;> simp only [bodyOf]
  · exact ⟨_, s.srcPos, rfl⟩
  · obtain ⟨f, p, e⟩ := nextBit_state s
    unfold frRbitOp
    cases h : nextBit s <;> rw [h] at e <;> exact ⟨f, p, e⟩
  · next lsbf bits =>
    unfold frRintOp
    split
    · exact ⟨s.fr, s.srcPos, rfl⟩
    · obtain ⟨f, p, e⟩ := readInt_state lsbf bits.toNat 0 0 s
      cases h : readInt lsbf bits.toNat 0 0 s <;> rw [h] at e <;> exact ⟨f, p, e⟩
  · exact ⟨_, s.srcPos, rfl⟩
  · obtain ⟨p, e⟩ := srcNext_state 1 s
    unfold srcRbOp
    cases h : srcNext 1 s <;> rw [h] at e <;> exact ⟨s.fr, p, e⟩

theorem putBit_state (b : Bool) (s : State) : ∃ f d, putBit b s = { s with fw := f, dst := d } ∧ s.dst <+: d := by
  by_cases h : s.fw.cnt + 1 = s.fw.cfg.bits
  · exact ⟨_, _, putBit_fills h, by simp⟩
  · exact ⟨_, s.dst, putBit_room h, List.prefix_refl _⟩

theorem putBits_state (bs : List Bool) (s : State) :
    ∃ f d, putBits bs s = { s with fw := f, dst := d } ∧ s.dst <+: d := by
  induction bs generalizing s with
  | nil => exact ⟨s.fw, s.dst, rfl, List.prefix_refl _⟩
  | cons b bs ih =>
    obtain ⟨f, d, e, h⟩ := putBit_state b s
    obtain ⟨f', d', e', h'⟩ := ih (putBit b s)
    refine ⟨f', d', ?_, ?_⟩
    · rw [putBits, e', e]
    · rw [e] at h'; exact h.trans h'

/-- The bodies of the writer's commands change FW and DST only, and DST only grows (R68). -/
theorem writer_state {i : Instr} (h : touches i = .writer) (s : State) :
    ∃ f d, (bodyOf i s).state = { s with fw := f, dst := d } ∧ s.dst <+: d := by
  cases i <;> simp only [touches, reduceCtorEq] at h <;> simp only [bodyOf]
  · exact ⟨_, s.dst, rfl, List.prefix_refl _⟩
  · exact putBit_state _ s
  · unfold fwWintOp
    split
    · exact ⟨s.fw, s.dst, rfl, List.prefix_refl _⟩
    · exact putBits_state _ s
  · unfold fwPayOp
    split
    · exact ⟨s.fw, s.dst, rfl, List.prefix_refl _⟩
    · exact ⟨_, s.dst, rfl, List.prefix_refl _⟩
  · unfold fwFlushnOp
    split
    · exact ⟨_, _, rfl, List.prefix_append _ _⟩
    · exact ⟨s.fw, s.dst, rfl, List.prefix_refl _⟩
  · unfold fwFlushOp
    split
    · exact ⟨_, _, rfl, by simp [dstPut, flushAux, State.withDst, State.withFw]⟩
    · split
      · exact ⟨_, _, rfl, List.prefix_append _ _⟩
      · exact ⟨s.fw, s.dst, rfl, List.prefix_refl _⟩

/-- The end of a byte-producing command: the state settled (R172), whatever the outcome. -/
theorem producing_state (r : Res Unit) : (producing r).state = settle r.state := by
  cases r <;> rfl

/-- The bodies of the window's commands change SW, SINK and SRC.pos only. -/
theorem put_state (b : Byte) (s : State) : ∃ w, (put b s).state = { s with sw := w } := by
  rcases Nat.lt_or_ge s.sw.produced.toNat posMax with h | h
  · rw [put_ok h]; exact ⟨_, rfl⟩
  · rw [put_overflow h]; exact ⟨s.sw, rfl⟩

theorem copyLoop_state (d k : Nat) (s : State) : ∃ w, (copyLoop d k s).state = { s with sw := w } := by
  induction k generalizing s with
  | zero => exact ⟨s.sw, rfl⟩
  | succ k ih =>
    rw [copyLoop]
    obtain ⟨w, e⟩ := put_state (s.sw.ringAt (s.sw.readSlot d)) s
    cases h : put (s.sw.ringAt (s.sw.readSlot d)) s with
    | raise c i0 i1 t => rw [h] at e; exact ⟨w, e⟩
    | ok a t => rw [h] at e; cases e; obtain ⟨w', e'⟩ := ih { s with sw := w }; exact ⟨w', e'⟩

theorem backCopy_state (d k : Nat) (s : State) : ∃ w, (backCopy d k s).state = { s with sw := w } := by
  unfold backCopy
  split
  · exact ⟨s.sw, rfl⟩
  · exact copyLoop_state d k s

theorem copyFromLoop_state (k : Nat) (s : State) :
    ∃ w p, (copyFromLoop k s).state = { s with sw := w, srcPos := p } := by
  induction k generalizing s with
  | zero => exact ⟨s.sw, s.srcPos, rfl⟩
  | succ k ih =>
    rw [copyFromLoop]
    obtain ⟨p, e⟩ := srcNext_state 1 s
    cases h : srcNext 1 s with
    | raise c i0 i1 t => rw [h] at e; exact ⟨s.sw, p, e⟩
    | ok a t =>
      rw [h] at e
      cases e
      simp only [Res.bind_ok]
      obtain ⟨w, e⟩ := put_state (a.headD 0) { s with srcPos := p }
      cases h : put (a.headD 0) { s with srcPos := p } with
      | raise c i0 i1 t => rw [h] at e; exact ⟨w, p, e⟩
      | ok a t => rw [h] at e; cases e; obtain ⟨w', p', e'⟩ := ih { s with sw := w, srcPos := p }; exact ⟨w', p', e'⟩

theorem window_state {i : Instr} (h : touches i = .window) (s : State) :
    ∃ w k p, (bodyOf i s).state = { s with sw := w, sink := k, srcPos := p } := by
  cases i <;> simp only [touches, reduceCtorEq] at h <;> simp only [bodyOf]
  · unfold swInitOp
    split
    · exact ⟨s.sw, s.sink, s.srcPos, rfl⟩
    · exact ⟨_, s.sink, s.srcPos, rfl⟩
  · unfold swWrbOp
    rw [producing_state]
    next b =>
    obtain ⟨w, e⟩ := put_state (byteOperand b) s
    rw [e]; exact ⟨_, _, _, rfl⟩
  · next d l =>
    unfold swBcopyOp
    rw [producing_state]
    obtain ⟨w, e⟩ := backCopy_state d.toNat l.toNat s
    rw [e]; exact ⟨_, _, _, rfl⟩
  · next o l =>
    unfold swOcopyOp
    rw [producing_state]
    obtain ⟨w, e⟩ := backCopy_state (s.sw.offsetDistance o.toNat) l.toNat s
    rw [e]; exact ⟨_, _, _, rfl⟩
  · next l =>
    unfold swCopyfromOp
    rw [producing_state]
    obtain ⟨w, p, e⟩ := copyFromLoop_state l.toNat s
    rw [e]; exact ⟨_, _, _, rfl⟩
  · unfold swDisposeOp
    split
    · exact ⟨s.sw, s.sink, s.srcPos, rfl⟩
    · simp only
      split <;> exact ⟨_, _, _, rfl⟩

end Sys2Proof.Machine
end

