-- ==== Sys2Proof/Laws/MatchFinder.lean ====
section
/-! SUPPORT. One lemma per primitive of the match finder: the key comparison, the extension, the candidate loop, insert,
probe, and the lane's loop as the streaming host sees it. -/

namespace Sys2Proof.Machine

/-! ## Comparing and extending (R131, R133) -/

theorem sameBytes_iff (m : Mf) (p q k : Nat) :
    sameBytes m p q k = true ↔ ∀ i, i < k → m.inputAt (p + i) = m.inputAt (q + i) := by
  induction k generalizing p q with
  | zero => simp [sameBytes]
  | succ k ih =>
    simp only [sameBytes, Bool.and_eq_true, beq_iff_eq, ih]
    constructor
    · rintro ⟨h0, h⟩ i hi
      cases i with
      | zero => exact h0
      | succ i =>
        have := h i (by omega)
        rwa [show p + 1 + i = p + (i + 1) by omega, show q + 1 + i = q + (i + 1) by omega] at this
    · intro h
      refine ⟨h 0 (by omega), fun i hi => ?_⟩
      have := h (i + 1) (by omega)
      rwa [show p + (i + 1) = p + 1 + i by omega, show q + (i + 1) = q + 1 + i by omega] at this

/-- A run of `l` equal bytes that a match may have (R145): not above maxLength, not past the limit. -/
def Run (m : Mf) (p pos limit l : Nat) : Prop :=
  l ≤ m.maxLen.toNat ∧ pos + l ≤ limit ∧ ∀ i, i < l → m.inputAt (p + i) = m.inputAt (pos + i)

theorem Run.mono {m : Mf} {p pos limit l l' : Nat} (h : Run m p pos limit l) (hl : l' ≤ l) : Run m p pos limit l' :=
  ⟨by have := h.1; omega, by have := h.2.1; omega, fun i hi => h.2.2 i (by omega)⟩

/-- Everything the extension loop can do: from a run, it reaches the longest one, if it may look far enough. -/
theorem extend_spec {m : Mf} {p pos limit k len : Nat} (h : Run m p pos limit len) (hk : limit ≤ pos + len + k) :
    Run m p pos limit (extend m p pos limit k len) ∧ len ≤ extend m p pos limit k len ∧
      ∀ l, Run m p pos limit l → l ≤ extend m p pos limit k len := by
  induction k generalizing len with
  | zero =>
    refine ⟨h, Nat.le_refl _, fun l hl => ?_⟩
    have := hl.2.1
    simp only [extend]
    omega
  | succ k ih =>
    rw [extend]
    split
    · next hc =>
      obtain ⟨h1, h2, h3⟩ := hc
      have hrun : Run m p pos limit (len + 1) := by
        refine ⟨h1, by omega, fun i hi => ?_⟩
        rcases Nat.lt_or_eq_of_le (Nat.le_of_lt_succ hi) with hi | rfl
        · exact h.2.2 i hi
        · exact h3
      obtain ⟨a, b, c⟩ := ih hrun (by omega)
      exact ⟨a, by omega, c⟩
    · next hc =>
      refine ⟨h, Nat.le_refl _, fun l hl => ?_⟩
      rcases Nat.lt_or_ge len l with hlt | hge
      · exact absurd ⟨by have := hl.1; omega, by have := hl.2.1; omega, hl.2.2 len hlt⟩ hc
      · exact hge

/-- The length a candidate with the same key reaches is that of its longest run (R133). -/
theorem matchLen_spec {m : Mf} {p pos limit : Nat} (hk : sameKey m p pos = true) (hm : m.minLen.toNat ≤ m.maxLen.toNat)
    (hl : pos + m.minLen.toNat ≤ limit) :
    Run m p pos limit (matchLen m p pos limit) ∧ m.minLen.toNat ≤ matchLen m p pos limit ∧
      ∀ l, Run m p pos limit l → l ≤ matchLen m p pos limit :=
  extend_spec ⟨hm, hl, (sameBytes_iff m p pos _).mp hk⟩ (by omega)

/-! ## The candidate loop (R133) -/

/-- A position of the index that a search inspects: earlier, in the window, with the same key. -/
def isNear (m : Mf) (pos p : Nat) : Bool := decide (p < pos ∧ pos - p ≤ m.winSize.toNat) && sameKey m p pos

/-- The first `n` of a list, or all of it. -/
def within {α : Type} : Option Nat → List α → List α
  | none, l => l
  | some n, l => l.take n

/-- The candidate as the loop records it: distance and length. -/
def candidate (m : Mf) (pos limit p : Nat) : Nat × Nat := (pos - p, matchLen m p pos limit)

/-- The loop looks at the near positions in the order of the index, at most as many as the budget leaves. -/
theorem searchLoop_eq {m : Mf} {bound : Option Nat} {pos limit : Nat} {ps : List Nat} (hps : ps.Pairwise (fun a b => b < a))
    (best : Option (Nat × Nat)) (n : Nat) (hn : ∀ b, bound = some b → n ≤ b) :
    searchLoop m bound pos limit ps best n =
      ((within (bound.map (· - n)) (ps.filter (isNear m pos))).map (candidate m pos limit)).foldl better best := by
  induction ps generalizing best n with
  | nil => cases bound <;> simp [searchLoop, within]
  | cons p ps ih =>
    obtain ⟨hp, hps⟩ := List.pairwise_cons.mp hps
    rw [searchLoop]
    split
    · next h => rw [ih hps best n hn, List.filter_cons_of_neg (by simp [isNear]; omega)]
    · next h =>
      split
      · next hw =>
        have : (p :: ps).filter (isNear m pos) = [] := by
          rw [List.filter_eq_nil_iff]
          intro q hq
          have : q ≤ p := by
            rcases List.mem_cons.mp hq with rfl | hq
            · exact Nat.le_refl _
            · exact Nat.le_of_lt (hp q hq)
          simp only [isNear, Bool.and_eq_true, decide_eq_true_eq, not_and]
          omega
        rw [this]
        cases bound <;> simp [within]
      · next hw =>
        split
        · next hk => rw [ih hps best n hn, List.filter_cons_of_neg (by simp_all [isNear])]
        · next hk =>
          have hnear : isNear m pos p = true := by simp_all [isNear]
          rw [List.filter_cons_of_pos hnear]
          split
          · next hb => rw [hb]; simp [within]
          · next hb =>
            rw [ih hps _ (n + 1) (fun b h => by have := hn b h; have : b ≠ n := fun e => hb (e ▸ h); omega)]
            cases bound with
            | none => rfl
            | some b =>
              have h1 := hn b rfl
              have h2 : b ≠ n := fun e => hb (by rw [e])
              simp only [Option.map_some, within]
              rw [show b - n = (b - (n + 1)) + 1 by omega, List.take_succ_cons]
              rfl

/-- Every search at a level other than None, at a keyable position (R133). -/
theorem search_eq {par : Params} {m : Mf} {ix : Index} {pos limit : Nat} (hix : ix.set.Pairwise (fun a b => b < a))
    (hl : m.level ≠ .levelNone) (hk : pos + m.minLen.toNat ≤ limit) :
    search par m ix pos limit =
      ((within (candBound par m.level) (ix.set.filter (isNear m pos))).map (candidate m pos limit)).foldl better none := by
  rw [search, if_neg hl, if_neg (by simp [keyable, hk]), searchLoop_eq hix none 0 (fun b _ => Nat.zero_le b)]
  cases candBound par m.level <;> rfl

/-- The best of a list of candidates is one of them, at least as long as every one, and the first of its length. -/
theorem foldl_better_spec (cs : List (Nat × Nat)) (best : Option (Nat × Nat)) :
    (cs = [] ∧ cs.foldl better best = best) ∨
    ∃ c, cs.foldl better best = some c ∧ (c ∈ cs ∨ best = some c) ∧ (∀ b, best = some b → b.2 ≤ c.2 ∧ (b.2 = c.2 → b = c)) ∧
      ∀ x ∈ cs, x.2 ≤ c.2 ∧ (x.2 = c.2 → best = some c ∨ x = c ∨ [c, x].Sublist cs) := by
  induction cs generalizing best with
  | nil => exact .inl ⟨rfl, rfl⟩
  | cons y cs ih =>
    right
    rw [List.foldl_cons]
    generalize hb : better best y = b1
    have hb1 : ∃ c, b1 = some c ∧ (c = y ∨ best = some c) ∧ y.2 ≤ c.2 ∧ (y.2 = c.2 → best = some c ∨ y = c) ∧
        (∀ b, best = some b → b.2 ≤ c.2 ∧ (b.2 = c.2 → b = c)) := by
      subst hb
      cases best with
      | none => exact ⟨y, rfl, .inl rfl, Nat.le_refl _, fun _ => .inr rfl, by simp⟩
      | some b =>
        simp only [better]
        split
        · next h => exact ⟨y, rfl, .inl rfl, Nat.le_refl _, fun _ => .inr rfl, fun b' e => by cases e; exact ⟨by omega, by omega⟩⟩
        · next h => exact ⟨b, rfl, .inr rfl, by omega, fun _ => .inl rfl, fun b' e => by cases e; exact ⟨Nat.le_refl _, fun _ => rfl⟩⟩
    obtain ⟨c1, rfl, h1, h2, h3, h4⟩ := hb1
    rcases ih (some c1) with ⟨rfl, e⟩ | ⟨c, e, hm, hbest, hall⟩
    · refine ⟨c1, e, ?_, h4, ?_⟩
      · rcases h1 with rfl | h1
        · exact .inl List.mem_cons_self
        · exact .inr h1
      · intro x hx
        rcases List.mem_cons.mp hx with rfl | hx
        · exact ⟨h2, fun e => (h3 e).imp id .inl⟩
        · cases hx
    · obtain ⟨k1, k2⟩ := hbest c1 rfl
      refine ⟨c, e, ?_, ?_, ?_⟩
      · rcases hm with hm | hm
        · exact .inl (List.mem_cons_of_mem _ hm)
        · cases hm
          rcases h1 with rfl | h1
          · exact .inl List.mem_cons_self
          · exact .inr h1
      · intro b hb
        obtain ⟨a1, a2⟩ := h4 b hb
        refine ⟨by omega, fun e => ?_⟩
        have e1 : b = c1 := a2 (by omega)
        rw [e1, k2 (by omega)]
      · intro x hx
        rcases List.mem_cons.mp hx with rfl | hx'
        · refine ⟨by omega, fun e => ?_⟩
          have e2 : c1 = c := k2 (by omega)
          rcases h3 (by omega) with h | h
          · exact .inl (by rw [h, e2])
          · exact .inr (.inl (by rw [h, e2]))
        · obtain ⟨a1, a2⟩ := hall x hx'
          refine ⟨a1, fun e => ?_⟩
          rcases a2 e with h | h | h
          · cases h
            rcases h1 with rfl | h1
            · by_cases hxc : x = c1
              · exact .inr (.inl hxc)
              · exact .inr (.inr (List.Sublist.cons_cons _ (List.singleton_sublist.mpr hx')))
            · exact .inl h1
          · exact .inr (.inl h)
          · exact .inr (.inr (h.cons _))

/-- What a search finds is a valid match (R145), whatever the budget. -/
theorem search_valid {par : Params} {m : Mf} {ix : Index} {pos limit d l : Nat}
    (hix : ix.set.Pairwise (fun a b => b < a)) (hm : m.minLen.toNat ≤ m.maxLen.toNat)
    (h : search par m ix pos limit = some (d, l)) : ValidMatch m limit pos d l := by
  by_cases hl : m.level = .levelNone
  · rw [search, if_pos hl] at h; cases h
  by_cases hk : pos + m.minLen.toNat ≤ limit
  · rw [search_eq hix hl hk] at h
    generalize hcs : within (candBound par m.level) (ix.set.filter (isNear m pos)) = cs at h
    have hmem : ∀ p ∈ cs, isNear m pos p = true := by
      intro p hp
      have : p ∈ ix.set.filter (isNear m pos) := by
        rw [← hcs] at hp
        cases hb : candBound par m.level with
        | none => rwa [hb] at hp
        | some b => rw [hb] at hp; exact List.mem_of_mem_take hp
      exact (List.mem_filter.mp this).2
    rcases foldl_better_spec (cs.map (candidate m pos limit)) none with ⟨-, e⟩ | ⟨c, e, hc, -, -⟩
    · rw [e] at h; cases h
    · rw [e] at h
      cases h
      rcases hc with hc | hc
      · obtain ⟨p, hp, hpc⟩ := List.mem_map.mp hc
        have hn := hmem p hp
        simp only [isNear, Bool.and_eq_true, decide_eq_true_eq] at hn
        obtain ⟨⟨hlt, hw⟩, hkey⟩ := hn
        obtain ⟨hrun, hmin, -⟩ := matchLen_spec hkey hm hk
        simp only [candidate, Prod.mk.injEq] at hpc
        obtain ⟨rfl, rfl⟩ := hpc
        refine ⟨by omega, hw, Nat.sub_le _ _, hmin, hrun.1, hrun.2.1, fun i hi => ?_⟩
        rw [Nat.sub_sub_self (Nat.le_of_lt hlt)]
        exact (hrun.2.2 i hi).symm
      · cases hc
  · rw [search, if_neg hl, if_pos (by simp [keyable]; omega)] at h; cases h

/-! ## insert (R132) -/

/-- An index in order, for the constraints and the limit of the finder `m`. -/
theorem insertPos_valid {m : Mf} {limit p : Nat} {ix : Index} (h : ValidIndex m limit ix) (hp : p < limit) :
    ValidIndex m limit (insertPos m p limit ix) := by
  unfold insertPos
  split
  · exact h
  · split
    · exact h
    · next hlt =>
      by_cases hk : keyable m p limit = true
      · simp only [hk, if_true]
        simp only [keyable, decide_eq_true_eq] at hk
        refine ⟨List.pairwise_cons.mpr ⟨fun q hq => ?_, h.falling⟩, fun q hq => ?_, fun q hq => ?_, hp⟩
        · have := h.belowNext q hq; omega
        · rcases List.mem_cons.mp hq with rfl | hq
          · exact Nat.lt_succ_self _
          · have := h.belowNext q hq; show q < p + 1; omega
        · rcases List.mem_cons.mp hq with rfl | hq
          · exact hk
          · exact h.keyables q hq
      · simp only [hk]
        refine ⟨h.falling, fun q hq => ?_, h.keyables, hp⟩
        have := h.belowNext q hq
        show q < p + 1
        omega

theorem insertRange_valid {m : Mf} {limit : Nat} (k : Nat) {p : Nat} {ix : Index} (h : ValidIndex m limit ix)
    (hp : p + k ≤ limit) : ValidIndex m limit (insertRange m limit k p ix) := by
  induction k generalizing p ix with
  | zero => exact h
  | succ k ih => exact ih (insertPos_valid h (by omega)) (by omega)

/-- The empty index is in order. -/
theorem validIndex_empty (m : Mf) (limit : Nat) : ValidIndex m limit ⟨[], 0⟩ :=
  ⟨List.Pairwise.nil, by simp, by simp, Nat.zero_le _⟩

/-- What the index holds and where its cursor is after a range of inserts, at a level other than None (R132). -/
theorem insertRange_spec {m : Mf} (hl : m.level ≠ .levelNone) (limit k p : Nat) (ix : Index) :
    (∀ q, q ∈ (insertRange m limit k p ix).set ↔
      q ∈ ix.set ∨ (p ≤ q ∧ q < p + k ∧ ix.next ≤ q ∧ q + m.minLen.toNat ≤ limit)) ∧
    (insertRange m limit k p ix).next = if k = 0 then ix.next else max ix.next (p + k) := by
  induction k generalizing p ix with
  | zero =>
    refine ⟨fun q => ⟨.inl, ?_⟩, rfl⟩
    rintro (h | ⟨h1, h2, -⟩)
    · exact h
    · omega
  | succ k ih =>
    obtain ⟨h1, h2⟩ := ih (p + 1) (insertPos m p limit ix)
    have hset : ∀ q, q ∈ (insertPos m p limit ix).set ↔ q ∈ ix.set ∨ (q = p ∧ ix.next ≤ p ∧ p + m.minLen.toNat ≤ limit) := by
      intro q
      unfold insertPos
      rw [if_neg hl]
      split
      · next h => exact ⟨.inl, fun h' => h'.elim id fun ⟨_, h'', _⟩ => by omega⟩
      · next h =>
        by_cases hk : p + m.minLen.toNat ≤ limit
        · simp only [keyable, hk, decide_true, if_true, List.mem_cons]
          constructor
          · rintro (rfl | h')
            · exact .inr ⟨rfl, by omega, trivial⟩
            · exact .inl h'
          · rintro (h' | ⟨rfl, -⟩)
            · exact .inr h'
            · exact .inl rfl
        · simp [keyable, hk]
    have hnext : (insertPos m p limit ix).next = max ix.next (p + 1) := by
      unfold insertPos
      rw [if_neg hl]
      split
      · next h => omega
      · next h => simp only []; omega
    refine ⟨fun q => ?_, ?_⟩
    · rw [insertRange, h1, hset, hnext]
      constructor
      · rintro ((h | ⟨rfl, h, h'⟩) | ⟨a, b, c, d⟩)
        · exact .inl h
        · exact .inr ⟨by omega, by omega, h, h'⟩
        · exact .inr ⟨by omega, by omega, by omega, d⟩
      · rintro (h | ⟨a, b, c, d⟩)
        · exact .inl (.inl h)
        · by_cases e : q = p
          · subst e; exact .inl (.inr ⟨rfl, c, d⟩)
          · exact .inr ⟨by omega, by omega, by omega, d⟩
    · rw [insertRange, h2, hnext]
      split <;> simp <;> omega

/-! ## The finder over another part of the input (R142, R146) -/

/-- The finder with another input length and another index. -/
def Mf.withSpan (m : Mf) (n : Word) (ix : Index) : Mf := { m with n := n, index := ix }

section

variable (m : Mf) (n : Word) (x : Index)

@[simp] theorem sameBytes_withSpan (p q k : Nat) : sameBytes (m.withSpan n x) p q k = sameBytes m p q k := by
  induction k generalizing p q with
  | zero => rfl
  | succ k ih => simp only [sameBytes, ih]; rfl

@[simp] theorem extend_withSpan (p q l k len : Nat) : extend (m.withSpan n x) p q l k len = extend m p q l k len := by
  induction k generalizing len with
  | zero => rfl
  | succ k ih => simp only [extend, ih]; rfl

@[simp] theorem searchLoop_withSpan (bound : Option Nat) (pos l : Nat) (ps : List Nat) (best : Option (Nat × Nat))
    (i : Nat) : searchLoop (m.withSpan n x) bound pos l ps best i = searchLoop m bound pos l ps best i := by
  induction ps generalizing best i with
  | nil => rfl
  | cons p ps ih => simp only [searchLoop, ih, sameKey, sameBytes_withSpan, matchLen, extend_withSpan]; rfl

@[simp] theorem search_withSpan (par : Params) (ix : Index) (pos l : Nat) :
    search par (m.withSpan n x) ix pos l = search par m ix pos l := by
  simp only [search, searchLoop_withSpan]; rfl

@[simp] theorem insertPos_withSpan (p l : Nat) (ix : Index) : insertPos (m.withSpan n x) p l ix = insertPos m p l ix := rfl

@[simp] theorem insertRange_withSpan (p l k : Nat) (ix : Index) :
    insertRange (m.withSpan n x) l k p ix = insertRange m l k p ix := by
  induction k generalizing p ix with
  | zero => rfl
  | succ k ih => simp only [insertRange, ih, insertPos_withSpan]

@[simp] theorem probe_withSpan (par : Params) (ix : Index) (pos l : Nat) :
    probe par (m.withSpan n x) ix pos l = probe par m ix pos l := by
  simp only [probe, deferred, search_withSpan, insertPos_withSpan]; rfl

@[simp] theorem laneLoop_withSpan (par : Params) (l k pos : Nat) (ix : Index) :
    laneLoop par (m.withSpan n x) l k pos ix = laneLoop par m l k pos ix := by
  induction k generalizing pos ix with
  | zero => rfl
  | succ k ih => simp only [laneLoop, ih, probe_withSpan, insertRange_withSpan]

end

/-- What probe answers is a valid match, and the index stays in order (R135, R145). -/
theorem probe_valid {par : Params} {m : Mf} {ix : Index} {pos limit : Nat} (hi : ValidIndex m limit ix)
    (hm : m.minLen.toNat ≤ m.maxLen.toNat) (hp : pos < limit) :
    ValidIndex m limit (probe par m ix pos limit).2 ∧
      ∀ d, (probe par m ix pos limit).1 = some d → ValidMatch m limit pos d.1 d.2 := by
  unfold probe
  simp only
  split
  · exact ⟨insertPos_valid hi hp, by simp⟩
  · rename_i m0 hs
    refine ⟨insertPos_valid hi hp, fun x hx => ?_⟩
    simp only at hx
    split at hx
    · cases hx
    · cases hx; exact search_valid hi.falling hm hs

/-- The streaming host loop of R146 is the loop of R142, up to the end of the input and with the finder's own index. -/
theorem streamLoop_eq (k pos : Nat) (s : State) (hf : s.flt = none) (ha : s.mf.active = true)
    (hm : 1 ≤ s.mf.minLen.toNat ∧ s.mf.minLen.toNat ≤ s.mf.maxLen.toNat) (hi : ValidIndex s.mf s.mf.n.toNat s.mf.index) :
    streamLoop k pos s = some (laneLoop s.par s.mf s.mf.n.toNat k pos s.mf.index) := by
  induction k generalizing pos s with
  | zero => rfl
  | succ k ih =>
    rw [streamLoop, laneLoop]
    split
    swap
    · rfl
    next hlt =>
    have hn : s.mf.n.toNat ≤ posMax := by have := s.mf.n.isLt; simp only [posMax]; omega
    have hpos : (wordOfNat pos).toNat = pos := wordOfNat_toNat (by omega)
    obtain ⟨hv1, hv2⟩ := probe_valid (par := s.par) hi hm.2 hlt
    cases hp : probe s.par s.mf s.mf.index pos s.mf.n.toNat with
    | mk r ix1 =>
    rw [hp] at hv1 hv2
    simp only at hv1 hv2
    have hu : unitReady (.mfFind (wordOfNat pos)) s = true := by simpa [unitReady, unitOf, State.unitActive] using ha
    have hfind : exec (.mfFind (wordOfNat pos)) s = .next _ := runCommand_done (body := mfFindOp (wordOfNat pos))
      (r := (r.map fun dl => Reply.ofMatch (matchOf pos dl)).getD Reply.zero)
      (u := s.withMf { s.mf with index := ix1 }) hf hu (by
      rw [mfFindOp, hpos, if_neg (by omega)]; simp only [hp]; cases r <;> rfl)
    rw [hfind, completed_replied]
    generalize hs1 : s.withMf { s.mf with index := ix1 } = s1
    have hmf : s1.mf = s.mf.withSpan s.mf.n ix1 := by rw [← hs1]; rfl
    cases r with
    | none =>
      simp only [Option.map_none, Option.getD_none, replied, Reply.zero]
      refine (if_pos rfl).trans ?_
      rw [ih]
      · subst hs1
        show some (laneLoop s.par (s.mf.withSpan s.mf.n ix1) s.mf.n.toNat k (pos+1) ix1) = _
        rw [laneLoop_withSpan]
      · subst hs1; exact hf
      · subst hs1; exact ha
      · subst hs1; exact hm
      · subst hs1; exact ⟨hv1.1, hv1.2, hv1.3, hv1.4⟩
    | some dl =>
      obtain ⟨d, l⟩ := dl
      have hv := hv2 _ rfl
      have hl1 := hv.longEnough
      have hl2 := hv.inInput
      simp only at hl1 hl2
      have e2 : (wordOfNat l).toNat = l := wordOfNat_toNat (by omega)
      simp only [Option.map_some, Option.getD_some, replied, Reply.ofMatch, matchOf, e2]
      rw [if_neg (by omega)]
      split
      · next h1 =>
        subst h1
        rw [ih]
        · subst hs1
          show some (_ :: laneLoop s.par (s.mf.withSpan s.mf.n ix1) s.mf.n.toNat k (pos+1) ix1) = _
          rw [laneLoop_withSpan]; rfl
        · subst hs1; exact hf
        · subst hs1; exact ha
        · subst hs1; exact hm
        · subst hs1; exact ⟨hv1.1, hv1.2, hv1.3, hv1.4⟩
      · next h1 =>
        have e3 : (wordOfNat (pos + 1)).toNat = pos + 1 := wordOfNat_toNat (by omega)
        have e4 : (wordOfNat (l - 1)).toNat = l - 1 := wordOfNat_toNat (by omega)
        generalize hs2 : ({ s1 with
          resp := some ⟨0, wordOfNat pos, wordOfNat d, wordOfNat l⟩
          cmdcnt := s1.cmdcnt + 1 } : State) = s2
        have hmf2 : s2.mf = s.mf.withSpan s.mf.n ix1 := by rw [← hs2]; exact hmf
        have hpar2 : s2.par = s.par := by rw [← hs2, ← hs1]; rfl
        have hf2 : s2.flt = none := by rw [← hs2, ← hs1]; exact hf
        have hadd : exec (.mfAddr (wordOfNat (pos + 1)) (wordOfNat (l - 1))) s2 = .next _ :=
          runCommand_done (body := mfAddrOp _ _) (r := Reply.zero)
          (u := s2.withMf
            { s2.mf with index := insertRange s2.mf s2.mf.n.toNat (l - 1) (pos + 1) s2.mf.index })
          hf2 (by simp [unitReady, unitOf, State.unitActive, hmf2]; exact ha) (by
          rw [mfAddrOp, e3, e4, if_neg (by rw [hmf2]; show ¬¬ _ ≤ s.mf.n.toNat; omega)])
        rw [hadd, completed_replied]
        simp only [replied, Reply.zero]
        have hir : insertRange s2.mf s2.mf.n.toNat (l - 1) (pos + 1) s2.mf.index =
            insertRange s.mf s.mf.n.toNat (l - 1) (pos + 1) ix1 := by
          rw [hmf2, insertRange_withSpan]; rfl
        rw [hir]
        have hv3 := insertRange_valid (l-1) (p := pos+1) hv1 (by omega)
        rw [ih]
        · show some (_ :: laneLoop s2.par ({ s2.mf with index := _ }) s2.mf.n.toNat k (pos+l) _) = _
          rw [hmf2, hpar2]
          show some (_ :: laneLoop s.par (s.mf.withSpan s.mf.n _) s.mf.n.toNat k (pos+l) _) = _
          rw [laneLoop_withSpan]; rfl
        · exact hf2
        · show s2.mf.active = true; rw [hmf2]; exact ha
        · show 1 ≤ s2.mf.minLen.toNat ∧ s2.mf.minLen.toNat ≤ s2.mf.maxLen.toNat; rw [hmf2]; exact hm
        · show ValidIndex { s2.mf with index := _ } s2.mf.n.toNat _
          rw [hmf2]
          exact ⟨hv3.1, hv3.2, hv3.3, hv3.4⟩

end Sys2Proof.Machine
end

