-- ==== Sys2Proof/Laws/PerInstr.lean ====
section
/-! SUPPORT. The family EncodingShape: of every command, that its words have RSV = 0 and no bit of MOD but bit 0 (R91, R94), and
that the row of its opcode builds the command back from its own fields (R97). One lemma per constructor. -/

namespace Sys2Proof.Laws.EncodingShape

open Sys2Proof

/-- What is stated of each command. -/
def Statement (i : Instr) : Prop :=
  (encode i).w0.extractLsb' 16 16 = 0 ∧ ((encode i).w0.extractLsb' 8 8 = 0 ∨ (encode i).w0.extractLsb' 8 8 = 1) ∧
  ∃ fmt build, opcodeRow i.fields.opc = some (fmt, build) ∧ build i.fields = i

/-- RSV and MOD of an encoded command are its fields. -/
theorem rsv_field (i : Instr) : (encode i).w0.extractLsb' 16 16 = i.fields.rsv := congrArg Fields.rsv (encode_fields i)

theorem mod_field (i : Instr) : (encode i).w0.extractLsb' 8 8 = i.fields.mod := congrArg Fields.mod (encode_fields i)

theorem of_row {i : Instr} {fmt : Format} {build : Fields → Instr} (hr : i.fields.rsv = 0)
    (hm : i.fields.mod = 0 ∨ i.fields.mod = 1) (ho : opcodeRow i.fields.opc = some (fmt, build)) (hb : build i.fields = i) : Statement i :=
  ⟨(rsv_field i).trans hr, by rw [mod_field i]; exact hm, fmt, build, ho, hb⟩

theorem modOf_cases (b : Bool) : modOf b = 0 ∨ modOf b = 1 := by cases b <;> decide

theorem nop : Statement .nop := of_row rfl (.inl rfl) rfl rfl

theorem reset : Statement .reset := of_row rfl (.inl rfl) rfl rfl

theorem csrw (csr value : Word) : Statement (.csrw csr value) := of_row rfl (.inl rfl) rfl rfl

theorem csrr (csr : Word) : Statement (.csrr csr) := of_row rfl (.inl rfl) rfl rfl

theorem mfInit : Statement .mfInit := of_row rfl (.inl rfl) rfl rfl

theorem mfFind (position : Word) : Statement (.mfFind position) := of_row rfl (.inl rfl) rfl rfl

theorem mfAdd (position : Word) : Statement (.mfAdd position) := of_row rfl (.inl rfl) rfl rfl

theorem mfAddr (position count : Word) : Statement (.mfAddr position count) := of_row rfl (.inl rfl) rfl rfl

theorem mfFindall : Statement .mfFindall := of_row rfl (.inl rfl) rfl rfl

theorem mfMread (entry : Word) : Statement (.mfMread entry) := of_row rfl (.inl rfl) rfl rfl

theorem swInit : Statement .swInit := of_row rfl (.inl rfl) rfl rfl

theorem swWrb (byte : Word) : Statement (.swWrb byte) := of_row rfl (.inl rfl) rfl rfl

theorem swBcopy (distance length : Word) : Statement (.swBcopy distance length) := of_row rfl (.inl rfl) rfl rfl

theorem swOcopy (offset length : Word) : Statement (.swOcopy offset length) := of_row rfl (.inl rfl) rfl rfl

theorem swCopyfrom (length : Word) : Statement (.swCopyfrom length) := of_row rfl (.inl rfl) rfl rfl

theorem swDispose (check : Bool) (expected : Word) : Statement (.swDispose check expected) :=
  of_row rfl (modOf_cases check) rfl (by simp only [Instr.fields, Fields.flag, getLsbD_modOf])

theorem frInit : Statement .frInit := of_row rfl (.inl rfl) rfl rfl

theorem frRbit : Statement .frRbit := of_row rfl (.inl rfl) rfl rfl

theorem frRint (lsbf : Bool) (bits : Word) : Statement (.frRint lsbf bits) :=
  of_row rfl (modOf_cases lsbf) rfl (by simp only [Instr.fields, Fields.flag, getLsbD_modOf])

theorem frReset : Statement .frReset := of_row rfl (.inl rfl) rfl rfl

theorem srcRb : Statement .srcRb := of_row rfl (.inl rfl) rfl rfl

theorem fwInit : Statement .fwInit := of_row rfl (.inl rfl) rfl rfl

theorem fwWbit (bit : Word) : Statement (.fwWbit bit) := of_row rfl (.inl rfl) rfl rfl

theorem fwWint (lsbf : Bool) (value bits : Word) : Statement (.fwWint lsbf value bits) :=
  of_row rfl (modOf_cases lsbf) rfl (by simp only [Instr.fields, Fields.flag, getLsbD_modOf])

theorem fwPay (byte : Word) : Statement (.fwPay byte) := of_row rfl (.inl rfl) rfl rfl

theorem fwFlushn : Statement .fwFlushn := of_row rfl (.inl rfl) rfl rfl

theorem fwFlush : Statement .fwFlush := of_row rfl (.inl rfl) rfl rfl

end Sys2Proof.Laws.EncodingShape
end

