-- ==== Sys2Proof/Laws/Step.lean ====
section
/-! SUPPORT. What one step can do (the drain, one action of the host, the drain), and several. -/

namespace Sys2Proof.Machine

/-- `t` is `s` after the drain has moved some bytes (R172) and counted its own choices. -/
def Drained (s t : State) : Prop := ∃ k n, t = { drainBy k s with drainTick := n }

theorem drained_freeDrain (s : State) : Drained s (freeDrain s) := by
  rcases freeDrain_cases s with ⟨h, e⟩ | ⟨k, e⟩
  · exact ⟨0, s.drainTick, by rw [e]; simp [drainBy, State.withSink, State.withSw]⟩
  · exact ⟨k, _, e⟩

theorem Drained.out {s t : State} (h : Drained s t) : t.out = s.out := by
  obtain ⟨k, n, rfl⟩ := h
  exact drainBy_out k s

theorem Drained.sink {s t : State} (h : Drained s t) : s.sink <+: t.sink := by
  obtain ⟨k, n, rfl⟩ := h
  exact drainBy_sink k s

/-- The drain touches nothing but SINK and the queue. -/
theorem Drained.frame {s t : State} (h : Drained s t) :
    t = { s with sink := t.sink, sw := { s.sw with pend := t.sw.pend }, drainTick := t.drainTick } := by
  obtain ⟨k, n, rfl⟩ := h
  rfl

theorem Drained.pend {s t : State} (h : Drained s t) : t.sw.pend.length ≤ s.sw.pend.length := by
  obtain ⟨k, n, rfl⟩ := h
  simp [drainBy, State.withSink, State.withSw]

/-- Everything a step can do. -/
theorem step_cases {s t : State} (h : step s = .next t) :
    (s.host = [] ∧ Drained s t) ∨
    ∃ a rest u v, s.host = a :: rest ∧ Drained { s with host := rest } u ∧ hostAct a u = .next v ∧ Drained v t := by
  cases hh : s.host with
  | nil =>
    rw [step_waits hh] at h
    injection h with h
    exact .inl ⟨rfl, h ▸ drained_freeDrain s⟩
  | cons a rest =>
    rw [step_acts hh] at h
    cases hv : hostAct a (freeDrain (s.withHost rest)) with
    | next v =>
      rw [hv] at h
      injection h with h
      exact .inr ⟨a, rest, _, v, rfl, drained_freeDrain _, hv, h ▸ drained_freeDrain v⟩
    | fault r => cases r
    | refused r => rw [hv] at h; cases h

/-- What a command word does: RESET, or a change of the fault record, the response and the count of the state it found or of
the one the body of a well-formed command leaves. -/
theorem issue_cases (c : Cmd) (s : State) :
    (decode c = .ok .reset ∧ issue c s = .next (respond ⟨0, 0, 0, 0⟩ (resetBlock s))) ∨
    (decode c ≠ .ok .reset ∧
      ∃ u f r, issue c s = .next { u with flt := f, resp := r, cmdcnt := u.cmdcnt + 1 } ∧
        (u = s ∨ ∃ i, decode c = .ok i ∧ s.flt = none ∧ unitReady i s = true ∧ u = (bodyOf i s).state)) := by
  cases hd : decode c with
  | rejected r =>
    refine .inr ⟨by simp, ?_⟩
    rw [issue_rejected hd, illFormed]
    split
    · exact ⟨s, _, _, rfl, .inl rfl⟩
    · exact ⟨s, _, _, rfl, .inl rfl⟩
  | ok i =>
    rw [issue_ok hd]
    by_cases hi : i = .reset
    · subst hi; exact .inl ⟨rfl, rfl⟩
    · refine .inr ⟨by simpa using hi, ?_⟩
      obtain ⟨u, f, r, e, h⟩ := exec_state hi s
      exact ⟨u, f, r, e, h.imp id fun ⟨h1, h2, h3⟩ => ⟨i, rfl, h1, h2, h3⟩⟩

theorem mapNext_next (f : State → State) (s : State) : mapNext f (.next s) = .next (f s) := rfl

/-- Going on with a sequence changes nothing but what the host has in mind. -/
theorem goOn_frame (cs : List Cmd) (s : State) : goOn cs s = { s with host := (goOn cs s).host } := by
  unfold goOn
  split <;> rfl

/-- The word that the next step takes is the one its action presents. -/
theorem nextWord_cons {s : State} {a : HostAct} {rest : List HostAct} (h : s.host = a :: rest) : s.nextWord = a.word := by
  simp [State.nextWord, h]

/-- Everything a host action can do: a command word, power-on reset, or new contents outside the block. -/
theorem hostAct_cases {a : HostAct} {s t : State} (h : hostAct a s = .next t) :
    (∃ c u, a.word = some c ∧ issue c s = .next u ∧ t = { u with host := t.host }) ∨
    (a = .powerOn ∧ t = resetBlock s) ∨
    (a.word = none ∧ a ≠ .powerOn ∧ t = { s with srcNext := t.srcNext, inbuf := t.inbuf } ∧ (s.inbuf.wf → t.inbuf.wf)) := by
  cases a with
  | command c => exact .inl ⟨c, t, rfl, h, rfl⟩
  | untilFault cs =>
    cases cs with
    | nil =>
      cases h
      exact .inr (.inr ⟨rfl, by simp, rfl, id⟩)
    | cons c cs =>
      simp only [hostAct, issueFirst] at h
      cases hu : issue c s with
      | next u =>
        rw [hu, mapNext_next] at h
        injection h with h
        exact .inl ⟨c, u, rfl, hu, h ▸ goOn_frame cs u⟩
      | fault r => cases r
      | refused r => rw [hu] at h; cases h
  | powerOn => cases h; exact .inr (.inl ⟨rfl, rfl⟩)
  | setSource bytes => cases h; exact .inr (.inr ⟨rfl, by simp, rfl, id⟩)
  | setInput bytes => cases h; exact .inr (.inr ⟨rfl, by simp, rfl, fun _ => Memory.ofBytes_wf 0 bytes⟩)

/-! ## Several steps -/

theorem run_succ {s t : State} (k : Nat) (h : step s = .next t) :
    Sys2Proof.core.run (k + 1) s = Sys2Proof.core.run k t := by
  have e : Sys2Proof.core.step s = .next t := h
  simp only [Host.Core.run, e]

/-- A step always answers a next state: no command stops the machine (R226). -/
theorem step_next (s : State) : ∃ t, step s = .next t := by
  have issue_next : ∀ c u, ∃ v, issue c u = .next v := by
    intro c u
    rcases issue_cases c u with ⟨-, e⟩ | ⟨-, v, f, r, e, -⟩
    · exact ⟨_, e⟩
    · exact ⟨_, e⟩
  have act_next : ∀ a u, ∃ v, hostAct a u = .next v := by
    intro a u
    cases a with
    | command c => exact issue_next c u
    | untilFault cs =>
      cases cs with
      | nil => exact ⟨u, rfl⟩
      | cons c cs =>
        obtain ⟨v, e⟩ := issue_next c u
        exact ⟨goOn cs v, by rw [hostAct, issueFirst, e, mapNext_next]⟩
    | powerOn => exact ⟨_, rfl⟩
    | setSource bytes => exact ⟨_, rfl⟩
    | setInput bytes => exact ⟨_, rfl⟩
  cases hh : s.host with
  | nil => exact ⟨_, step_waits hh⟩
  | cons a rest =>
    obtain ⟨v, e⟩ := act_next a (freeDrain (s.withHost rest))
    exact ⟨freeDrain v, by rw [step_acts hh, e, drainAfter, mapNext_next]⟩

theorem run_add {s t : State} {k : Nat} (j : Nat) (h : Sys2Proof.core.run k s = .next t) :
    Sys2Proof.core.run (k + j) s = Sys2Proof.core.run j t := by
  induction k generalizing s with
  | zero => cases h; rw [Nat.zero_add]
  | succ k ih =>
    obtain ⟨u, hu⟩ := step_next s
    rw [run_succ k hu] at h
    rw [Nat.succ_add, run_succ _ hu]
    exact ih h

end Sys2Proof.Machine
end

