-- ==== Sys2Proof/Tests/Slice0.lean ====
section
/-! SUPPORT. The model's own tests. Expected values are the vectors of spec/95_test_vectors.md (named V-...), the worked
encodings of R107, or words written out from R91, R92 and R97. After them, one witness for the hypotheses of each statement
of Certificates/Slice0/Obligations.lean, clause by clause. -/

namespace Sys2Proof.Tests

open Sys2Proof Sys2Proof.Machine

/-! ## Small states -/

/-- The response to a command. -/
def answer (i : Instr) (s : State) : Option Response :=
  match exec i s with
  | .next t => t.resp
  | _ => none

/-- The state after a command. -/
def after (i : Instr) (s : State) : State :=
  match exec i s with
  | .next t => t
  | _ => s

/-- The state after a step. -/
def stepped (s : State) : Option State :=
  match step s with
  | .next t => some t
  | _ => none

/-- `IllegalCommand(2, 0x14)` has been recorded. -/
def faultedState : State := { State.reset with flt := some ⟨.illegalCommand, 0x02, 0x02, 0x14⟩ }

/-- "ABCABCABC" -/
def abc9 : List Byte := [0x41, 0x42, 0x43, 0x41, 0x42, 0x43, 0x41, 0x42, 0x43]

/-- The finder right after MF_INIT. -/
def finderOn (level : Level) (la : Bool) (input : List Byte) (lo : Word) : State :=
  { State.reset with mf :=
    { active := true, winSize := 0x1000, minLen := lo, maxLen := 18, level := level, la := la,
      n := wordOfNat input.length, input := Memory.ofBytes 0 input, index := ⟨[], 0⟩, ml := [] } }

/-- A window that has produced `out`, all of it drained. -/
def windowOn (size start : Word) (out : List Byte) : State :=
  { State.reset with
    sink := out
    sw :=
      { active := true, winSize := size, winStart := start, produced := wordOfNat out.length, pend := []
        ring := (out.zipIdx).foldl (fun m x => m.write ((start.toNat + x.2) % size.toNat) x.1) [] } }

/-- A reader right after FR_INIT on a source. -/
def readerOn (c : FlagCfg) (src : List Byte) : State :=
  { State.reset with src := src, fr := { active := true, cfg := c, acc := 0, left := 0 } }

/-- A writer that holds `cnt` flag bits, with the accumulator and payload given. -/
def writerOn (c : FlagCfg) (acc : Word) (cnt : Nat) (aux : List Byte) : State :=
  { State.reset with fw := { active := true, cfg := c, acc := acc, cnt := cnt, aux := aux } }

/-- Registers written, every unit idle. -/
def csrOn (win lo hi : Word) : State :=
  { State.reset with csr := { Csr.reset with winSize := win, minLen := lo, maxLen := hi } }

/-- FC_CFG = 0. -/
def cfg0 : FlagCfg := ⟨.one, false, false⟩

/-! ## WellFormed refuses each ill-formed term -/

theorem test_wellFormed_refuses_csrw : Instr.wellFormed (.csrw 0x100 0) = false := by decide
theorem test_wellFormed_refuses_csrr : Instr.wellFormed (.csrr 0x100) = false := by decide
theorem test_wellFormed_refuses_swWrb : Instr.wellFormed (.swWrb 0x100) = false := by decide
theorem test_wellFormed_refuses_fwPay : Instr.wellFormed (.fwPay 0xFFFFFFFF) = false := by decide
theorem test_wellFormed_refuses_fwWbit : Instr.wellFormed (.fwWbit 2) = false := by decide
theorem test_wellFormed_refuses_frRint : Instr.wellFormed (.frRint true 64) = false := by decide
theorem test_wellFormed_refuses_fwWint : Instr.wellFormed (.fwWint false 0 64) = false := by decide
theorem test_wellFormed_accepts : Instr.wellFormed (.csrw 0xFF 0xFFFFFFFF) = true ∧ Instr.wellFormed (.fwWbit 1) = true ∧
    Instr.wellFormed (.frRint false 63) = true := by decide

/-! ## Decoding: every row of R97, words from the encoding tables -/

theorem test_decode_system : decode ⟨0, 0, 0⟩ = .ok .nop ∧ decode ⟨0x01, 0, 0⟩ = .ok .reset ∧
    decode ⟨0x02, 0x10, 0x1000⟩ = .ok (.csrw 0x10 0x1000) ∧ decode ⟨0x03, 0x04, 0⟩ = .ok (.csrr 0x04) := by decide

theorem test_decode_finder : decode ⟨0x10, 0, 0⟩ = .ok .mfInit ∧ decode ⟨0x11, 3, 0⟩ = .ok (.mfFind 3) ∧
    decode ⟨0x12, 0xFFFFFFFF, 0⟩ = .ok (.mfAdd 0xFFFFFFFF) ∧ decode ⟨0x13, 4, 5⟩ = .ok (.mfAddr 4 5) ∧
    decode ⟨0x14, 0, 0⟩ = .ok .mfFindall ∧ decode ⟨0x15, 1, 0⟩ = .ok (.mfMread 1) := by decide

theorem test_decode_window : decode ⟨0x20, 0, 0⟩ = .ok .swInit ∧ decode ⟨0x21, 0x41, 0⟩ = .ok (.swWrb 0x41) ∧
    decode ⟨0x22, 1, 100⟩ = .ok (.swBcopy 1 100) ∧ decode ⟨0x23, 15, 2⟩ = .ok (.swOcopy 15 2) ∧
    decode ⟨0x24, 2, 0⟩ = .ok (.swCopyfrom 2) ∧ decode ⟨0x25, 0, 0⟩ = .ok (.swDispose false 0) ∧
    decode ⟨0x125, 3, 0⟩ = .ok (.swDispose true 3) := by decide

theorem test_decode_reader : decode ⟨0x30, 0, 0⟩ = .ok .frInit ∧ decode ⟨0x31, 0, 0⟩ = .ok .frRbit ∧
    decode ⟨0x32, 3, 0⟩ = .ok (.frRint false 3) ∧ decode ⟨0x132, 4, 0⟩ = .ok (.frRint true 4) ∧
    decode ⟨0x33, 0, 0⟩ = .ok .frReset ∧ decode ⟨0x34, 0, 0⟩ = .ok .srcRb := by decide

theorem test_decode_writer : decode ⟨0x40, 0, 0⟩ = .ok .fwInit ∧ decode ⟨0x41, 1, 0⟩ = .ok (.fwWbit 1) ∧
    decode ⟨0x42, 5, 3⟩ = .ok (.fwWint false 5 3) ∧ decode ⟨0x142, 6, 4⟩ = .ok (.fwWint true 6 4) ∧
    decode ⟨0x43, 0xEE, 0⟩ = .ok (.fwPay 0xEE) ∧ decode ⟨0x44, 0, 0⟩ = .ok .fwFlushn ∧
    decode ⟨0x45, 0, 0⟩ = .ok .fwFlush := by decide

/-- V-SYS3, and one word per kind of rejection. -/
theorem test_decode_rejects : decode ⟨0x10000, 0, 0⟩ = .rejected .reservedBits ∧
    decode ⟨0x06, 0, 0⟩ = .rejected .unknownOpcode ∧ decode ⟨0x31, 1, 0⟩ = .rejected .operandA ∧
    decode ⟨0x222, 1, 1⟩ = .rejected .modifierBits ∧ decode ⟨0x21, 0x100, 0⟩ = .rejected .operandA ∧
    decode ⟨0x100, 0, 0⟩ = .rejected .modifierBits ∧ decode ⟨0x41, 2, 0⟩ = .rejected .operandA ∧
    decode ⟨0x42, 0, 0x40⟩ = .rejected .operandB ∧ decode ⟨0x03, 0, 1⟩ = .rejected .operandB ∧
    decodeBytes [0x22] = .rejected .notTwelveBytes := by decide

/-- SW_BCOPY 1, 100 as the table numbers its bits: A in bits 63:32, B in bits 95:64. -/
theorem test_decodeTableWord : decodeTableWord 96 0x000000640000000100000022 = some (.swBcopy 1 100) ∧
    decodeTableWord 96 0x06 = none := by decide

/-- The first step after reset runs the word: FR_INIT, and an ill-formed word. -/
theorem test_withFetchWord : stepped (State.reset.withFetchWord 96 0x30) =
      some { State.reset with
        resp := some ⟨0, 0, 0, 0⟩, cmdcnt := 1, fr := { active := true, cfg := cfg0, acc := 0, left := 0 } } ∧
    stepped (State.reset.withFetchWord 96 0x06) =
      some { State.reset with
        resp := some ⟨5, 6, 0, 0⟩, cmdcnt := 1, flt := some ⟨.illegalCommand, 6, 6, 0⟩ } := by decide

/-! ## System commands -/

theorem test_nop : answer .nop faultedState = some ⟨0, 0, 0, 0⟩ := by decide

theorem test_reset : after .reset faultedState = { State.reset with resp := some ⟨0, 0, 0, 0⟩ } := by decide

/-- V-SYS1, V-SYS2. -/
theorem test_csrw : (after (.csrw 0x16 0xE) State.reset).csr.fcCfg = ⟨.four, true, true⟩ ∧
    answer (.csrw 0x16 3) State.reset = some ⟨5, 2, 0x16, 0⟩ := by decide
theorem test_csrw_readonly : answer (.csrw 0x01 0) State.reset = some ⟨5, 2, 1, 0⟩ ∧
    (after (.csrw 0x14 8) State.reset).status = 0x00020501 := by decide
theorem test_csrr : answer (.csrr 0) State.reset = some ⟨0, 0x4C5A0001, 0, 0⟩ ∧
    answer (.csrr 0x17) State.reset = some ⟨5, 3, 0x17, 0⟩ := by decide

/-- V-FLT1: a CSRR of no CSR is refused while faulted. -/
theorem test_csrr_refused : answer (.csrr 0x05) faultedState = some ⟨0xFF, 0x00020501, 2, 0x14⟩ := by decide

/-! ## Match finder -/

/-- V-MF13. -/
theorem test_mfInit : answer .mfInit State.reset = some ⟨1, 0x10, 0, 0⟩ ∧
    answer .mfInit { State.reset with csr := { Csr.reset with winSize := 8, minLen := 4, maxLen := 3 } } =
      some ⟨1, 0x12, 3, 0⟩ := by decide

/-- V-MF1 and program P3: position 3 after 0, 1, 2 are indexed. -/
theorem test_mfFind : answer (.mfFind 3) (after (.mfAddr 0 3) (finderOn .optimal true abc9 3)) = some ⟨0, 3, 3, 6⟩ := by
  decide
theorem test_mfFind_past_end : answer (.mfFind 9) (finderOn .optimal true abc9 3) = some ⟨5, 0x11, 9, 0⟩ := by decide
theorem test_mfAdd : (after (.mfAdd 7) (finderOn .optimal true abc9 3)).mf.index = ⟨[], 8⟩ ∧
    (after (.mfAdd 6) (finderOn .optimal true abc9 3)).mf.index = ⟨[6], 7⟩ := by decide
theorem test_mfAddr : (after (.mfAddr 4 5) (finderOn .optimal true abc9 3)).mf.index = ⟨[6, 5, 4], 9⟩ ∧
    answer (.mfAddr 5 5) (finderOn .optimal true abc9 3) = some ⟨5, 0x13, 5, 0⟩ := by decide

/-- V-MF1, V-MF5. -/
theorem test_mfFindall : (after .mfFindall (finderOn .optimal true abc9 3)).mf.ml = [⟨3, 3, 6⟩] ∧
    (after .mfFindall (finderOn .fastest false [0x41, 0x41, 0x41, 0x41] 3)).mf.ml = [⟨1, 1, 3⟩] := by decide

/-- V-MF11, CHUNK = 8. -/
theorem test_mfFindall_chunks : (after .mfFindall
      { finderOn .optimal true (abc9 ++ abc9) 3 with par := { Params.reference with chunk := 8 } }).mf.ml =
    [⟨3, 3, 5⟩, ⟨8, 3, 10⟩] := by decide
theorem test_mfMread : answer (.mfMread 1) (finderOn .optimal true abc9 3) = some ⟨0, 0, 0, 0⟩ := by decide

/-! ## Sliding window -/

theorem test_swInit : answer .swInit State.reset = some ⟨1, 0x10, 0, 0⟩ := by decide
theorem test_swWrb : (after (.swWrb 0x42) (windowOn 16 14 [0x41, 0x41])).sw.ring = [(0, 0x42), (14, 0x41), (15, 0x41)] ∧
    (after (.swWrb 0x42) (windowOn 16 14 [0x41, 0x41])).sink = [0x41, 0x41, 0x42] := by decide

/-- V-SW2. -/
theorem test_swBcopy : (after (.swBcopy 4 3) (windowOn 4 0 [0x61, 0x62, 0x63, 0x64, 0x65, 0x66])).sink =
    [0x61, 0x62, 0x63, 0x64, 0x65, 0x66, 0x63, 0x64, 0x65] := by decide
theorem test_swBcopy_overlap : (after (.swBcopy 1 4) (windowOn 16 0 [0x41])).sink = [0x41, 0x41, 0x41, 0x41, 0x41] ∧
    answer (.swBcopy 0 1) (windowOn 16 0 [0x41]) = some ⟨2, 0, 1, 0⟩ := by decide

/-- V-SW4. -/
theorem test_swOcopy : (after (.swOcopy 15 2) (windowOn 16 14 [0x57, 0x58, 0x59, 0x5A])).sink =
    [0x57, 0x58, 0x59, 0x5A, 0x58, 0x59] ∧
    answer (.swOcopy 13 1) (windowOn 16 14 [0x57, 0x58, 0x59, 0x5A, 0x58, 0x59]) = some ⟨2, 7, 6, 0⟩ := by decide

/-- V-SW6. -/
theorem test_swCopyfrom : answer (.swCopyfrom 2) { windowOn 16 0 [0x61, 0x62] with src := [0x61, 0x62, 0x63], srcPos := 2 } =
      some ⟨3, 3, 1, 0⟩ ∧
    (after (.swCopyfrom 2) { windowOn 16 0 [0x61, 0x62] with src := [0x61, 0x62, 0x63], srcPos := 2 }).sw.produced = 3 := by
  decide

/-- V-SW7. -/
theorem test_swDispose : answer (.swDispose true 4) (windowOn 16 0 [0x61, 0x62, 0x63]) = some ⟨4, 4, 3, 0⟩ ∧
    (after (.swDispose true 4) (windowOn 16 0 [0x61, 0x62, 0x63])).status = 0x00250401 := by decide
theorem test_swDispose_plain : answer (.swDispose false 0) (windowOn 16 0 [0x61, 0x62, 0x63]) = some ⟨0, 3, 0, 0⟩ ∧
    answer (.swDispose false 5) (windowOn 16 0 [0x61, 0x62, 0x63]) = some ⟨5, 0x25, 5, 0⟩ := by decide

/-! ## Flag reader and source -/

/-- V-FR1. -/
theorem test_frInit : (after .frInit { State.reset with src := [0xA0], srcPos := 1 }).srcPos = 1 := by decide
theorem test_frRbit : answer .frRbit (readerOn cfg0 [0xA0, 0xFF]) = some ⟨0, 1, 0, 0⟩ ∧
    (after .frRbit (readerOn cfg0 [0xA0, 0xFF])).srcPos = 1 := by decide

/-- V-FR4. -/
theorem test_frRbit_short : answer .frRbit (readerOn ⟨.two, false, false⟩ [0xAA]) = some ⟨3, 0, 1, 0⟩ := by decide

/-- V-FR2, V-FR3. -/
theorem test_frRint : answer (.frRint false 3) (readerOn cfg0 [0xAD]) = some ⟨0, 5, 0, 0⟩ ∧
    answer (.frRint true 3) (readerOn ⟨.one, true, false⟩ [0xB5]) = some ⟨0, 5, 0, 0⟩ := by decide
theorem test_frRint_wide : answer (.frRint false 12) (readerOn ⟨.two, false, true⟩ [0xC0, 0xAB]) = some ⟨0, 0xABC, 0, 0⟩ ∧
    answer (.frRint false 33) (readerOn cfg0 []) = some ⟨5, 0x32, 0x21, 0⟩ := by decide
theorem test_frReset : (after .frReset (after .frRbit (readerOn cfg0 [0xA0, 0xFF]))).fr.left = 0 := by decide
theorem test_srcRb : answer .srcRb (readerOn cfg0 [0xFF]) = some ⟨0, 0xFF, 0, 0⟩ ∧
    answer .srcRb (readerOn cfg0 []) = some ⟨3, 0, 1, 0⟩ := by decide

/-! ## Flag writer -/

theorem test_fwInit : (after .fwInit (writerOn cfg0 0x80 1 [0x61])).fw = ⟨true, cfg0, 0, 0, []⟩ := by decide

/-- V-FW1: the eighth bit of 1,0,1,1,0,0,1,0 emits B2, or 4D least-significant-first; the payload follows its unit. -/
theorem test_fwWbit : (after (.fwWbit 0) (writerOn cfg0 0xB2 7 [0x61])).dst = [0xB2, 0x61] ∧
    (after (.fwWbit 1) (writerOn ⟨.one, true, false⟩ 0x01 2 [])).fw.acc = 0x05 := by decide

/-- V-FW3. -/
theorem test_fwWint : (after .fwFlush (after (.fwWint false 0xABC 12) (writerOn ⟨.two, false, true⟩ 0 0 []))).dst =
      [0xC0, 0xAB] ∧
    answer (.fwWint false 0 33) (writerOn cfg0 0 0 []) = some ⟨5, 0x42, 0, 0⟩ := by decide

/-- V-FW4: the first unit of the mixed word is 0xCF35. -/
theorem test_fwWint_mixed : (after (.fwWint true 0x2B3 6)
    (after (.fwWint false 0x2B3 10) (writerOn ⟨.two, true, true⟩ 0 0 []))).dst = [0x35, 0xCF] := by decide

/-- V-FW9. -/
theorem test_fwPay : answer (.fwPay 3) { writerOn cfg0 0 0 [1, 2] with par := { Params.reference with auxmax := 2 } } =
    some ⟨7, 0x26, 0, 0⟩ := by decide

/-- V-FW8. -/
theorem test_fwFlushn : (after .fwFlushn (writerOn cfg0 0 0 [0x61])).dst = [0x61] ∧
    (after .fwFlushn (writerOn cfg0 0 1 [0x62])).dst = [] := by decide

/-- Program P3: unit 0001 0000 with four pad bits, then the payload. -/
theorem test_fwFlush : (after .fwFlush (writerOn cfg0 0x10 4 [0x41, 0x42, 0x43, 0x03, 0x06])).dst =
    [0x10, 0x41, 0x42, 0x43, 0x03, 0x06] ∧ (after .fwFlush (writerOn cfg0 0 0 [])).dst = [] := by decide

/-! ## Faults -/

/-- V-FLT3, V-SW8. -/
theorem test_fault_priority : answer (.swBcopy 0 1) State.reset = some ⟨6, 0x22, 0, 0⟩ ∧
    answer (.swWrb 0x61) State.reset = some ⟨6, 0x21, 0, 0⟩ := by decide

/-- V-FLT2. -/
theorem test_first_fault_wins : after (.swBcopy 0 1) faultedState =
    { faultedState with resp := some ⟨0xFF, 0x00020501, 2, 0x14⟩, cmdcnt := 1 } := by decide

/-! ## The assembler (R101, R102) -/

theorem test_asmLine : asmLine (.swBcopy 1 100) = "SW_BCOPY 1, 100" ∧ asmLine (.frRint true 4) = "FR_RINT.L 4" := by
  decide

theorem test_setc : expandPseudo (.setc 0x1000 3 18 0) =
    [.csrw 0x10 0x1000, .csrw 0x11 3, .csrw 0x12 18, .csrw 0x13 0] := by decide

/-- R173, R254: SW_WRITE of "ab" to an active window puts both bytes on SINK, one per step. -/
theorem test_swWrite : ((stepped { windowOn 16 0 [] with host := presentPseudo (.swWrite [0x61, 0x62]) }).bind stepped).map
    (fun t => (t.sink, t.host, t.cmdcnt)) = some ([0x61, 0x62], [], 2) := by decide

/-- R173: the first SW_WRB faults (SW idle), the others are not issued. The host's next command is refused. -/
theorem test_swWrite_stops : ((stepped
      { State.reset with host := presentPseudo (.swWrite [0x61, 0x62, 0x63]) ++ [.command ⟨0x34, 0, 0⟩] }).bind stepped).map
    (fun t => (t.host, t.cmdcnt, t.resp.map Response.st)) = some ([], 2, some 0xFF) := by decide

/-- R102: FW_PAYS is its expansion. -/
theorem test_fwPays : presentPseudo (.fwPays [1, 2]) = [.command ⟨0x43, 1, 0⟩, .command ⟨0x43, 2, 0⟩] := by decide

/-! ## Witnesses: the invariants hold in these states -/

theorem finderInv_start (level : Level) : FinderInv (finderOn level false abc9 3) where
  constraints := by intro _; exact (by decide : (1 ≤ 0x1000 ∧ 0x1000 ≤ 65536) ∧ 1 ≤ 3 ∧ 3 ≤ 18)
  lookAhead := by intro h; cases h
  inputWf := Memory.ofBytes_wf _ _
  index := by exact ⟨List.Pairwise.nil, by simp [finderOn], by simp [finderOn], Nat.zero_le _⟩
  list := by exact ⟨by simp [finderOn], List.Pairwise.nil⟩

theorem windowInv_one : WindowInv (windowOn 16 14 [0x41]) where
  ringWf := by decide
  pendBound := by decide
  sizeLegal := by decide
  producedOut := by decide
  ringTail := by
    intro _ d h1 _ h3
    have : d = 1 := Nat.le_antisymm h3 h1
    subst this
    decide
  ringExact := by
    intro _ i hi
    have hr : (windowOn 16 14 [0x41]).sw.ring = [(14, 0x41)] := by decide
    rw [hr] at hi
    by_cases h : 14 = i
    · exact ⟨1, by decide, by decide, by decide, by rw [← h]; decide⟩
    · simp [Memory.read, h, Memory.unlisted] at hi

theorem windowInv_idle : WindowInv State.reset where
  ringWf := by decide
  pendBound := by decide
  sizeLegal := by decide
  producedOut := by decide
  ringTail := by intro h; cases h
  ringExact := by intro h; cases h

theorem flagInv_reader (c : FlagCfg) (src : List Byte) : FlagInv (readerOn c src) where
  readerLeft := Nat.zero_le _
  readerAcc := Nat.two_pow_pos _
  writerCnt := (by decide : 0 < 8)
  writerAcc := by intro j h; simp [readerOn, State.reset, Fw.reset] at h
  auxBound := Nat.zero_le _
  cursor := Nat.zero_le _

theorem flagInv_writer : FlagInv (writerOn cfg0 0 1 [1]) where
  readerLeft := Nat.zero_le _
  readerAcc := Nat.two_pow_pos _
  writerCnt := by decide
  writerAcc := by intro j h; simp [writerOn, State.reset] at h
  auxBound := by decide
  cursor := Nat.zero_le _

/-- A reader whose source reaches past the limit of SRC.pos, with the cursor at that limit. -/
def readerAtLimit : State := { readerOn cfg0 (List.replicate 4294967296 0) with srcPos := 0xFFFFFFFF }

theorem readerAtLimit_length : readerAtLimit.src.length = 4294967296 := by
  show (List.replicate 4294967296 (0 : Byte)).length = _
  rw [List.length_replicate]

theorem readerAtLimit_srcPos : readerAtLimit.srcPos.toNat = 4294967295 := rfl

theorem flagInv_limit : FlagInv readerAtLimit where
  readerLeft := Nat.zero_le _
  readerAcc := Nat.two_pow_pos _
  writerCnt := (by decide : 0 < 8)
  writerAcc := by
    intro j h
    have h : (0 : Word).getLsbD j = true := h
    simp at h
  auxBound := Nat.zero_le _
  cursor := by
    rw [readerAtLimit_length]
    exact (by decide : (0xFFFFFFFF : Word).toNat ≤ 4294967296)

/-- A window of one byte whose counter has room for one more. -/
def windowAlmostFull : State :=
  { State.reset with
    sink := List.replicate 4294967294 0
    sw :=
      { active := true, winSize := 1, winStart := 0, produced := 0xFFFFFFFE, pend := [], ring := [(0, 0)] } }

theorem windowAlmostFull_out : windowAlmostFull.out = List.replicate 4294967294 0 := List.append_nil _

theorem windowInv_almostFull : WindowInv windowAlmostFull where
  ringWf := List.pairwise_singleton _ _
  pendBound := Nat.zero_le _
  sizeLegal := by intro _; exact (by decide : 1 ≤ (1 : Word).toNat ∧ (1 : Word).toNat ≤ 65536)
  producedOut := by
    rw [windowAlmostFull_out, List.length_replicate]
    exact (by decide : (0xFFFFFFFE : Word).toNat ≤ 4294967294)
  ringTail := by
    intro _ d h1 h2 _
    have hd : d = 1 := Nat.le_antisymm h2 h1
    subst hd
    rw [windowAlmostFull_out, List.length_replicate, List.getElem?_replicate]
    exact (by decide : Memory.read [(0, 0)] 0 = if 4294967294 - 1 < 4294967294 then some (0 : Byte) else none)
  ringExact := by
    intro _ i hi
    refine ⟨1, Nat.le_refl _, (by decide : 1 ≤ (1 : Word).toNat), (by decide : 1 ≤ (0xFFFFFFFE : Word).toNat), ?_⟩
    by_cases h : 0 = i
    · subst h
      exact (Nat.mod_one _).symm
    · have hi : (Memory.read [(0, 0)] i).isSome = true := hi
      simp [Memory.read, h, Memory.unlisted] at hi

/-! ## Witnesses: the hypotheses of each statement can be met, clause by clause -/

theorem test_witness_PowerOnEqualsResetCommand :
    ({ faultedState with host := [.powerOn] } : State).host = .powerOn :: [] := by decide

theorem test_witness_NopOnlyCounts : (⟨0x100, 0, 0⟩ : Cmd).w0.extractLsb' 0 8 = 0 ∧ (⟨0x100, 0, 0⟩ : Cmd) ≠ ⟨0, 0, 0⟩ := by
  decide

theorem test_witness_CsrwWritesOneRegister : faultedState.flt ≠ none ∧ State.reset.flt = none ∧ (7 : Word).toNat < 8 ∧
    ((14 : Word).toNat < 16 ∧ (14 : Word).toNat % 4 ≠ 3) ∧ (0x0F : Word).toNat < 0x10 ∧ 0x16 < (0x17 : Word).toNat ∧
    8 ≤ (8 : Word).toNat ∧ 16 ≤ (16 : Word).toNat ∧ (15 : Word).toNat % 4 = 3 := by decide

theorem test_witness_CsrrReturnsRegister :
    (let s := faultedState
     ((0x26 : Word).toNat, (0 : Word)) ∈
      [(0x00, 0x4C5A0001), (0x01, s.status), (0x02, s.finfo0), (0x03, s.finfo1), (0x04, s.cmdcnt),
       (0x10, s.csr.winSize), (0x11, s.csr.minLen), (0x12, s.csr.maxLen), (0x13, s.csr.winStart),
       (0x14, s.csr.mfCtrl.word), (0x15, s.csr.mfInlen), (0x16, s.csr.fcCfg.word),
       (0x20, BitVec.ofNat 32 s.mf.index.next), (0x21, BitVec.ofNat 32 s.mf.ml.length), (0x22, s.sw.produced),
       (0x23, s.srcPos), (0x24, BitVec.ofNat 32 s.fr.left), (0x25, BitVec.ofNat 32 s.fw.cnt),
       (0x26, BitVec.ofNat 32 s.fw.aux.length)]) ∧
    (0x27 : Word).toNat ∉ [0x00, 0x01, 0x02, 0x03, 0x04, 0x10, 0x11, 0x12, 0x13, 0x14, 0x15, 0x16, 0x20, 0x21, 0x22, 0x23,
      0x24, 0x25, 0x26] ∧ State.reset.flt = none ∧ faultedState.flt ≠ none := by decide

theorem test_witness_FaultedBlockRefuses : faultedState.flt ≠ none ∧ decode ⟨1, 0, 0⟩ = .ok .reset ∧
    decode ⟨0, 0, 0⟩ = .ok .nop ∧ (decode ⟨3, 0x26, 0⟩ = .ok (.csrr 0x26) ∧ faultedState.csrRead 0x26 = some 0) ∧
    (decode ⟨3, 0x27, 0⟩ = .ok (.csrr 0x27) ∧ faultedState.csrRead 0x27 = none) ∧
    decode ⟨0x10000, 0, 0⟩ = .rejected .reservedBits := by decide

theorem test_witness_IllFormedWordTraps :
    (∀ row ∈ tableRows, ¬matchesRow ⟨0x41, 2, 0⟩ row) ∧ State.reset.flt = none ∧ faultedState.flt ≠ none := by
  unfold matchesRow
  decide

theorem test_witness_IdleUnitRaisesBadSequence : State.reset.flt = none ∧
    ((Instr.mfFind 0).fields.opc.toNat = 0x11 ∧ (Instr.mfMread 0).fields.opc.toNat = 0x15 ∧
      State.reset.mf.active = false) ∧
    ((Instr.swWrb 0).fields.opc.toNat = 0x21 ∧ (Instr.swDispose true 0).fields.opc.toNat = 0x25 ∧
      State.reset.sw.active = false) ∧
    ((Instr.frRbit).fields.opc.toNat = 0x31 ∧ (Instr.frReset).fields.opc.toNat = 0x33 ∧
      State.reset.fr.active = false) ∧
    ((Instr.fwWbit 0).fields.opc.toNat = 0x41 ∧ (Instr.fwFlush).fields.opc.toNat = 0x45 ∧
      State.reset.fw.active = false) := by decide

theorem test_witness_OnlyResetLeavesTheFaultedState : faultedState.flt ≠ none ∧
    (stepped { faultedState with host := [.command ⟨0x06, 0, 0⟩] }).isSome = true ∧
    decode ⟨0x06, 0, 0⟩ ≠ .ok .reset := by decide

theorem test_witness_CommandCounterCountsEveryCommand :
    (∃ t, issue ⟨0x06, 0, 0⟩ { State.reset with cmdcnt := 0xFFFFFFFF } = .next t ∧ t.cmdcnt = 0) ∧
    decode ⟨0x06, 0, 0⟩ ≠ .ok .reset ∧ (∃ t, issue ⟨1, 0, 0⟩ faultedState = .next t) ∧ decode ⟨1, 0, 0⟩ = .ok .reset :=
  ⟨⟨_, rfl, rfl⟩, by decide, ⟨_, rfl⟩, by decide⟩

theorem test_witness_ParametersAndInputsHoldStill :
    (stepped { State.reset with host := [.command ⟨0x11, 0, 0⟩] }).isSome = true ∧ decode ⟨0x11, 0, 0⟩ ≠ .ok .reset ∧
    decode ⟨0x11, 0, 0⟩ ≠ .ok .mfInit := by decide

theorem test_witness_DecodeOfEncode : (Instr.fwWint true 0xFFFFFFFF 63).wellFormed = true := by decide

theorem test_witness_EncodeOfDecode : decode ⟨0x142, 0xFFFFFFFF, 63⟩ = .ok (.fwWint true 0xFFFFFFFF 63) := by decide

theorem test_witness_DecoderFollowsOpcodeTable : decode ⟨0, 0, 0⟩ = .ok .nop ∧
    ∃ row ∈ tableRows, matchesRow ⟨0, 0, 0⟩ row := by
  unfold matchesRow
  decide

theorem test_witness_WordNumberAndBytesAgree : 2 ^ 96 - 1 < 2 ^ 96 ∧ 11 < 12 := by decide

theorem test_witness_StepRunsTheDecodedCommand :
    ({ State.reset with host := [.command ⟨0x34, 0, 0⟩] } : State).host = .command ⟨0x34, 0, 0⟩ :: [] ∧
    decode ⟨0x34, 0, 0⟩ = .ok .srcRb ∧ State.reset.sw.pend = [] ∧
    ({ State.reset with host := [.untilFault [⟨0x34, 0, 0⟩, ⟨0, 0, 0⟩]] } : State).host =
      .untilFault (⟨0x34, 0, 0⟩ :: [⟨0, 0, 0⟩]) :: [] := by decide

theorem test_witness_MfInitChecksAndLatches : (csrOn 0 3 18).flt = none ∧ (csrOn 0 3 18).csr.winSize.toNat < 1 ∧
    (csrOn 0x10001 3 18).par.wmax < (csrOn 0x10001 3 18).csr.winSize.toNat ∧
    (1 ≤ (csrOn 0x10000 0 18).csr.winSize.toNat ∧
      (csrOn 0x10000 0 18).csr.winSize.toNat ≤ (csrOn 0x10000 0 18).par.wmax ∧ (csrOn 0x10000 0 18).csr.minLen = 0) ∧
    (1 ≤ (csrOn 1 3 2).csr.minLen.toNat ∧ (csrOn 1 3 2).csr.maxLen.toNat < (csrOn 1 3 2).csr.minLen.toNat) ∧
    (1 ≤ (csrOn 1 1 1).csr.minLen.toNat ∧ (csrOn 1 1 1).csr.minLen.toNat ≤ (csrOn 1 1 1).csr.maxLen.toNat) := by decide

/-- No match at 0; a match at 3 that stands; V-MF9: at 9 the look-ahead defers. -/
theorem test_witness_MfFindProbesAndInserts :
    State.reset.mf.active = false ∧
    (finderOn .optimal true abc9 3).mf.active = true ∧ (finderOn .optimal true abc9 3).mf.n.toNat ≤ (9 : Word).toNat ∧
    search Params.reference (finderOn .optimal true abc9 3).mf ⟨[], 0⟩ 0 9 = none ∧
    search Params.reference (finderOn .optimal true abc9 3).mf ⟨[2, 1, 0], 3⟩ 3 9 = some (3, 6) ∧
    search Params.reference (finderOn .optimal true abc9 3).mf ⟨[3, 2, 1, 0], 4⟩ 4 9 = some (3, 5) := by decide
theorem test_witness_MfFindProbesAndInserts_deferred :
    let m := (finderOn .optimal true [0x61, 0x62, 0x58, 0x62, 0x63, 0x64, 0x61, 0x62, 0x63, 0x64] 2).mf
    search Params.reference m ⟨[5, 4, 3, 2, 1, 0], 6⟩ 6 10 = some (6, 2) ∧
    search Params.reference m ⟨[6, 5, 4, 3, 2, 1, 0], 7⟩ 7 10 = some (4, 3) := by decide

theorem test_witness_MfFindReportsOnlyValidMatches : (finderOn .optimal false abc9 3).flt = none ∧
    (finderOn .optimal false abc9 3).mf.active = true ∧ FinderInv (finderOn .optimal false abc9 3) ∧
    (8 : Word).toNat < (finderOn .optimal false abc9 3).mf.n.toNat :=
  ⟨rfl, rfl, finderInv_start _, by decide⟩

/-- Level None; a position that is not keyable; no candidate; candidates. -/
theorem test_witness_SearchFindsLongestNearest :
    let m := (finderOn .smallestSize false abc9 3).mf
    ([3, 2, 1, 0].Pairwise (fun a b => b < a)) ∧ m.minLen.toNat ≤ m.maxLen.toNat ∧ 9 < 7 + m.minLen.toNat ∧
    6 + m.minLen.toNat ≤ 9 ∧ m.level ≠ .levelNone ∧
    (List.range 3).all (fun i => m.inputAt (3 + i) == m.inputAt (6 + i)) = true ∧
    (List.range 3).all (fun i => m.inputAt (2 + i) == m.inputAt (6 + i)) = false := by decide

theorem test_witness_LevelNoneFindsNothing : (finderOn .levelNone false abc9 3).flt = none ∧
    (finderOn .levelNone false abc9 3).mf.active = true ∧ (finderOn .levelNone false abc9 3).mf.level = .levelNone ∧
    (8 : Word).toNat < (finderOn .levelNone false abc9 3).mf.n.toNat := by decide

theorem test_witness_MfAddInsertsOnePosition : State.reset.mf.active = false ∧
    (finderOn .optimal false abc9 3).mf.n.toNat ≤ (9 : Word).toNat ∧
    (8 : Word).toNat < (finderOn .optimal false abc9 3).mf.n.toNat ∧
    (finderOn .optimal false abc9 3).mf.index.next ≤ (0 : Word).toNat ∧
    (4 : Word).toNat < (after (.mfAdd 4) (finderOn .optimal false abc9 3)).mf.index.next := by decide

theorem test_witness_MfAddrInsertsRange : State.reset.mf.active = false ∧ (finderOn .optimal false abc9 3).mf.active = true ∧
    (finderOn .optimal false abc9 3).mf.n.toNat < (9 : Word).toNat + (1 : Word).toNat ∧
    (9 : Word).toNat + (0 : Word).toNat ≤ (finderOn .optimal false abc9 3).mf.n.toNat ∧
    (finderOn .levelNone false abc9 3).mf.level = .levelNone ∧ (finderOn .optimal false abc9 3).mf.level ≠ .levelNone := by
  decide

theorem test_witness_MfFindallBuildsValidList : (finderOn .fastest false abc9 3).flt = none ∧
    (finderOn .fastest false abc9 3).mf.active = true ∧ FinderInv (finderOn .fastest false abc9 3) ∧
    (finderOn .fastest false abc9 3).par.Legal :=
  ⟨rfl, rfl, finderInv_start _, by decide⟩

theorem test_witness_StreamingEqualsWholeBuffer : FinderInv (finderOn .smallestSize false abc9 3) ∧
    (finderOn .smallestSize false abc9 3).mf.index = ⟨[], 0⟩ ∧
    (finderOn .smallestSize false abc9 3).mf.n.toNat < 2 * (finderOn .smallestSize false abc9 3).par.chunk :=
  ⟨finderInv_start _, by decide, by decide⟩
theorem test_witness_StreamingEqualsWholeBuffer_chunks :
    let s := { finderOn .smallestSize false abc9 3 with par := { Params.reference with chunk := 4 } }
    s.flt = none ∧ s.mf.active = true ∧ FinderInv s ∧ s.par.Legal ∧ (partition s.par s.mf.n.toNat)[1]? = some (4, 9) :=
  have h := finderInv_start .smallestSize
  ⟨rfl, rfl, ⟨h.constraints, h.lookAhead, h.inputWf, h.index, h.list⟩, by decide, by decide⟩

theorem test_witness_MfMreadReturnsRecord : State.reset.mf.active = false ∧
    (after .mfFindall (finderOn .optimal false abc9 3)).mf.active = true ∧
    (after .mfFindall (finderOn .optimal false abc9 3)).mf.ml[(0 : Word).toNat]? = some ⟨3, 3, 6⟩ ∧
    (after .mfFindall (finderOn .optimal false abc9 3)).mf.ml.length ≤ (1 : Word).toNat := by decide

theorem test_witness_PartitionCoversTheInput : 1 ≤ ({ Params.reference with chunk := 8 } : Params).chunk ∧
    partition { Params.reference with chunk := 8 } 18 = [(0, 8), (8, 18)] := by decide

theorem test_witness_SwInitStartsEmptyWindow : (csrOn 0 0 0).flt = none ∧ (csrOn 0 0 0).csr.winSize.toNat < 1 ∧
    (csrOn 0x10001 0 0).par.wmax < (csrOn 0x10001 0 0).csr.winSize.toNat ∧ 1 ≤ (csrOn 0x10000 0 0).csr.winSize.toNat ∧
    (csrOn 0x10000 0 0).csr.winSize.toNat ≤ (csrOn 0x10000 0 0).par.wmax := by decide

/-- A window whose counter is at a given value. -/
def windowAt (produced : Word) : State :=
  { windowOn 16 14 [0x41] with sw := { (windowOn 16 14 [0x41]).sw with produced := produced } }

theorem test_witness_SwWrbProducesOneByte : State.reset.flt = none ∧ State.reset.sw.active = false ∧
    (windowAt 0xFFFFFFFF).flt = none ∧ (windowAt 0xFFFFFFFF).sw.active = true ∧
    (windowAt 0xFFFFFFFF).sw.pend.length ≤ (windowAt 0xFFFFFFFF).par.swbuf ∧
    (windowAt 0xFFFFFFFF).sw.produced.toNat = 2 ^ 32 - 1 ∧ (windowAt 0xFFFFFFFE).sw.produced.toNat < 2 ^ 32 - 1 := by decide

theorem test_witness_BackCopyRepeatsTheWindow : (windowOn 16 14 [0x41]).flt = none ∧
    (windowOn 16 14 [0x41]).sw.active = true ∧ WindowInv (windowOn 16 14 [0x41]) ∧ 1 ≤ (1 : Word).toNat ∧
    (1 : Word).toNat ≤ (windowOn 16 14 [0x41]).sw.winSize.toNat ∧
    (1 : Word).toNat ≤ (windowOn 16 14 [0x41]).sw.produced.toNat ∧
    (windowOn 16 14 [0x41]).sw.produced.toNat + (0xFFFFFFFE : Word).toNat ≤ 2 ^ 32 - 1 :=
  ⟨rfl, rfl, windowInv_one, by decide, by decide, by decide, by decide⟩

theorem test_witness_BackCopyRejectsBadDistance : (windowOn 16 14 [0x41]).flt = none ∧
    (windowOn 16 14 [0x41]).sw.active = true ∧
    (windowOn 16 14 [0x41]).sw.pend.length ≤ (windowOn 16 14 [0x41]).par.swbuf ∧
    (windowOn 16 14 [0x41]).sw.winSize.toNat < (17 : Word).toNat ∧
    (windowOn 16 14 [0x41]).sw.produced.toNat < (2 : Word).toNat := by decide

theorem test_witness_BackCopyStopsAtTheCounterLimit : (windowAt 0xFFFFFFFF).flt = none ∧
    (windowAt 0xFFFFFFFF).sw.active = true ∧ 1 ≤ (16 : Word).toNat ∧
    (16 : Word).toNat ≤ (windowAt 0xFFFFFFFF).sw.winSize.toNat ∧
    (16 : Word).toNat ≤ (windowAt 0xFFFFFFFF).sw.produced.toNat ∧
    2 ^ 32 - 1 < (windowAt 0xFFFFFFFF).sw.produced.toNat + (1 : Word).toNat := by decide
theorem test_witness_BackCopyStopsAtTheCounterLimit_bytes : windowAlmostFull.flt = none ∧
    windowAlmostFull.sw.active = true ∧ 1 ≤ (1 : Word).toNat ∧ (1 : Word).toNat ≤ windowAlmostFull.sw.winSize.toNat ∧
    (1 : Word).toNat ≤ windowAlmostFull.sw.produced.toNat ∧
    2 ^ 32 - 1 < windowAlmostFull.sw.produced.toNat + (2 : Word).toNat ∧
    0 < 2 ^ 32 - 1 - windowAlmostFull.sw.produced.toNat ∧ WindowInv windowAlmostFull :=
  ⟨rfl, rfl, by decide, (by decide : (1 : Word).toNat ≤ (1 : Word).toNat),
    (by decide : (1 : Word).toNat ≤ (0xFFFFFFFE : Word).toNat),
    (by decide : 2 ^ 32 - 1 < (0xFFFFFFFE : Word).toNat + (2 : Word).toNat),
    (by decide : 0 < 2 ^ 32 - 1 - (0xFFFFFFFE : Word).toNat), windowInv_almostFull⟩

/-- V-SW5: slot 0 is 4 bytes back; with 3 bytes produced slot 3 is out of reach. -/
theorem test_witness_OffsetCopyIsABackCopy :
    1 ≤ (windowOn 4 0 [1, 2, 3, 4]).sw.winSize.toNat ∧ (windowOn 4 0 [1, 2, 3, 4]).sw.offsetDistance 0 = 4 ∧
    4 ≤ (windowOn 4 0 [1, 2, 3, 4]).sw.produced.toNat ∧ (windowOn 4 0 [1, 2, 3]).sw.offsetDistance 3 = 4 ∧
    (windowOn 4 0 [1, 2, 3]).sw.produced.toNat < 4 ∧
    (windowOn 4 0 [1, 2, 3]).sw.pend.length ≤ (windowOn 4 0 [1, 2, 3]).par.swbuf ∧
    (windowAt 0xFFFFFFFF).sw.offsetDistance 14 ≤ (windowAt 0xFFFFFFFF).sw.produced.toNat ∧
    2 ^ 32 - 1 < (windowAt 0xFFFFFFFF).sw.produced.toNat + (1 : Word).toNat := by decide

/-- All there; one byte short; the byte after the one that fits SW.produced is there. -/
theorem test_witness_CopyFromMovesSourceBytes :
    let s : State := { windowOn 16 0 [0x61] with src := [0x61, 0x62, 0x63], srcPos := 1 }
    let f : State := { windowAt 0xFFFFFFFE with src := [0x61, 0x62, 0x63], srcPos := 1 }
    s.flt = none ∧ s.sw.active = true ∧ s.srcPos.toNat ≤ s.src.length ∧ (2 : Word).toNat ≤ s.src.length - s.srcPos.toNat ∧
    s.src.length - s.srcPos.toNat < (3 : Word).toNat ∧
    s.src.length - s.srcPos.toNat ≤ 2 ^ 32 - 1 - s.sw.produced.toNat ∧
    s.src.length - s.srcPos.toNat ≤ 2 ^ 32 - 1 - s.srcPos.toNat ∧
    f.flt = none ∧ f.sw.active = true ∧ f.srcPos.toNat ≤ f.src.length ∧
    2 ^ 32 - 1 - f.sw.produced.toNat < (2 : Word).toNat ∧
    2 ^ 32 - 1 - f.sw.produced.toNat < f.src.length - f.srcPos.toNat ∧
    2 ^ 32 - 1 - f.sw.produced.toNat < 2 ^ 32 - 1 - f.srcPos.toNat := by decide

/-- A window beside a source whose cursor is at the limit of SRC.pos. -/
def copyAtLimit : State := { readerAtLimit with sw := (windowOn 16 0 [0x61]).sw }

theorem test_witness_CopyFromMovesSourceBytes_limit :
    copyAtLimit.flt = none ∧ copyAtLimit.sw.active = true ∧ copyAtLimit.srcPos.toNat ≤ copyAtLimit.src.length ∧
    2 ^ 32 - 1 - copyAtLimit.srcPos.toNat < (1 : Word).toNat ∧
    2 ^ 32 - 1 - copyAtLimit.srcPos.toNat < copyAtLimit.src.length - copyAtLimit.srcPos.toNat ∧
    2 ^ 32 - 1 - copyAtLimit.srcPos.toNat ≤ 2 ^ 32 - 1 - copyAtLimit.sw.produced.toNat := by
  have hp : copyAtLimit.srcPos.toNat = 4294967295 := rfl
  have hl : copyAtLimit.src.length = 4294967296 := readerAtLimit_length
  rw [hp, hl]
  exact ⟨rfl, rfl, by decide, by decide, by decide,
    (by decide : 2 ^ 32 - 1 - 4294967295 ≤ 2 ^ 32 - 1 - (windowOn 16 0 [0x61]).sw.produced.toNat)⟩

theorem test_witness_SwDisposeDrainsThenChecks : State.reset.sw.active = false ∧
    (windowOn 16 0 [1, 2, 3]).sw.active = true ∧ (5 : Word) ≠ 0 ∧ (4 : Word) ≠ (windowOn 16 0 [1, 2, 3]).sw.produced ∧
    (3 : Word) = (windowOn 16 0 [1, 2, 3]).sw.produced := by decide

/-- Room for all; room for one of two; SW idle. -/
theorem test_witness_SwWriteStopsAtAFault :
    ({ windowOn 16 14 [0x41] with host := presentPseudo (.swWrite [1, 2]) } : State).host =
      presentPseudo (.swWrite [1, 2]) ++ [] ∧
    (windowOn 16 14 [0x41]).flt = none ∧ (windowOn 16 14 [0x41]).sw.active = true ∧
    (windowOn 16 14 [0x41]).sw.pend.length ≤ (windowOn 16 14 [0x41]).par.swbuf ∧
    [(1 : Byte), 2].length ≤ 2 ^ 32 - 1 - (windowAt 0xFFFFFFFD).sw.produced.toNat ∧
    2 ^ 32 - 1 - (windowAt 0xFFFFFFFE).sw.produced.toNat < [(1 : Byte), 2].length ∧
    State.reset.sw.active = false ∧ [(1 : Byte)] ≠ [] := by decide

theorem test_witness_StepKeepsWindowInvariant : WindowInv (windowOn 16 14 [0x41]) ∧
    step (windowOn 16 14 [0x41]) = .next (windowOn 16 14 [0x41]) := ⟨windowInv_one, rfl⟩

theorem test_witness_SinkOnlyGrows : (stepped { windowOn 16 14 [0x41] with host := [.command ⟨0x21, 0x42, 0⟩] }).isSome = true ∧
    decode ⟨0x21, 0x42, 0⟩ ≠ .ok .reset ∧ decode ⟨0x21, 0x42, 0⟩ ≠ .ok .swInit := by decide

theorem test_witness_FrInitStartsEmptyReader : State.reset.flt = none := by decide

theorem test_witness_FrRbitReadsNextFlagBit : FlagInv (readerOn cfg0 [0x80]) ∧ FlagInv (readerOn cfg0 []) ∧
    flagStream (readerOn cfg0 [0x80]) = [true, false, false, false, false, false, false, false] ∧
    (readerOn cfg0 [0x80]).srcPos.toNat + cfg0.unit.bytes ≤ 2 ^ 32 - 1 ∧ flagStream (readerOn cfg0 []) = [] :=
  ⟨flagInv_reader _ _, flagInv_reader _ _, by decide, by decide, by decide⟩
theorem test_witness_FrRbitReadsNextFlagBit_limit : FlagInv readerAtLimit ∧ readerAtLimit.fr.active = true ∧
    readerAtLimit.fr.left = 0 ∧ readerAtLimit.srcPos.toNat + readerAtLimit.fr.cfg.unit.bytes ≤ readerAtLimit.src.length ∧
    2 ^ 32 - 1 < readerAtLimit.srcPos.toNat + readerAtLimit.fr.cfg.unit.bytes := by
  rw [readerAtLimit_srcPos, readerAtLimit_length]
  exact ⟨flagInv_limit, rfl, rfl, (by decide : 4294967295 + cfg0.unit.bytes ≤ 4294967296),
    (by decide : 2 ^ 32 - 1 < 4294967295 + cfg0.unit.bytes)⟩

/-- Above 32; all 32 bits there, in 4 units; the ninth bit not there. -/
theorem test_witness_FrRintComposesFlagBits : FlagInv (readerOn cfg0 [0x80, 0, 0, 0]) ∧ 32 < (33 : Word).toNat ∧
    (32 : Word).toNat ≤ 32 ∧ (32 : Word).toNat ≤ (flagStream (readerOn cfg0 [0x80, 0, 0, 0])).length ∧
    ((32 : Word).toNat - 0 + cfg0.bits - 1) / cfg0.bits ≤ (2 ^ 32 - 1 - (0 : Word).toNat) / cfg0.unit.bytes ∧
    (flagStream (readerOn cfg0 [0x80])).length < (9 : Word).toNat ∧
    ((readerOn cfg0 [0x80]).src.length - 0) / cfg0.unit.bytes ≤ (2 ^ 32 - 1 - (0 : Word).toNat) / cfg0.unit.bytes :=
  ⟨flagInv_reader _ _, by decide, by decide, by decide, by decide, by decide, by decide⟩
theorem test_witness_FrRintComposesFlagBits_limit : FlagInv readerAtLimit ∧ (1 : Word).toNat ≤ 32 ∧
    (2 ^ 32 - 1 - readerAtLimit.srcPos.toNat) / readerAtLimit.fr.cfg.unit.bytes <
      ((1 : Word).toNat - readerAtLimit.fr.left + readerAtLimit.fr.cfg.bits - 1) / readerAtLimit.fr.cfg.bits ∧
    (2 ^ 32 - 1 - readerAtLimit.srcPos.toNat) / readerAtLimit.fr.cfg.unit.bytes <
      (readerAtLimit.src.length - readerAtLimit.srcPos.toNat) / readerAtLimit.fr.cfg.unit.bytes := by
  rw [readerAtLimit_srcPos, readerAtLimit_length]
  exact ⟨flagInv_limit, by decide,
    (by decide : (2 ^ 32 - 1 - 4294967295) / cfg0.unit.bytes < ((1 : Word).toNat - 0 + cfg0.bits - 1) / cfg0.bits),
    (by decide : (2 ^ 32 - 1 - 4294967295) / cfg0.unit.bytes < (4294967296 - 4294967295) / cfg0.unit.bytes)⟩

theorem test_witness_FrResetDropsBits : State.reset.fr.active = false ∧ (readerOn cfg0 []).fr.active = true := by decide

theorem test_witness_SrcRbReadsNextByte :
    (readerOn cfg0 [7]).src[(readerOn cfg0 [7]).srcPos.toNat]? = some 7 ∧
    (readerOn cfg0 []).src.length = (readerOn cfg0 []).srcPos.toNat := by decide
theorem test_witness_SrcRbReadsNextByte_limit :
    let s : State := { State.reset with src := List.replicate 4294967296 0, srcPos := 0xFFFFFFFF }
    s.srcPos.toNat < s.src.length ∧ s.srcPos.toNat = 2 ^ 32 - 1 := by
  refine ⟨?_, rfl⟩
  show (0xFFFFFFFF : Word).toNat < (List.replicate 4294967296 (0 : Byte)).length
  rw [List.length_replicate]
  decide

theorem test_witness_FwInitStartsEmptyWriter : State.reset.flt = none := by decide

theorem test_witness_FwWbitWritesOneFlagBit : State.reset.fw.active = false ∧ (writerOn cfg0 0 6 []).fw.active = true ∧
    (writerOn cfg0 0 6 []).fw.cnt + 1 ≠ cfg0.bits ∧ (writerOn cfg0 0 7 []).fw.cnt + 1 = cfg0.bits := by decide

theorem test_witness_FwWintWritesItsBits : State.reset.fw.active = false ∧ (writerOn cfg0 0 0 []).flt = none ∧ (writerOn cfg0 0 0 []).fw.active = true ∧
    32 < (33 : Word).toNat ∧ (32 : Word).toNat ≤ 32 := by decide

theorem test_witness_FwPayAppendsPayload : State.reset.fw.active = false ∧ (writerOn cfg0 0 0 [1]).fw.active = true ∧
    (writerOn cfg0 0 0 [1]).fw.aux.length < (writerOn cfg0 0 0 [1]).par.auxmax ∧
    ({ Params.reference with auxmax := 1 } : Params).auxmax ≤ (writerOn cfg0 0 0 [1]).fw.aux.length := by decide

theorem test_witness_FwFlushnMovesPayloadAtBoundary : State.reset.fw.active = false ∧
    (writerOn cfg0 0 0 [1]).fw.active = true ∧ (writerOn cfg0 0 0 [1]).fw.cnt = 0 ∧
    (writerOn cfg0 0 1 [1]).fw.cnt ≠ 0 := by decide

theorem test_witness_FwFlushEmitsWhatWaits : State.reset.fw.active = false ∧ (writerOn cfg0 0 1 [1]).fw.active = true ∧
    0 < (writerOn cfg0 0 1 [1]).fw.cnt ∧ (writerOn cfg0 0 0 [1]).fw.cnt = 0 ∧ FlagInv (writerOn cfg0 0 1 [1]) ∧
    7 < cfg0.bits := ⟨by decide, by decide, by decide, by decide, flagInv_writer, by decide⟩

theorem test_witness_BitCodecRoundTrip : (writerOn cfg0 0 0 []).flt = none ∧ (writerOn cfg0 0 0 []).fw.active = true ∧
    (writerOn cfg0 0 0 []).fw.acc = 0 ∧ (writerOn cfg0 0 0 []).fw.cnt = 0 ∧ (writerOn cfg0 0 0 []).fw.aux = [] ∧
    (writerOn cfg0 0 0 []).dst = [] ∧ (readerOn cfg0 [0x80]).fr.cfg = cfg0 ∧ (readerOn cfg0 [0x80]).fr.left = 0 ∧
    (readerOn cfg0 [0x80]).srcPos = 0 ∧ [true] <+: flagStream (readerOn cfg0 [0x80]) := by decide

theorem test_witness_StepKeepsFinderInvariant : (finderOn .optimal false abc9 3).par.Legal ∧
    (finderOn .optimal false abc9 3).inbuf.wf ∧ FinderInv (finderOn .optimal false abc9 3) ∧
    step (finderOn .optimal false abc9 3) = .next (finderOn .optimal false abc9 3) :=
  ⟨by decide, by decide, finderInv_start _, rfl⟩

theorem test_witness_StepKeepsFlagInvariant : FlagInv (readerOn cfg0 [0x80]) ∧
    step (readerOn cfg0 [0x80]) = .next (readerOn cfg0 [0x80]) := ⟨flagInv_reader _ _, rfl⟩

end Sys2Proof.Tests
end

/-! # State, registers and reset: what every step keeps, and the system registers -/

namespace Sys2Proof.Machine

/-! ## The frame of a command's body -/

theorem nothing_state {i : Instr} (h : touches i = .nothing) (s : State) : (bodyOf i s).state = s := by
  cases i <;> simp only [touches, reduceCtorEq] at h
  case nop => rfl
  case reset => rfl
  case csrr csr => exact csrrOp_state csr s

theorem registers_state {i : Instr} (h : touches i = .registers) (s : State) :
    ∃ c, (bodyOf i s).state = { s with csr := c } := by
  cases i <;> simp only [touches, reduceCtorEq] at h
  case csrw csr value => exact csrwOp_state csr value s

/-- No body changes the parameters, what the host has in mind or supplies, SRC, the fault record, the response or the
counts. -/
theorem body_frame (i : Instr) (s : State) :
    (bodyOf i s).state = { s with
      csr := (bodyOf i s).state.csr, mf := (bodyOf i s).state.mf, sw := (bodyOf i s).state.sw,
      fr := (bodyOf i s).state.fr, fw := (bodyOf i s).state.fw, srcPos := (bodyOf i s).state.srcPos,
      sink := (bodyOf i s).state.sink, dst := (bodyOf i s).state.dst } := by
  cases h : touches i with
  | nothing => rw [nothing_state h]
  | registers => obtain ⟨c, e⟩ := registers_state h s; rw [e]
  | finder => obtain ⟨m, e⟩ := finder_state h s; rw [e]
  | window => obtain ⟨w, k, p, e⟩ := window_state h s; rw [e]
  | reader => obtain ⟨f, p, e⟩ := reader_state h s; rw [e]
  | writer => obtain ⟨f, d, e, -⟩ := writer_state h s; rw [e]

theorem body_par (i : Instr) (s : State) : (bodyOf i s).state.par = s.par := (congrArg State.par (body_frame i s) :)

theorem body_src (i : Instr) (s : State) : (bodyOf i s).state.src = s.src := (congrArg State.src (body_frame i s) :)

theorem body_cmdcnt (i : Instr) (s : State) : (bodyOf i s).state.cmdcnt = s.cmdcnt :=
  (congrArg State.cmdcnt (body_frame i s) :)

/-- Only the window's commands touch SW and SINK, and only the finder's touch MF. -/
theorem body_leaves (i : Instr) (s : State) :
    (touches i = .window ∨ ((bodyOf i s).state.sw = s.sw ∧ (bodyOf i s).state.sink = s.sink)) ∧
    (touches i = .finder ∨ (bodyOf i s).state.mf = s.mf) := by
  cases h : touches i with
  | nothing => rw [nothing_state h]; exact ⟨.inr ⟨rfl, rfl⟩, .inr rfl⟩
  | registers => obtain ⟨c, e⟩ := registers_state h s; rw [e]; exact ⟨.inr ⟨rfl, rfl⟩, .inr rfl⟩
  | finder => obtain ⟨m, e⟩ := finder_state h s; rw [e]; exact ⟨.inr ⟨rfl, rfl⟩, .inl rfl⟩
  | window => obtain ⟨w, k, p, e⟩ := window_state h s; rw [e]; exact ⟨.inl rfl, .inr rfl⟩
  | reader => obtain ⟨f, p, e⟩ := reader_state h s; rw [e]; exact ⟨.inr ⟨rfl, rfl⟩, .inr rfl⟩
  | writer => obtain ⟨f, d, e, -⟩ := writer_state h s; rw [e]; exact ⟨.inr ⟨rfl, rfl⟩, .inr rfl⟩

/-- Only MF_INIT latches the input (R137). -/
theorem body_input {i : Instr} (h : i ≠ .mfInit) (s : State) : (bodyOf i s).state.mf.input = s.mf.input := by
  rcases (body_leaves i s).2 with ht | hmf
  · cases i <;> simp only [touches, reduceCtorEq] at ht
    case mfInit => exact absurd rfl h
    case mfFind p => simp only [bodyOf, mfFindOp]; split <;> rfl
    case mfAdd p => simp only [bodyOf, mfAddOp]; split <;> rfl
    case mfAddr p n => simp only [bodyOf, mfAddrOp]; split <;> rfl
    case mfFindall => rfl
    case mfMread e => rfl
  · rw [hmf]

/-- A property of the state that a piece of pseudocode and everything that may follow it keep, the sequence keeps. -/
theorem Res.bind_keeps {α β : Type} {P : State → Prop} {r : Res α} {f : α → State → Res β} (hr : P r.state)
    (hf : ∀ a u, P u → P (f a u).state) : P (r.bind f).state := by
  cases r with
  | ok a u => exact hf a u hr
  | raise c i0 i1 u => exact hr

/-! ## What every step keeps -/

/-- `v` is `u` but for what ends a command (response, fault record, count) and what the host has in mind or supplies. -/
structure Outer (u v : State) : Prop where
  frame : v = { u with
    host := v.host, resp := v.resp, flt := v.flt, cmdcnt := v.cmdcnt, srcNext := v.srcNext, inbuf := v.inbuf }
  inbufWf : u.inbuf.wf → v.inbuf.wf

/-- The next step resets the block (R121, R250). -/
def ResetsNext (s : State) : Prop :=
  (∃ rest, s.host = .powerOn :: rest) ∨ ∃ c, s.nextWord = some c ∧ decode c = .ok .reset

theorem issue_keeps {P : State → Prop} {c : Cmd} {s t : State} (h : issue c s = .next t) (hs : P s)
    (outer : ∀ {u v}, Outer u v → P u → P v)
    (reset : decode c = .ok .reset → P (resetBlock s))
    (body : ∀ {i}, decode c = .ok i → s.flt = none → unitReady i s = true → P (bodyOf i s).state) : P t := by
  rcases issue_cases c s with ⟨hd, e⟩ | ⟨-, u, f, r, e, hu⟩
  · cases h.symm.trans e
    exact outer ⟨rfl, id⟩ (reset hd)
  · cases h.symm.trans e
    refine outer (u := u) ⟨rfl, id⟩ ?_
    rcases hu with rfl | ⟨i, hi, hf, hr, rfl⟩
    · exact hs
    · exact body hi hf hr

/-- A property that the drain, the end of a command, the host, a reset and the body of every command keep, a step keeps.
Only a step that resets the block asks for the reset, and a body is that of the command the step takes. -/
theorem step_keeps {P : State → Prop} {s t : State} (h : step s = .next t) (hs : P s)
    (drain : ∀ {u v}, Drained u v → P u → P v)
    (outer : ∀ {u v}, Outer u v → P u → P v)
    (reset : ResetsNext s → ∀ {u}, P u → P (resetBlock u))
    (body : ∀ {c i u}, s.nextWord = some c → decode c = .ok i → P u → u.flt = none → unitReady i u = true →
      P (bodyOf i u).state) : P t := by
  rcases step_cases h with ⟨-, hd⟩ | ⟨a, rest, u, v, hh, hu, hv, ht⟩
  · exact drain hd hs
  · have pu : P u := drain hu (outer ⟨rfl, id⟩ hs)
    refine drain ht ?_
    rcases hostAct_cases hv with ⟨c, w, hw, hc, e⟩ | ⟨rfl, rfl⟩ | ⟨-, -, e, hwf⟩
    · have hn : s.nextWord = some c := (nextWord_cons hh).trans hw
      have pw : P w := issue_keeps hc pu outer (fun hd => reset (.inr ⟨c, hn, hd⟩) pu) fun hi => body hn hi pu
      obtain ⟨l, rfl⟩ : ∃ l, v = { w with host := l } := ⟨_, e⟩
      exact outer ⟨rfl, id⟩ pw
    · exact reset (.inl ⟨rest, hh⟩) pu
    · obtain ⟨n, m, rfl⟩ : ∃ n m, v = { u with srcNext := n, inbuf := m } := ⟨_, _, e⟩
      exact outer ⟨rfl, hwf⟩ pu

/-- A value read from the state that the drain, the end of a command, the host, a reset and the body of every command
leave, a step leaves. -/
theorem step_keeps_value {α : Type} {g : State → α} {s t : State} (h : step s = .next t)
    (drain : ∀ {u v}, Drained u v → g v = g u) (outer : ∀ {u v}, Outer u v → g v = g u)
    (reset : ResetsNext s → ∀ u, g (resetBlock u) = g u)
    (body : ∀ {c i}, s.nextWord = some c → decode c = .ok i → ∀ u, g (bodyOf i u).state = g u) : g t = g s :=
  step_keeps (P := fun u => g u = g s) h rfl (fun hd hu => (drain hd).trans hu) (fun ho hu => (outer ho).trans hu)
    (fun hr {u} hu => (reset hr u).trans hu) fun {_ _ u} hn hd hu _ _ => (body hn hd u).trans hu

/-! ## The window's invariant (R43, R169, R170, R172) -/

/-- The window's invariant speaks of SW, SINK and the parameters only. -/
theorem WindowInv.congr {s t : State} (h : WindowInv s) (hsw : t.sw = s.sw) (hsink : t.sink = s.sink)
    (hpar : t.par = s.par) : WindowInv t := by
  have hout : t.out = s.out := by rw [State.out, hsw, hsink]; rfl
  constructor <;> simp only [hsw, hout, hpar]
  · exact h.ringWf
  · exact h.pendBound
  · exact h.sizeLegal
  · exact h.producedOut
  · exact h.ringTail
  · exact h.ringExact

theorem WindowInv.drainBy {s : State} (h : WindowInv s) (k : Nat) : WindowInv (drainBy k s) where
  ringWf := h.ringWf
  pendBound := Nat.le_trans (by simp [Machine.drainBy]) h.pendBound
  sizeLegal := h.sizeLegal
  producedOut := by rw [drainBy_out]; exact h.producedOut
  ringTail := by rw [drainBy_out]; exact h.ringTail
  ringExact := h.ringExact

/-- Deactivation leaves ring, counter and queue (R167). -/
theorem WindowInv.deactivate {s : State} (h : WindowInv s) : WindowInv (s.withSw { s.sw with active := false }) where
  ringWf := h.ringWf
  pendBound := h.pendBound
  sizeLegal := nofun
  producedOut := h.producedOut
  ringTail := nofun
  ringExact := nofun

/-- A window that has produced nothing. -/
theorem windowInv_empty {s : State} (hring : s.sw.ring = []) (hprod : s.sw.produced = 0) (hpend : s.sw.pend = [])
    (hsize : s.sw.active = true → 1 ≤ s.sw.winSize.toNat ∧ s.sw.winSize.toNat ≤ s.par.wmax) : WindowInv s where
  ringWf := by rw [hring]; exact Memory.wf_nil
  pendBound := by rw [hpend]; exact Nat.zero_le _
  sizeLegal := hsize
  producedOut := by rw [hprod]; exact Nat.zero_le _
  ringTail := by
    intro _ d h1 _ h3
    rw [hprod] at h3
    exact absurd (Nat.le_trans h1 h3) (by decide)
  ringExact := by
    intro _ i hi
    rw [hring] at hi
    cases hi

theorem windowInv_resetBlock (s : State) : WindowInv (resetBlock s) := windowInv_empty rfl rfl rfl nofun

/-- A window in use, with no bound on its queue: what holds between the bytes of one command. -/
structure LiveWindow (s : State) : Prop where
  ring : RingInv s
  sizeMax : s.sw.winSize.toNat ≤ s.par.wmax

theorem WindowInv.live {s : State} (h : WindowInv s) (ha : s.sw.active = true) : LiveWindow s :=
  ⟨h.ringInv ha, (h.sizeLegal ha).2⟩

theorem LiveWindow.settle {s : State} (h : LiveWindow s) : WindowInv (settle s) where
  ringWf := h.ring.ringWf
  pendBound := settle_pend s
  sizeLegal := fun _ => ⟨h.ring.sizePos, h.sizeMax⟩
  producedOut := by rw [settle_out]; exact h.ring.producedOut
  ringTail := by rw [settle_out]; exact fun _ => h.ring.ringTail
  ringExact := fun _ => h.ring.ringExact

theorem LiveWindow.put {s : State} (h : LiveWindow s) (b : Byte) : LiveWindow (put b s).state := by
  rcases Nat.lt_or_ge s.sw.produced.toNat posMax with hp | hp
  · rw [put_ok hp]; exact ⟨h.ring.put hp b, h.sizeMax⟩
  · rw [put_overflow hp]; exact h

theorem LiveWindow.srcNext {s : State} (h : LiveWindow s) (k : Nat) : LiveWindow (srcNext k s).state := by
  obtain ⟨p, e⟩ := srcNext_state k s
  obtain ⟨⟨hwf, hsize, hprod, htail, hexact⟩, hmax⟩ := h
  rw [e]
  exact ⟨⟨hwf, hsize, hprod, htail, hexact⟩, hmax⟩

theorem LiveWindow.copyLoop {s : State} (h : LiveWindow s) (d k : Nat) : LiveWindow (copyLoop d k s).state := by
  induction k generalizing s with
  | zero => exact h
  | succ k ih => exact Res.bind_keeps (h.put _) fun _ _ => ih

theorem LiveWindow.backCopy {s : State} (h : LiveWindow s) (d k : Nat) : LiveWindow (backCopy d k s).state := by
  unfold Machine.backCopy
  split
  · exact h
  · exact h.copyLoop d k

theorem LiveWindow.copyFromLoop {s : State} (h : LiveWindow s) (k : Nat) : LiveWindow (copyFromLoop k s).state := by
  induction k generalizing s with
  | zero => exact h
  | succ k ih =>
    exact Res.bind_keeps (h.srcNext 1) fun bytes _ hu => Res.bind_keeps (hu.put (bytes.headD 0)) fun _ _ => ih

theorem WindowInv.swInitOp {s : State} (h : WindowInv s) : WindowInv (swInitOp s).state := by
  unfold Machine.swInitOp
  split
  · exact h
  · next hsize => exact windowInv_empty rfl rfl rfl fun _ => Decidable.not_not.mp hsize

theorem WindowInv.swDisposeOp {s : State} (h : WindowInv s) (check : Bool) (expected : Word) :
    WindowInv (swDisposeOp check expected s).state := by
  have hidle := (h.drainBy s.sw.pend.length).deactivate
  unfold Machine.swDisposeOp
  split
  · exact h
  · dsimp only
    split <;> exact hidle

/-- Every command of the window whose unit is there keeps the window's invariant. -/
theorem WindowInv.window {i : Instr} (ht : touches i = .window) {s : State} (h : WindowInv s)
    (hr : unitReady i s = true) : WindowInv (bodyOf i s).state := by
  cases i <;> simp only [touches, reduceCtorEq] at ht
  case swInit => exact h.swInitOp
  case swWrb b => exact producing_state _ ▸ ((h.live hr).put _).settle
  case swBcopy d l => exact producing_state _ ▸ ((h.live hr).backCopy _ _).settle
  case swOcopy a l => exact producing_state _ ▸ ((h.live hr).backCopy _ _).settle
  case swCopyfrom l => exact producing_state _ ▸ ((h.live hr).copyFromLoop _).settle
  case swDispose check expected => exact h.swDisposeOp check expected

theorem WindowInv.body {i : Instr} {s : State} (h : WindowInv s) (hr : unitReady i s = true) :
    WindowInv (bodyOf i s).state := by
  rcases (body_leaves i s).1 with ht | ⟨hsw, hsink⟩
  · exact h.window ht hr
  · exact h.congr hsw hsink (body_par i s)

/-- Settles O42: the drain moves bytes within SINK followed by the queue, each byte produced keeps the ring's invariant,
and SW_INIT and a reset empty the window. -/
theorem stepKeepsWindowInvariant : Obligations.StepKeepsWindowInvariant := by
  intro s t hs h
  refine step_keeps h hs (fun hd hu => ?drain) (fun ho hu => ?outer) (fun _ {u} _ => windowInv_resetBlock u)
    fun _ _ hu _ hr => hu.body hr
  case drain =>
    obtain ⟨k, n, rfl⟩ := hd
    exact (hu.drainBy k).congr rfl rfl rfl
  case outer =>
    rw [ho.frame]
    exact hu.congr rfl rfl rfl

/-! ## The invariant of the flag codec and the streams (R44, R45, R65, R66) -/

/-- The invariant speaks of FR, FW, SRC, its cursor and the parameters only. -/
theorem FlagInv.congr {s t : State} (h : FlagInv s) (hfr : t.fr = s.fr) (hfw : t.fw = s.fw) (hpar : t.par = s.par)
    (hsrc : t.src = s.src) (hpos : t.srcPos = s.srcPos) : FlagInv t := by
  constructor <;> simp only [hfr, hfw, hpar, hsrc, hpos]
  · exact h.readerLeft
  · exact h.readerAcc
  · exact h.writerCnt
  · exact h.writerAcc
  · exact h.auxBound
  · exact h.cursor

theorem FlagInv.moveCursor {s : State} (h : FlagInv s) {p : Word} (hp : p.toNat ≤ s.src.length) :
    FlagInv (s.withSrcPos p) :=
  ⟨h.readerLeft, h.readerAcc, h.writerCnt, h.writerAcc, h.auxBound, hp⟩

theorem FlagInv.setReader {s : State} (h : FlagInv s) {f : Fr} (hleft : f.left ≤ f.cfg.bits)
    (hacc : f.acc.toNat < 2 ^ f.cfg.bits) : FlagInv (s.withFr f) :=
  ⟨hleft, hacc, h.writerCnt, h.writerAcc, h.auxBound, h.cursor⟩

/-- The part of the invariant that speaks of the flag writer. -/
structure WriterInv (par : Params) (f : Fw) : Prop where
  cnt : f.cnt < f.cfg.bits
  acc : ∀ j, f.acc.getLsbD j = true → ∃ k, k < f.cnt ∧ j = f.cfg.place k
  aux : f.aux.length ≤ par.auxmax

theorem FlagInv.writer {s : State} (h : FlagInv s) : WriterInv s.par s.fw := ⟨h.writerCnt, h.writerAcc, h.auxBound⟩

theorem FlagInv.setWriter {s : State} (h : FlagInv s) {f : Fw} (hf : WriterInv s.par f) (d : List Byte) :
    FlagInv { s with fw := f, dst := d } :=
  ⟨h.readerLeft, h.readerAcc, hf.cnt, hf.acc, hf.aux, h.cursor⟩

/-- A writer with no bit written and nothing waiting. -/
theorem writerInv_empty (par : Params) {f : Fw} (hacc : f.acc = 0) (hcnt : f.cnt = 0) (haux : f.aux = []) :
    WriterInv par f where
  cnt := by rw [hcnt]; exact f.cfg.bits_pos
  acc := by simp [hacc]
  aux := by simp [haux]

theorem flagInv_resetBlock (s : State) : FlagInv (resetBlock s) where
  readerLeft := Nat.zero_le _
  readerAcc := Nat.two_pow_pos _
  writerCnt := (writerInv_empty s.par (f := Fw.reset) rfl rfl rfl).cnt
  writerAcc := (writerInv_empty s.par (f := Fw.reset) rfl rfl rfl).acc
  auxBound := Nat.zero_le _
  cursor := Nat.zero_le _

theorem FlagInv.srcNext {s : State} (h : FlagInv s) (k : Nat) : FlagInv (srcNext k s).state := by
  rcases srcNext_cases k s with ⟨-, e⟩ | ⟨-, -, e⟩ | ⟨hle, hmax, e⟩ <;> rw [e]
  · exact h
  · exact h
  · exact h.moveCursor (by rw [wordOfNat_toNat hmax]; exact hle)

/-! ### The reader -/

/-- The value of the bytes of one unit fits the unit (R69). -/
theorem unitValue_fits (c : FlagCfg) {bytes : List Byte} (h : bytes.length = c.unit.bytes) :
    (wordOfNat (unitValue c.le bytes)).toNat < 2 ^ c.bits := by
  calc (wordOfNat (unitValue c.le bytes)).toNat
      ≤ unitValue c.le bytes := by rw [wordOfNat, BitVec.toNat_ofNat]; exact Nat.mod_le _ _
    _ < 256 ^ bytes.length := unitValue_lt c.le bytes
    _ = 2 ^ c.bits := by rw [h, c.bits_eq, Nat.pow_mul]

theorem FlagInv.refill {s : State} (h : FlagInv s) : FlagInv (refill s).state := by
  rcases Nat.lt_or_ge s.src.length (s.srcPos.toNat + s.fr.cfg.unit.bytes) with hend | hend
  · rw [refill_raise hend]; exact h
  · rcases Nat.lt_or_ge posMax (s.srcPos.toNat + s.fr.cfg.unit.bytes) with hmax | hmax
    · rw [refill_overflow hend hmax]; exact h
    · rw [refill_ok hend hmax]
      have hcur := h.moveCursor (p := wordOfNat (s.srcPos.toNat + s.fr.cfg.unit.bytes))
        (by rw [wordOfNat_toNat hmax]; exact hend)
      exact hcur.setReader (Nat.le_refl _) (unitValue_fits s.fr.cfg (by simp; omega))

theorem FlagInv.takeBit {s : State} (h : FlagInv s) : FlagInv (takeBit s).state :=
  h.setReader (Nat.le_trans (Nat.sub_le _ _) h.readerLeft) h.readerAcc

theorem FlagInv.nextBit {s : State} (h : FlagInv s) : FlagInv (nextBit s).state := by
  unfold Machine.nextBit
  split
  · exact Res.bind_keeps h.refill fun _ _ => FlagInv.takeBit
  · exact h.takeBit

theorem FlagInv.readInt {s : State} (h : FlagInv s) (lsbf : Bool) (k i v : Nat) :
    FlagInv (readInt lsbf k i v s).state := by
  induction k generalizing i v s with
  | zero => exact h
  | succ k ih => exact Res.bind_keeps h.nextBit fun _ _ hu => ih hu _ _

theorem FlagInv.reader {i : Instr} (ht : touches i = .reader) {s : State} (h : FlagInv s) :
    FlagInv (bodyOf i s).state := by
  have hzero : (0 : Word).toNat < 2 ^ s.fr.cfg.bits := Nat.two_pow_pos _
  cases i <;> simp only [touches, reduceCtorEq] at ht
  case frInit => exact h.setReader (Nat.zero_le _) (Nat.two_pow_pos _)
  case frRbit => exact Res.bind_keeps h.nextBit fun _ _ hu => hu
  case frRint lsbf bits =>
    simp only [bodyOf, frRintOp]
    split
    · exact h
    · exact Res.bind_keeps (h.readInt _ _ _ _) fun _ _ hu => hu
  case frReset => exact h.setReader (Nat.zero_le _) hzero
  case srcRb => exact Res.bind_keeps (h.srcNext 1) fun _ _ hu => hu

/-! ### The writer -/

/-- A bit that does not fill the unit sets at most its own place (R198). -/
theorem WriterInv.addBit {par : Params} {f : Fw} (h : WriterInv par f) (hroom : f.cnt + 1 ≠ f.cfg.bits) (b : Bool) :
    WriterInv par { f with acc := accWith b f, cnt := f.cnt + 1 } where
  cnt := Nat.lt_of_le_of_ne h.cnt hroom
  acc := by
    intro j hj
    have hcases : f.acc.getLsbD j = true ∨ j = f.cfg.place f.cnt := by
      cases b with
      | false => exact .inl hj
      | true =>
        simp only [accWith, if_true, setFlagBit, BitVec.getLsbD_or, Bool.or_eq_true, BitVec.getLsbD_twoPow,
          Bool.and_eq_true, decide_eq_true_eq] at hj
        exact hj.imp id fun hj => hj.2.symm
    rcases hcases with hold | hnew
    · obtain ⟨k, hk, e⟩ := h.acc j hold
      exact ⟨k, Nat.lt_succ_of_lt hk, e⟩
    · exact ⟨f.cnt, Nat.lt_succ_self _, hnew⟩
  aux := h.aux

theorem FlagInv.putBit {s : State} (h : FlagInv s) (b : Bool) : FlagInv (putBit b s) := by
  by_cases hfull : s.fw.cnt + 1 = s.fw.cfg.bits
  · rw [putBit_fills hfull]
    exact h.setWriter (writerInv_empty _ rfl rfl rfl) _
  · rw [putBit_room hfull]
    exact h.setWriter (h.writer.addBit hfull b) _

theorem FlagInv.putBits {s : State} (h : FlagInv s) (bs : List Bool) : FlagInv (putBits bs s) := by
  induction bs generalizing s with
  | nil => exact h
  | cons b bs ih => exact ih (h.putBit b)

theorem FlagInv.flushAux {s : State} (h : FlagInv s) : FlagInv (flushAux s) :=
  h.setWriter (f := { s.fw with aux := [] }) ⟨h.writerCnt, h.writerAcc, Nat.zero_le _⟩ _

theorem FlagInv.emitGroup {s : State} (h : FlagInv s) : FlagInv (emitGroup s) :=
  emitGroup_eq s ▸ h.setWriter (writerInv_empty _ rfl rfl rfl) _

theorem FlagInv.writerBody {i : Instr} (ht : touches i = .writer) {s : State} (h : FlagInv s) :
    FlagInv (bodyOf i s).state := by
  cases i <;> simp only [touches, reduceCtorEq] at ht
  case fwInit => exact h.setWriter (writerInv_empty _ rfl rfl rfl) s.dst
  case fwWbit b => exact h.putBit _
  case fwWint lsbf value bits =>
    simp only [bodyOf, fwWintOp]
    split
    · exact h
    · exact h.putBits _
  case fwPay byte =>
    simp only [bodyOf, fwPayOp]
    split
    · exact h
    · next hroom =>
      have haux : (s.fw.aux ++ [byteOperand byte]).length ≤ s.par.auxmax := by simp; omega
      exact h.setWriter (f := { s.fw with aux := s.fw.aux ++ [byteOperand byte] })
        ⟨h.writerCnt, h.writerAcc, haux⟩ s.dst
  case fwFlushn =>
    simp only [bodyOf, fwFlushnOp, Res.state_ok]
    split
    · exact h.flushAux
    · exact h
  case fwFlush =>
    simp only [bodyOf, fwFlushOp, Res.state_ok]
    split
    · exact h.emitGroup
    · split
      · exact h.flushAux
      · exact h

/-! ### The window's commands, which move the cursor -/

theorem FlagInv.put {s : State} (h : FlagInv s) (b : Byte) : FlagInv (put b s).state := by
  obtain ⟨w, e⟩ := put_state b s
  rw [e]
  exact h.congr rfl rfl rfl rfl rfl

theorem FlagInv.copyFromLoop {s : State} (h : FlagInv s) (k : Nat) : FlagInv (copyFromLoop k s).state := by
  induction k generalizing s with
  | zero => exact h
  | succ k ih =>
    exact Res.bind_keeps (h.srcNext 1) fun bytes _ hu => Res.bind_keeps (hu.put (bytes.headD 0)) fun _ _ => ih

theorem FlagInv.backCopy {s : State} (h : FlagInv s) (d k : Nat) : FlagInv (backCopy d k s).state := by
  obtain ⟨w, e⟩ := backCopy_state d k s
  rw [e]
  exact h.congr rfl rfl rfl rfl rfl

theorem FlagInv.settle {s : State} (h : FlagInv s) : FlagInv (settle s) := h.congr rfl rfl rfl rfl rfl

theorem FlagInv.window {i : Instr} (ht : touches i = .window) {s : State} (h : FlagInv s) :
    FlagInv (bodyOf i s).state := by
  cases i <;> simp only [touches, reduceCtorEq] at ht
  case swInit =>
    simp only [bodyOf, Machine.swInitOp]
    split
    · exact h
    · exact h.congr rfl rfl rfl rfl rfl
  case swWrb b => exact producing_state _ ▸ (h.put _).settle
  case swBcopy d l => exact producing_state _ ▸ (h.backCopy _ _).settle
  case swOcopy a l => exact producing_state _ ▸ (h.backCopy _ _).settle
  case swCopyfrom l => exact producing_state _ ▸ (h.copyFromLoop _).settle
  case swDispose check expected =>
    simp only [bodyOf, Machine.swDisposeOp]
    split
    · exact h
    · split <;> exact h.congr rfl rfl rfl rfl rfl

theorem FlagInv.body {s : State} (h : FlagInv s) (i : Instr) : FlagInv (bodyOf i s).state := by
  cases ht : touches i with
  | nothing => rw [nothing_state ht]; exact h
  | registers => obtain ⟨c, e⟩ := registers_state ht s; rw [e]; exact h.congr rfl rfl rfl rfl rfl
  | finder => obtain ⟨m, e⟩ := finder_state ht s; rw [e]; exact h.congr rfl rfl rfl rfl rfl
  | window => exact h.window ht
  | reader => exact h.reader ht
  | writer => exact h.writerBody ht

/-- Settles O57: a refill loads the value of one unit, a bit written sets its own place of a unit that is never left full,
and a read that would pass the end of SRC moves nothing. -/
theorem stepKeepsFlagInvariant : Obligations.StepKeepsFlagInvariant := by
  intro s t hs h
  refine step_keeps h hs (fun hd hu => ?drain) (fun ho hu => ?outer) (fun _ {u} _ => flagInv_resetBlock u)
    fun {_ i _} _ _ hu _ _ => hu.body i
  case drain =>
    rw [hd.frame]
    exact hu.congr rfl rfl rfl rfl rfl
  case outer =>
    rw [ho.frame]
    exact hu.congr rfl rfl rfl rfl rfl

/-! ## Parameters and inputs (R51, R264) -/

/-- Settles O16: the drain, the end of a command and every body leave the three values (the input, every body but that of
MF_INIT), and a reset leaves the parameters. -/
theorem parametersAndInputsHoldStill : Obligations.ParametersAndInputsHoldStill := by
  intro s t h
  refine ⟨?par, fun hpow hword => ?_⟩
  case par =>
    exact step_keeps_value h (fun hd => by rw [hd.frame]) (fun ho => by rw [ho.frame]) (fun _ _ => rfl)
      fun _ _ => body_par _
  have hreset : ¬ResetsNext s := by
    rintro (⟨rest, hp⟩ | ⟨c, hn, hd⟩)
    · exact hpow rest hp
    · exact hword c hn hd
  refine ⟨?src, fun hinit => ?input⟩
  case src =>
    exact step_keeps_value h (fun hd => by rw [hd.frame]) (fun ho => by rw [ho.frame]) (fun hr => absurd hr hreset)
      fun _ _ => body_src _
  case input =>
    exact step_keeps_value (g := fun u => u.mf.input) h (fun hd => by rw [hd.frame]) (fun ho => by rw [ho.frame])
      (fun hr => absurd hr hreset) fun {c i} hn hd => body_input fun hi => hinit c hn (hi ▸ hd)

/-! ## Idle units (R48, R106 step 4) -/

/-- The opcode ranges of R106 step 4. -/
theorem unitOf_of_opcode (i : Instr) :
    (0x11 ≤ i.fields.opc.toNat → i.fields.opc.toNat ≤ 0x15 → unitOf i = some .mf) ∧
    (0x21 ≤ i.fields.opc.toNat → i.fields.opc.toNat ≤ 0x25 → unitOf i = some .sw) ∧
    (0x31 ≤ i.fields.opc.toNat → i.fields.opc.toNat ≤ 0x33 → unitOf i = some .fr) ∧
    (0x41 ≤ i.fields.opc.toNat → i.fields.opc.toNat ≤ 0x45 → unitOf i = some .fw) := by
  cases i <;> simp [Instr.fields, unitOf]

theorem exec_idle {i : Instr} {s : State} {u : UnitId} (hf : s.flt = none) (hu : unitOf i = some u)
    (ha : s.unitActive u = false) : exec i s = .next (faultedBy i .badSequence (encode i).w0 s.status s) := by
  have hi : i ≠ .reset := by rintro rfl; cases hu
  rw [exec_eq_run hi]
  exact runCommand_idle hf (by simp only [unitReady, hu]; exact ha)

/-- Settles O11: each opcode range is the commands of one unit. -/
theorem idleUnitRaisesBadSequence : Obligations.IdleUnitRaisesBadSequence := by
  intro i s hf h
  obtain ⟨hmf, hsw, hfr, hfw⟩ := unitOf_of_opcode i
  rcases h with ⟨lo, hi, ha⟩ | ⟨lo, hi, ha⟩ | ⟨lo, hi, ha⟩ | ⟨lo, hi, ha⟩
  · exact exec_idle hf (hmf lo hi) ha
  · exact exec_idle hf (hsw lo hi) ha
  · exact exec_idle hf (hfr lo hi) ha
  · exact exec_idle hf (hfw lo hi) ha

/-! ## The registers (R30, R31, R40) -/

/-- CSRR of an existing CSR answers its value in every state, faulted or not (R123, R226). -/
theorem exec_csrr_existing {csr v : Word} {s : State} (h : s.csrRead csr.toNat = some v) :
    exec (.csrr csr) s = .next (replied v 0 0 s) := by
  have hr : runsWhileFaulted (.csrr csr) s = true := by simp [runsWhileFaulted, h]
  have hbody : bodyOf (.csrr csr) s = .ok (Reply.one v) s := by simp [bodyOf, csrrOp, h]
  rw [exec_eq_run (by simp)]
  rcases runCommand_cases (.csrr csr) (bodyOf (.csrr csr)) s with ⟨-, hn, -⟩ | ⟨-, hn, -⟩ | ⟨-, -, e⟩
  · exact absurd (hr.symm.trans hn) (by decide)
  · cases hn
  · rw [e, hbody, finish_ok]; rfl

/-- Every command word but RESET counts, whatever becomes of it (R40, R106 step 7). -/
theorem issue_cmdcnt {c : Cmd} {s t : State} (h : issue c s = .next t) (hd : decode c ≠ .ok .reset) :
    t.cmdcnt = s.cmdcnt + 1 := by
  rcases issue_cases c s with ⟨hr, -⟩ | ⟨-, u, f, r, e, hu⟩
  · exact absurd hr hd
  · cases h.symm.trans e
    rcases hu with rfl | ⟨i, -, -, -, rfl⟩
    · rfl
    · exact congrArg (· + 1) (body_cmdcnt i s)

/-- Settles O14: every word but RESET counts, a reset clears the count, and a CSRR answers before it is counted. -/
theorem commandCounterCountsEveryCommand : Obligations.CommandCounterCountsEveryCommand := by
  refine ⟨fun c s t h hd => ?_, fun c s t h hd => ?_, fun s => exec_csrr_existing rfl⟩
  · rw [issue_cmdcnt h hd, BitVec.toNat_add]; rfl
  · rw [issue_ok hd] at h
    cases h
    rfl

/-- Settles O7: ID exists in every state, so its CSRR is never refused. -/
theorem idRegisterIsConstant : Obligations.IdRegisterIsConstant :=
  ⟨fun _ => exec_csrr_existing rfl, by decide, by decide, by decide⟩

/-- Each bit of STATUS is a bit of one of its four byte fields (R31). -/
theorem getLsbD_status (s : State) (i : Nat) :
    s.status.getLsbD i =
      if i < 8 then s.statusLow.getLsbD i
      else if i < 16 then s.causeCode.getLsbD (i - 8)
      else if i < 24 then s.faultOpcode.getLsbD (i - 16)
      else false := by
  simp only [State.status, BitVec.getLsbD_append]
  by_cases h8 : i < 8
  · simp [h8]
  by_cases h16 : i < 16
  · simp [h8, h16, show i - 8 < 8 by omega]
  by_cases h24 : i < 24
  · simp [h8, h16, h24, show ¬i - 8 < 8 by omega, show i - 8 - 8 = i - 16 by omega, show i - 16 < 8 by omega]
  · simp [h8, h16, h24, show ¬i - 8 < 8 by omega, show ¬i - 8 - 8 < 8 by omega]

/-- The byte fields of STATUS (R31). -/
theorem status_bytes (s : State) :
    s.status.extractLsb' 8 8 = s.causeCode ∧ s.status.extractLsb' 16 8 = s.faultOpcode ∧
      s.status.extractLsb' 24 8 = 0 := by
  refine ⟨?_, ?_, ?_⟩ <;> ext i hi <;> rw [BitVec.getElem_extractLsb', getLsbD_status]
  · simp [show 8 + i < 16 by omega, show ¬8 + i < 8 by omega, BitVec.getLsbD_eq_getElem hi]
  · simp [show 16 + i < 24 by omega, show ¬16 + i < 8 by omega, show ¬16 + i < 16 by omega,
      BitVec.getLsbD_eq_getElem hi]
  · simp [show ¬24 + i < 8 by omega, show ¬24 + i < 16 by omega, show ¬24 + i < 24 by omega]

/-- The low byte of STATUS: FAULT, the four unit-active bits, and 0 above them (R31). -/
theorem statusLow_bits (s : State) :
    s.statusLow.getLsbD 0 = s.faulted ∧ s.statusLow.getLsbD 1 = s.mf.active ∧ s.statusLow.getLsbD 2 = s.sw.active ∧
    s.statusLow.getLsbD 3 = s.fr.active ∧ s.statusLow.getLsbD 4 = s.fw.active ∧
    s.statusLow.extractLsb' 5 3 = 0 := by
  unfold State.statusLow
  cases s.faulted <;> cases s.mf.active <;> cases s.sw.active <;> cases s.fr.active <;> cases s.fw.active <;> decide

/-- Settles O8: the bytes of STATUS, then the bits of its low byte. -/
theorem statusWordLayout : Obligations.StatusWordLayout := by
  refine ⟨fun s => ?_, rfl, rfl, rfl, rfl, rfl, rfl, rfl⟩
  obtain ⟨hfault, hmf, hsw, hfr, hfw, hzero⟩ := statusLow_bits s
  obtain ⟨hcause, hopc, hhigh⟩ := status_bytes s
  have low : ∀ i, i < 8 → s.status.getLsbD i = s.statusLow.getLsbD i := fun i hi => by rw [getLsbD_status, if_pos hi]
  refine ⟨(low 0 (by decide)).trans hfault, (low 1 (by decide)).trans hmf, (low 2 (by decide)).trans hsw,
    (low 3 (by decide)).trans hfr, (low 4 (by decide)).trans hfw, ?_, hcause.trans ?_, hopc.trans ?_, hhigh⟩
  · rw [← hzero]
    ext i hi
    rw [BitVec.getElem_extractLsb', BitVec.getElem_extractLsb', low _ (by omega)]
  · unfold State.causeCode
    cases s.flt <;> rfl
  · unfold State.faultOpcode
    cases s.flt <;> rfl

/-! ## The state after reset (R50) -/

/-- Idle units with nothing in them, the registers at 0 and no fault are the reset values, whatever the rest is. -/
theorem hasResetValues_of_reset {s : State} (hflt : s.flt = none) (hcnt : s.cmdcnt = 0) (hcsr : s.csr = Csr.reset)
    (hmf : s.mf = Mf.reset) (hsw : s.sw = Sw.reset) (hfr : s.fr = Fr.reset) (hfw : s.fw = Fw.reset)
    (hpos : s.srcPos = 0) (hsink : s.sink = []) (hdst : s.dst = []) : HasResetValues s where
  id := rfl
  registers := by
    have hstatus : s.status = 0 := by
      simp only [State.status, State.statusLow, State.faultOpcode, State.causeCode, State.faulted, hflt, hmf, hsw, hfr,
        hfw]
      decide
    simp only [List.forall_mem_cons, List.not_mem_nil, false_implies, implies_true, and_true, State.csrRead, hstatus,
      State.finfo0, State.finfo1, hflt, hcnt, hcsr, hmf, hsw, hfr, hfw, hpos]
    decide
  finder := by rw [hmf]; decide
  window := by rw [hsw]; decide
  ring := by rw [hsw]; exact Memory.read_nil
  reader := by rw [hfr]; decide
  writer := by rw [hfw]; decide
  streams := ⟨hpos, hsink, hdst⟩

/-- Settles O1: the three states agree on all that the table names. -/
theorem resetStateHoldsResetValues : Obligations.ResetStateHoldsResetValues :=
  ⟨hasResetValues_of_reset rfl rfl rfl rfl rfl rfl rfl rfl rfl rfl,
    fun _ => ⟨_, rfl, hasResetValues_of_reset rfl rfl rfl rfl rfl rfl rfl rfl rfl rfl⟩,
    fun _ => ⟨_, rfl, hasResetValues_of_reset rfl rfl rfl rfl rfl rfl rfl rfl rfl rfl⟩⟩

/-- A finder right after a reset: idle, with an empty index and an empty list. -/
theorem finderInv_resetBlock (s : State) : FinderInv (resetBlock s) where
  constraints := nofun
  lookAhead := nofun
  inputWf := Memory.wf_nil
  index := validIndex_empty _ _
  list := ⟨nofun, List.Pairwise.nil⟩

/-- Settles O58: `State.reset` is the reset of itself. -/
theorem resetMeetsInvariants : Obligations.ResetMeetsInvariants where
  params := by decide
  inbufWf := Memory.wf_nil
  window := windowInv_resetBlock State.reset
  finder := finderInv_resetBlock State.reset
  flags := flagInv_resetBlock State.reset

end Sys2Proof.Machine

/-! # Memory spaces and the step: SINK only grows, and a step runs the command its word decodes to -/

namespace Sys2Proof.Machine

/-! ## SINK and the window's queue (R67, R77, R172) -/

section
variable {P : State → Prop}

/-- A property that each byte produced keeps, the loop of R164 keeps. -/
theorem copyLoop_keeps (hput : ∀ b {u}, P u → P (put b u).state) (d k : Nat) {s : State} (hs : P s) :
    P (copyLoop d k s).state := by
  induction k generalizing s with
  | zero => exact hs
  | succ k ih => exact Res.bind_keeps (hput _ hs) fun _ _ => ih

theorem backCopy_keeps (hput : ∀ b {u}, P u → P (put b u).state) (d k : Nat) {s : State} (hs : P s) :
    P (backCopy d k s).state := by
  unfold backCopy
  split
  · exact hs
  · exact copyLoop_keeps hput d k hs

/-- A property that each byte produced and a move of the cursor keep, the loop of R166 keeps. -/
theorem copyFromLoop_keeps (hput : ∀ b {u}, P u → P (put b u).state) (hcursor : ∀ p {u}, P u → P (u.withSrcPos p))
    (k : Nat) {s : State} (hs : P s) : P (copyFromLoop k s).state := by
  induction k generalizing s with
  | zero => exact hs
  | succ k ih =>
    have hread : P (srcNext 1 s).state := by
      obtain ⟨p, e⟩ := srcNext_state 1 s
      rw [e]
      exact hcursor p hs
    exact Res.bind_keeps hread fun _ _ hu => Res.bind_keeps (hput _ hu) fun _ _ => ih

/-- A property that each byte produced, a move of the cursor, the drain and the deactivation of SW keep, every command of
the window but SW_INIT keeps. -/
theorem window_keeps {i : Instr} (ht : touches i = .window) (hi : i ≠ .swInit)
    (hput : ∀ b {u}, P u → P (put b u).state) (hcursor : ∀ p {u}, P u → P (u.withSrcPos p))
    (hdrain : ∀ k {u}, P u → P (drainBy k u)) (hidle : ∀ {u}, P u → P (u.withSw { u.sw with active := false }))
    {s : State} (hs : P s) : P (bodyOf i s).state := by
  have settled : ∀ {r : Res Unit}, P r.state → P (producing r).state := fun hr => producing_state _ ▸ hdrain _ hr
  cases i <;> simp only [touches, reduceCtorEq] at ht
  case swInit => exact absurd rfl hi
  case swWrb b => exact settled (hput _ hs)
  case swBcopy d l => exact settled (backCopy_keeps hput _ _ hs)
  case swOcopy a l => exact settled (backCopy_keeps hput _ _ hs)
  case swCopyfrom l => exact settled (copyFromLoop_keeps hput hcursor _ hs)
  case swDispose check expected =>
    have hdone := hidle (hdrain s.sw.pend.length hs)
    simp only [bodyOf, swDisposeOp]
    split
    · exact hs
    · split <;> exact hdone

end

/-- From `s` to `t` no byte of SINK, and none of SINK followed by the queue, is lost or moved. -/
structure Grows (s t : State) : Prop where
  sink : s.sink <+: t.sink
  out : s.out <+: t.out

theorem Grows.refl (s : State) : Grows s s := ⟨List.prefix_refl _, List.prefix_refl _⟩

/-- Growth speaks of SINK and the queue only. -/
theorem Grows.congr {s t u : State} (h : Grows s t) (hsink : u.sink = t.sink) (hpend : u.sw.pend = t.sw.pend) :
    Grows s u where
  sink := hsink ▸ h.sink
  out := by
    have hout : u.out = t.out := by rw [State.out, State.out, hsink, hpend]
    exact hout ▸ h.out

/-- A byte produced goes to the end of the queue (R67, R161). -/
theorem Grows.put {s t : State} (h : Grows s t) (b : Byte) : Grows s (put b t).state := by
  rcases Nat.lt_or_ge t.sw.produced.toNat posMax with hp | hp
  · rw [put_ok hp]
    exact ⟨h.sink, h.out.trans (putState_out b t ▸ List.prefix_append _ _)⟩
  · rw [put_overflow hp]
    exact h

/-- The drain moves the oldest pending bytes to the end of SINK (R172). -/
theorem Grows.drainBy {s t : State} (h : Grows s t) (k : Nat) : Grows s (drainBy k t) :=
  ⟨h.sink.trans (drainBy_sink k t), by rw [drainBy_out]; exact h.out⟩

/-- No command loses a byte, but for SW_INIT, which throws the queue away. -/
theorem grows_body {i : Instr} (hi : i ≠ .swInit) (s : State) : Grows s (bodyOf i s).state := by
  rcases (body_leaves i s).1 with ht | ⟨hsw, hsink⟩
  · exact window_keeps ht hi (fun b _ h => h.put b) (fun _ _ h => h.congr rfl rfl) (fun k _ h => h.drainBy k)
      (fun h => h.congr rfl rfl) (Grows.refl s)
  · exact (Grows.refl s).congr hsink (congrArg Sw.pend hsw)

theorem swInitOp_sink (s : State) : (swInitOp s).state.sink = s.sink := by
  unfold swInitOp
  split <;> rfl

/-- SW_INIT throws away only what is not yet in SINK, so SINK grows under every command. -/
theorem body_sink_grows (i : Instr) (s : State) : s.sink <+: (bodyOf i s).state.sink := by
  by_cases hi : i = .swInit
  · subst hi
    exact (swInitOp_sink s).symm ▸ List.prefix_refl _
  · exact (grows_body hi s).sink

/-- Settles O43: the drain moves bytes from the front of the queue to the end of SINK, a command adds bytes at the end of
the queue, and only SW_INIT and a reset remove any. -/
theorem sinkOnlyGrows : Obligations.SinkOnlyGrows := by
  intro s t h hpow hword
  have hreset : ¬ResetsNext s := by
    rintro (⟨rest, hp⟩ | ⟨c, hn, hd⟩)
    · exact hpow rest hp
    · exact hword c hn hd
  refine ⟨?sink, fun hinit => ?out⟩
  case sink =>
    exact step_keeps (P := fun u => s.sink <+: u.sink) h (List.prefix_refl _) (fun hd hu => hu.trans hd.sink)
      (fun ho hu => by rw [ho.frame]; exact hu) (fun hr => absurd hr hreset)
      fun _ _ hu _ _ => hu.trans (body_sink_grows _ _)
  case out =>
    exact step_keeps (P := fun u => s.out <+: u.out) h (List.prefix_refl _) (fun hd hu => hd.out ▸ hu)
      (fun ho hu => by rw [ho.frame]; exact hu) (fun hr => absurd hr hreset)
      fun {c _ _} hn hd hu _ _ => hu.trans (grows_body (fun hi => hinit c hn (hi ▸ hd)) _).out

/-! ## The command that a step runs (R75, R106, R173) -/

theorem freeDrain_empty {s : State} (h : s.sw.pend = []) : freeDrain s = s := by
  simp only [freeDrain, h]

theorem isFault_iff (r : Response) : r.isFault = true ↔ r.st ≠ 0 ∧ r.st ≠ 0xFF := by
  simp [Response.isFault]

/-- After a fault the rest of the sequence is left out (R173). -/
theorem goOn_fault {cs : List Cmd} {s : State} {r : Response} (hr : s.resp = some r) (hf : r.isFault = true) :
    goOn cs s = s := by
  simp [goOn, hr, hf]

/-- Otherwise the rest of the sequence is what the host does next. -/
theorem goOn_noFault {cs : List Cmd} {s : State} {r : Response} (hr : s.resp = some r) (hf : ¬r.isFault = true) :
    goOn cs s = { s with host := untilFaultActs cs ++ s.host } := by
  simp [goOn, hr, hf, State.withHost]

/-- A step that takes a single word runs its command between two drains. -/
theorem step_command {s : State} {c : Cmd} {rest : List HostAct} {i : Instr} (hh : s.host = .command c :: rest)
    (hd : decode c = .ok i) : step s = drainAfter (exec i (freeDrain { s with host := rest })) := by
  rw [step_acts hh, hostAct, issue_ok hd]
  rfl

/-- A step that takes the first word of a sequence runs its command between two drains, then goes on or stops. -/
theorem step_untilFault {s t : State} {c : Cmd} {cs : List Cmd} {rest : List HostAct} {i : Instr}
    (hh : s.host = .untilFault (c :: cs) :: rest) (hd : decode c = .ok i)
    (ht : exec i (freeDrain { s with host := rest }) = .next t) : step s = .next (freeDrain (goOn cs t)) := by
  rw [step_acts hh, hostAct, issueFirst, issue_ok hd]
  exact congrArg (fun o => drainAfter (mapNext (goOn cs) o)) ht

/-- Settles O22: the step is the drain, the command's meaning and the drain again; after the first word of a sequence the
response says whether the words that follow stay. -/
theorem stepRunsTheDecodedCommand : Obligations.StepRunsTheDecodedCommand := by
  refine ⟨fun s c rest i hh hd => ⟨step_command hh hd, fun hp => ?empty⟩, fun s c cs rest i hh hd => ?sequence⟩
  case empty =>
    have hidle : freeDrain { s with host := rest } = { s with host := rest } := freeDrain_empty hp
    rw [step_command hh hd, hidle]
  case sequence =>
    obtain ⟨t, ht⟩ := exec_next i (freeDrain { s with host := rest })
    refine ⟨t, ht, ?stops, ?goesOn⟩
    case stops =>
      rintro ⟨r, hr, hst⟩
      rw [step_untilFault hh hd ht, goOn_fault hr ((isFault_iff r).mpr hst)]
    case goesOn =>
      rintro ⟨r, hr, hst⟩
      have hf : ¬r.isFault = true := by
        rw [isFault_iff]
        exact fun ⟨hne, hnr⟩ => hst.elim hne hnr
      rw [step_untilFault hh hd ht, goOn_noFault hr hf]

end Sys2Proof.Machine

/-! # Commands and their words: the encoder, the decoder, the opcode table and the byte form -/

namespace Sys2Proof

/-! ## The encoder and the decoder are inverse (R92, R93, R97 to R99) -/

/-- What each format asks of MOD, A and B (R92): a field it does not use is 0, MOD is the byte of its flag where it has one,
and a narrow operand stays in its width. -/
def Format.Admits (f : Fields) : Format → Prop
  | .z => f.mod = 0 ∧ f.a = 0 ∧ f.b = 0
  | .a => f.mod = 0 ∧ f.b = 0
  | .a8 => f.mod = 0 ∧ f.a.toNat < 256 ∧ f.b = 0
  | .a1 => f.mod = 0 ∧ f.a.toNat < 2 ∧ f.b = 0
  | .a6m => modOf f.flag = f.mod ∧ f.a.toNat < 64 ∧ f.b = 0
  | .am => modOf f.flag = f.mod ∧ f.b = 0
  | .ab => f.mod = 0
  | .a8b => f.mod = 0 ∧ f.a.toNat < 256
  | .ab6m => modOf f.flag = f.mod ∧ f.b.toNat < 64

theorem modOf_flag_iff (f : Fields) : f.mod.toNat < 2 ↔ modOf f.flag = f.mod :=
  ⟨modOf_getLsbD, fun h => h ▸ modOf_lt f.flag⟩

theorem Format.violation_eq_none_iff_admits (fmt : Format) (f : Fields) :
    fmt.violation f = none ↔ f.rsv = 0 ∧ fmt.Admits f := by
  rw [Format.violation_eq_none]
  cases fmt <;>
    simp only [Format.Admits, Format.modUsed, Format.aUsed, Format.bUsed, unused_byte, unused_word, uses_flag,
      modOf_flag_iff, uses_one_bit, uses_six_bits, uses_byte, uses_word, true_and, and_true, -BitVec.reduceNot]

/-- What ties a row of the opcode map to the encoder and to the mnemonics: a command it builds meets its format exactly when
it is well formed, fields that meet its format are those of the command it builds from them, and its commands have one
mnemonic. -/
structure RowAgrees (opc : BitVec 8) (fmt : Format) (build : Fields → Instr) : Prop where
  wellFormed_iff : ∀ f, (build f).wellFormed = true ↔ fmt.violation (build f).fields = none
  fields_build : ∀ f, f.opc = opc → fmt.violation f = none → (build f).fields = f
  tableName_build : ∀ f g, Machine.tableName (build f) = Machine.tableName (build g)

/-- The flag of encoded fields is the one the encoder was given. -/
@[simp] theorem flag_modOf (opc : BitVec 8) (flag : Bool) (rsv : BitVec 16) (a b : Word) :
    (Fields.mk opc (modOf flag) rsv a b).flag = flag := getLsbD_modOf flag

theorem opcodeRow_agrees {opc : BitVec 8} {fmt : Format} {build : Fields → Instr}
    (h : opcodeRow opc = some (fmt, build)) : RowAgrees opc fmt build := by
  unfold opcodeRow at h
  split at h <;> cases h
  all_goals
    next hopc =>
    refine ⟨fun f => ?wellFormed, fun ⟨_, mod, rsv, a, b⟩ ho hv => ?fields, fun f g => rfl⟩
    case wellFormed =>
      simp [Format.violation_eq_none_iff_admits, Format.Admits, Instr.wellFormed, Instr.fields, fitsByte, fitsBit,
        fitsSixBits]
    case fields =>
      obtain ⟨hrsv, hadm⟩ := (Format.violation_eq_none_iff_admits _ _).mp hv
      cases ho
      simp only [Format.Admits, Fields.flag] at hadm hrsv
      simp only [Instr.fields, Fields.flag, hadm, hrsv, Fields.mk.injEq, and_true]
      exact BitVec.eq_of_toNat_eq hopc.symm

section
open Laws.EncodingShape

/-- Every command has the shape that Laws/PerInstr.lean states of its constructor. -/
theorem encodingShape (i : Instr) : Statement i := by
  cases i
  exacts [nop, reset, csrw _ _, csrr _, mfInit, mfFind _, mfAdd _, mfAddr _ _, mfFindall, mfMread _, swInit, swWrb _,
    swBcopy _ _, swOcopy _ _, swCopyfrom _, swDispose _ _, frInit, frRbit, frRint _ _, frReset, srcRb, fwInit, fwWbit _,
    fwWint _ _ _, fwPay _, fwFlushn, fwFlush]

end

/-- Settles O17: the row of the command's own opcode builds it back, and its fields meet the row's format since it is well
formed. -/
theorem decodeOfEncode : Obligations.DecodeOfEncode := by
  intro i hwf
  obtain ⟨-, -, fmt, build, hrow, hb⟩ := encodingShape i
  rw [← hb, (opcodeRow_agrees hrow).wellFormed_iff, hb] at hwf
  rw [decode_eq_ok, encode_fields]
  exact ⟨fmt, build, hrow, hwf, hb⟩

/-- Settles O18: fields that meet the format of their row are the fields of the command, and they are all of the word. -/
theorem encodeOfDecode : Obligations.EncodeOfDecode := by
  intro c i h
  obtain ⟨fmt, build, hrow, hv, rfl⟩ := decode_eq_ok.mp h
  have hrow := opcodeRow_agrees hrow
  have hf : (build c.fields).fields = c.fields := hrow.fields_build _ rfl hv
  exact ⟨(hrow.wellFormed_iff _).mpr (by rwa [hf]), by rw [encode, hf, Cmd.cmd_fields]⟩

end Sys2Proof

namespace Sys2Proof.Machine

/-! ## The opcode table (R98) -/

/-- The fields of the mask of a format's rows: every bit of OPC and RSV, and the bits of MOD, A and B that the format does
not use. -/
def maskFields (fmt : Format) : Fields := ⟨0xFF, ~~~fmt.modUsed, 0xFFFF, ~~~fmt.aUsed, ~~~fmt.bUsed⟩

/-- The table row that the opcode map gives an opcode. -/
def rowOf (opc : BitVec 8) : Option (String × Cmd × Cmd) :=
  (opcodeRow opc).map fun (fmt, build) =>
    (tableName (build ⟨opc, 0, 0, 0, 0⟩), Fields.cmd ⟨opc, 0, 0, 0, 0⟩, (maskFields fmt).cmd)

theorem rowOf_opcode_of_mem : ∀ row ∈ tableRows, rowOf row.2.1.fields.opc = some row := by decide

theorem mem_of_rowOf : ∀ opc, ∀ row ∈ rowOf opc, row ∈ tableRows := by decide

/-- The rows of opcode_table.json are the rows of the opcode map, written out. -/
theorem mem_tableRows {row : String × Cmd × Cmd} :
    row ∈ tableRows ↔ ∃ opc fmt build, opcodeRow opc = some (fmt, build) ∧
      (tableName (build ⟨opc, 0, 0, 0, 0⟩), Fields.cmd ⟨opc, 0, 0, 0, 0⟩, (maskFields fmt).cmd) = row := by
  have h : row ∈ tableRows ↔ ∃ opc, rowOf opc = some row :=
    ⟨fun h => ⟨_, rowOf_opcode_of_mem row h⟩, fun ⟨opc, h⟩ => mem_of_rowOf opc row h⟩
  simp only [h, rowOf, Option.map_eq_some_iff, Prod.exists]

theorem eq_cmd_iff (c : Cmd) (f : Fields) : c = f.cmd ↔ c.fields = f :=
  ⟨fun h => h ▸ Fields.fields_cmd f, fun h => h ▸ (Cmd.cmd_fields c).symm⟩

/-- `w AND mask = match`, field by field. -/
theorem matchesRow_iff_fields (c : Cmd) (name : String) (f m : Fields) :
    matchesRow c (name, f.cmd, m.cmd) ↔
      (⟨c.fields.opc &&& m.opc, c.fields.mod &&& m.mod, c.fields.rsv &&& m.rsv, c.fields.a &&& m.a,
        c.fields.b &&& m.b⟩ : Fields) = f := by
  have hand : (Cmd.mk (c.w0 &&& m.cmd.w0) (c.w1 &&& m.cmd.w1) (c.w2 &&& m.cmd.w2)).fields =
      ⟨c.fields.opc &&& m.cmd.fields.opc, c.fields.mod &&& m.cmd.fields.mod, c.fields.rsv &&& m.cmd.fields.rsv,
        c.fields.a &&& m.cmd.fields.a, c.fields.b &&& m.cmd.fields.b⟩ := by
    simp only [Cmd.fields, BitVec.extractLsb'_and]
  rw [Fields.fields_cmd] at hand
  rw [← hand, ← eq_cmd_iff, Cmd.mk.injEq]
  rfl

/-- A word matches a row of the table exactly when it has the row's opcode and meets the row's format. -/
theorem matchesRow_iff (c : Cmd) (name : String) (opc : BitVec 8) (fmt : Format) :
    matchesRow c (name, Fields.cmd ⟨opc, 0, 0, 0, 0⟩, (maskFields fmt).cmd) ↔
      c.fields.opc = opc ∧ fmt.violation c.fields = none := by
  have hopc : c.fields.opc &&& 0xFF = c.fields.opc := BitVec.and_allOnes
  have hrsv : c.fields.rsv &&& 0xFFFF = c.fields.rsv := BitVec.and_allOnes
  simp only [matchesRow_iff_fields, maskFields, hopc, hrsv, Fields.mk.injEq, Format.violation_eq_none, and_left_comm]

/-- The rows a word matches are those of its opcode, and only if it meets their format. -/
theorem mem_matchesRow_iff {c : Cmd} {row : String × Cmd × Cmd} :
    row ∈ tableRows ∧ matchesRow c row ↔ ∃ fmt build, opcodeRow c.fields.opc = some (fmt, build) ∧
      fmt.violation c.fields = none ∧
      (tableName (build c.fields), Fields.cmd ⟨c.fields.opc, 0, 0, 0, 0⟩, (maskFields fmt).cmd) = row := by
  rw [mem_tableRows]
  constructor
  · rintro ⟨⟨opc, fmt, build, hrow, rfl⟩, hm⟩
    obtain ⟨rfl, hv⟩ := (matchesRow_iff ..).mp hm
    exact ⟨fmt, build, hrow, hv, by rw [(opcodeRow_agrees hrow).tableName_build c.fields]⟩
  · rintro ⟨fmt, build, hrow, hv, rfl⟩
    exact ⟨⟨_, fmt, build, hrow, by rw [(opcodeRow_agrees hrow).tableName_build c.fields]⟩,
      (matchesRow_iff ..).mpr ⟨rfl, hv⟩⟩

/-- Settles O19: a word decodes when its opcode has a row whose format it meets, and that is what matching the table's row
of the opcode says. -/
theorem decoderFollowsOpcodeTable : Obligations.DecoderFollowsOpcodeTable := by
  refine ⟨fun c => ⟨?matched, ?decoded⟩, fun c i hd row hrow hm => ?name, by decide⟩
  case matched =>
    rintro ⟨i, hd⟩
    obtain ⟨fmt, build, hrow, hv, -⟩ := decode_eq_ok.mp hd
    exact ⟨_, mem_matchesRow_iff.mpr ⟨fmt, build, hrow, hv, rfl⟩⟩
  case decoded =>
    rintro ⟨row, hrm⟩
    obtain ⟨fmt, build, hrow, hv, -⟩ := mem_matchesRow_iff.mp hrm
    exact ⟨_, decode_eq_ok.mpr ⟨fmt, build, hrow, hv, rfl⟩⟩
  case name =>
    obtain ⟨fmt, build, hopc, -, rfl⟩ := mem_matchesRow_iff.mp ⟨hrow, hm⟩
    obtain ⟨fmt', build', hrow', -, rfl⟩ := decode_eq_ok.mp hd
    cases hopc.symm.trans hrow'
    rfl

/-- Settles O21: each word is decoded. -/
theorem workedEncodings : Obligations.WorkedEncodings := by
  unfold Obligations.WorkedEncodings
  decide

/-! ## The number and the bytes of a word (R91) -/

theorem valueLE_append (as bs : List Byte) : valueLE (as ++ bs) = valueLE as + 256 ^ as.length * valueLE bs := by
  induction as with
  | nil => simp [valueLE]
  | cons a as ih =>
    simp only [List.cons_append, valueLE, ih, List.length_cons, Nat.pow_succ]
    ring

/-- Byte `k` of a sequence is bits 8k+7 to 8k of the number it holds. -/
theorem getElem?_eq_valueLE {bs : List Byte} {k : Nat} (h : k < bs.length) :
    bs[k]?.map BitVec.toNat = some (valueLE bs / 256 ^ k % 256) := by
  induction bs generalizing k with
  | nil => cases h
  | cons b bs ih =>
    have hb := b.isLt
    cases k with
    | zero =>
      simp only [List.getElem?_cons_zero, Option.map_some, valueLE]
      congr 1
      omega
    | succ k =>
      have hdiv : (b.toNat + 256 * valueLE bs) / 256 = valueLE bs := by omega
      rw [List.getElem?_cons_succ, ih (Nat.lt_of_succ_lt_succ h), valueLE, Nat.pow_succ', ← Nat.div_div_eq_div_mul, hdiv]

theorem wordBytes_eq (w : Word) : wordBytes w = bytesLE w 4 := by
  apply List.ext_getElem?
  intro j
  rw [getElem?_bytesLE]
  split
  · next h => interval_cases j <;> rfl
  · next h => exact List.getElem?_eq_none (Nat.le_of_not_lt h)

@[simp] theorem valueLE_wordBytes (w : Word) : valueLE (wordBytes w) = w.toNat := by
  rw [wordBytes_eq, valueLE_bytesLE]
  exact Nat.mod_eq_of_lt w.isLt

@[simp] theorem length_wordBytes (w : Word) : (wordBytes w).length = 4 := rfl

/-- The bytes of a word hold its number, least significant byte first. -/
theorem valueLE_bytes (c : Cmd) : valueLE c.bytes = c.toNat := by
  simp only [Cmd.bytes, valueLE_append, valueLE_wordBytes, Cmd.toNat, List.length_append, length_wordBytes]
  omega

theorem toNat_wordOfBytes (b0 b1 b2 b3 : Byte) : (wordOfBytes b0 b1 b2 b3).toNat = valueLE [b0, b1, b2, b3] := by
  simp only [wordOfBytes, BitVec.toNat_append, valueLE]
  rw [← Nat.shiftLeft_add_eq_or_of_lt b2.isLt, ← Nat.shiftLeft_add_eq_or_of_lt b1.isLt,
    ← Nat.shiftLeft_add_eq_or_of_lt b0.isLt]
  omega

theorem wordOfBytes_wordBytes (w : Word) :
    wordOfBytes (w.extractLsb' 0 8) (w.extractLsb' 8 8) (w.extractLsb' 16 8) (w.extractLsb' 24 8) = w :=
  BitVec.eq_of_toNat_eq ((toNat_wordOfBytes ..).trans (valueLE_wordBytes w))

theorem cmd_ofBytes_bytes (c : Cmd) : Cmd.ofBytes c.bytes = some c := by
  simp only [Cmd.bytes, wordBytes, List.cons_append, List.nil_append, Cmd.ofBytes, wordOfBytes_wordBytes]

theorem cmd_ofNat_toNat (c : Cmd) : Cmd.ofNat c.toNat = c := by
  obtain ⟨w0, w1, w2⟩ := c
  have h0 := w0.isLt
  have h1 := w1.isLt
  have h2 := w2.isLt
  simp only [Cmd.ofNat, Cmd.toNat, Cmd.mk.injEq, ← BitVec.toNat_inj, BitVec.toNat_ofNat]
  omega

theorem cmd_toNat_ofNat {n : Nat} (h : n < 2 ^ 96) : (Cmd.ofNat n).toNat = n := by
  simp only [Cmd.ofNat, Cmd.toNat, BitVec.toNat_ofNat]
  omega

/-- Settles O20: the bytes hold the number, least significant first, and the number is the three words side by side. -/
theorem wordNumberAndBytesAgree : Obligations.WordNumberAndBytesAgree :=
  ⟨cmd_ofNat_toNat, fun _ => cmd_toNat_ofNat, cmd_ofBytes_bytes, fun _ => rfl,
    fun c _ hk => valueLE_bytes c ▸ getElem?_eq_valueLE (bs := c.bytes) hk⟩

/-! ## What a word that does not decode does, and how every command answers (R95, R98, R106) -/

/-- An ill-formed word on a block that is not faulted: fault entry with IllegalCommand(W0, W1), and nothing else. -/
theorem illFormed_raises {s : State} (c : Cmd) (hf : s.flt = none) :
    illFormed c s = { s with
      flt := some ⟨.illegalCommand, c.w0.extractLsb' 0 8, c.w0, c.w1⟩
      resp := some ⟨5, c.w0, c.w1, 0⟩
      cmdcnt := s.cmdcnt + 1 } := by
  rw [illFormed, faulted_eq_false hf]
  rfl

theorem illFormed_refused {s : State} (c : Cmd) (hf : s.flt ≠ none) : illFormed c s = refusedIn s := by
  obtain ⟨f, hf⟩ := Option.ne_none_iff_exists'.mp hf
  rw [illFormed, faulted_eq_true hf, if_pos rfl, refuse_eq]

/-- Settles O10: a word that matches no row does not decode. -/
theorem illFormedWordTraps : Obligations.IllFormedWordTraps := by
  intro s c hnone
  cases hd : decode c with
  | ok i =>
    obtain ⟨row, hrow, hm⟩ := (decoderFollowsOpcodeTable.1 c).mp ⟨i, hd⟩
    exact absurd hm (hnone row hrow)
  | rejected r =>
    rw [issue_rejected hd]
    exact ⟨fun hf => congrArg _ (illFormed_raises c hf), fun hf => congrArg _ (illFormed_refused c hf)⟩

theorem body_flt (i : Instr) (s : State) : (bodyOf i s).state.flt = s.flt := (congrArg State.flt (body_frame i s) :)

/-- A command that runs while the block is faulted needs no unit and raises nothing (R226). -/
theorem runsWhileFaulted_completes {i : Instr} {s : State} (h : runsWhileFaulted i s = true) :
    unitReady i s = true ∧ ∃ r, bodyOf i s = .ok r s := by
  cases i <;> simp only [runsWhileFaulted, reduceCtorEq] at h
  case nop => exact ⟨rfl, _, rfl⟩
  case csrr csr =>
    obtain ⟨v, hv⟩ := Option.isSome_iff_exists.mp h
    exact ⟨rfl, Reply.one v, by simp [bodyOf, csrrOp, hv]⟩

/-- How a command other than RESET ends: completed, with the fault record as it was; faulting, on a block that was not
faulted; or refused, on a faulted one (R95). -/
theorem exec_ends {i : Instr} (hi : i ≠ .reset) (s : State) :
    (∃ r0 r1 r2 u, exec i s = .next (replied r0 r1 r2 u) ∧ u.flt = s.flt) ∨
    (∃ c i0 i1 u, exec i s = .next (faultedBy i c i0 i1 u) ∧ s.flt = none) ∨
    (exec i s = .next (refusedIn s) ∧ s.flt ≠ none) := by
  rw [exec_eq_run hi]
  rcases runCommand_cases i (bodyOf i) s with ⟨hf, -, e⟩ | ⟨hf | hr, hu, e⟩ | ⟨hf, -, e⟩
  · exact .inr (.inr ⟨e, hf⟩)
  · exact .inr (.inl ⟨_, _, _, _, e, hf⟩)
  · exact absurd (runsWhileFaulted_completes hr).1 (by simp [hu])
  · have hflt := body_flt i s
    cases hb : bodyOf i s with
    | ok r u =>
      rw [hb] at e hflt
      exact .inl ⟨_, _, _, u, e, hflt⟩
    | raise c i0 i1 u =>
      rw [hb, finish_raise] at e
      refine .inr (.inl ⟨_, _, _, _, e, hf.resolve_right fun hr => ?_⟩)
      obtain ⟨-, r, hok⟩ := runsWhileFaulted_completes hr
      cases hb.symm.trans hok

/-- Settles O15: a rejected word raises or is refused; RESET answers ST = 0; any other command ends in one of three ways,
and the opcode it records is that of its word, since the word is the command's encoding. -/
theorem everyCommandGetsAResponse : Obligations.EveryCommandGetsAResponse := by
  intro c s
  cases hd : decode c with
  | rejected r =>
    rw [issue_rejected hd]
    by_cases hf : s.flt = none
    · rw [illFormed_raises c hf]
      exact ⟨_, _, rfl, rfl, .inr (.inl ⟨hf, _, rfl, rfl, rfl⟩)⟩
    · rw [illFormed_refused c hf]
      exact ⟨_, _, rfl, rfl, .inr (.inr ⟨hf, rfl, rfl⟩)⟩
  | ok i =>
    rw [issue_ok hd]
    by_cases hi : i = .reset
    · subst hi
      exact ⟨_, _, rfl, rfl, .inl ⟨rfl, .inr rfl⟩⟩
    · have hopc : i.fields.opc = c.w0.extractLsb' 0 8 := by rw [← opcode_of_w0, (encodeOfDecode c i hd).2]
      rcases exec_ends hi s with ⟨r0, r1, r2, u, e, hu⟩ | ⟨cause, i0, i1, u, e, hf⟩ | ⟨e, hf⟩
      · exact ⟨_, _, e, rfl, .inl ⟨rfl, .inl hu⟩⟩
      · exact ⟨_, _, e, rfl, .inr (.inl ⟨hf, _, rfl, hopc, rfl⟩)⟩
      · exact ⟨_, _, e, rfl, .inr (.inr ⟨hf, rfl, rfl⟩)⟩

end Sys2Proof.Machine

/-! # The system commands: NOP, RESET, CSRW and CSRR (R120 to R123) -/

namespace Sys2Proof.Machine

/-! ## RESET and NOP (R120, R121) -/

/-- Settles O2: the next state is the reset block with the response ST = 0. -/
theorem resetCommandRestoresEverything : Obligations.ResetCommandRestoresEverything := fun s =>
  ⟨respond ⟨0, 0, 0, 0⟩ (resetBlock s), rfl, rfl, rfl, rfl, rfl, rfl, rfl, rfl, rfl, rfl, rfl, rfl, rfl, rfl, rfl⟩

/-- NOP runs in every state and needs no unit (R120, R226). -/
theorem exec_nop (s : State) : exec .nop s = .next (replied 0 0 0 s) := by
  rw [exec_eq_run (by simp)]
  rcases runCommand_cases .nop (bodyOf .nop) s with ⟨-, hn, -⟩ | ⟨-, hn, -⟩ | ⟨-, -, e⟩
  · cases hn
  · cases hn
  · exact e

/-- Settles O4: a word with opcode 0 that decodes is the encoding of NOP, which is the all-zero word. -/
theorem nopOnlyCounts : Obligations.NopOnlyCounts := by
  refine ⟨exec_nop, by decide, fun c hopc hne => ?_⟩
  cases hd : decode c with
  | rejected r => exact ⟨r, rfl⟩
  | ok i =>
    obtain ⟨fmt, build, hrow, -, hi⟩ := decode_eq_ok.mp hd
    rw [show c.fields.opc = 0 from hopc] at hrow
    cases hrow
    cases hi
    have hc : encode .nop = c := (encodeOfDecode c .nop hd).2
    exact absurd hc.symm hne

/-! ## The fields of the two structured registers (R36, R38, R105) -/

/-- The bits from `k` up are 0 exactly when the value is below `2 ^ k`. -/
theorem extractLsb'_high_eq_zero_iff (k len : Nat) (x : BitVec (k + len)) :
    x.extractLsb' k len = 0 ↔ x.toNat < 2 ^ k := by
  have hlt : x.toNat / 2 ^ k < 2 ^ len := Nat.div_lt_of_lt_mul (Nat.pow_add 2 k len ▸ x.isLt)
  rw [← BitVec.toNat_inj, BitVec.extractLsb'_toNat, Nat.shiftRight_eq_div_pow, Nat.mod_eq_of_lt hlt]
  simp [Nat.div_eq_zero_iff]

theorem toNat_lowTwoBits (v : Word) : (v.extractLsb' 0 2).toNat = v.toNat % 4 := by
  simp [BitVec.extractLsb'_toNat]

theorem ofBool_getLsbD_eq_extractLsb' (v : Word) (i : Nat) : BitVec.ofBool (v.getLsbD i) = v.extractLsb' i 1 := by
  ext j hj
  obtain rfl : j = 0 := by omega
  simp

/-- The code of the level a code names is that code (R11, R105). -/
theorem Level.code_ofCode : ∀ c : BitVec 2, (Level.ofCode c).code = c := by decide

/-- Of the four codes of UNIT only 3 names no size (R38). -/
theorem UnitSize.ofCode_eq_none_iff : ∀ c : BitVec 2, UnitSize.ofCode c = none ↔ c.toNat = 3 := by decide

/-- UNIT = 0, 1, 2 is 1, 2, 4 bytes (R38, R105). -/
theorem UnitSize.ofCode_fields : ∀ c : BitVec 2, ∀ u ∈ UnitSize.ofCode c, u.code = c ∧ u.bytes = 2 ^ c.toNat := by
  decide

theorem MfCtrl.ofWord_of_lt {v : Word} (h : v.toNat < 8) :
    MfCtrl.ofWord v = some ⟨Level.ofCode (v.extractLsb' 0 2), v.getLsbD 2⟩ :=
  if_pos ((extractLsb'_high_eq_zero_iff 3 29 v).mpr h)

theorem MfCtrl.ofWord_of_le {v : Word} (h : 8 ≤ v.toNat) : MfCtrl.ofWord v = none :=
  if_neg fun hz => absurd ((extractLsb'_high_eq_zero_iff 3 29 v).mp hz) (Nat.not_lt.mpr h)

/-- LA and LEVEL side by side are the low three bits, and a legal MF_CTRL has no others. -/
theorem MfCtrl.word_of_fields {v : Word} (h : v.toNat < 8) :
    MfCtrl.word ⟨Level.ofCode (v.extractLsb' 0 2), v.getLsbD 2⟩ = v := by
  rw [MfCtrl.word, Level.code_ofCode, ofBool_getLsbD_eq_extractLsb',
    BitVec.extractLsb'_append_extractLsb'_eq_extractLsb' (start₁ := 0) (len₁ := 2) rfl]
  apply BitVec.eq_of_toNat_eq
  simp
  omega

theorem FlagCfg.ofWord_of_lt {v : Word} {u : UnitSize} (h : v.toNat < 16)
    (hu : UnitSize.ofCode (v.extractLsb' 0 2) = some u) :
    FlagCfg.ofWord v = some ⟨u, v.getLsbD 2, v.getLsbD 3⟩ := by
  rw [FlagCfg.ofWord, if_pos ((extractLsb'_high_eq_zero_iff 4 28 v).mpr h), hu]

/-- An FC_CFG is illegal when a reserved bit is set and when UNIT is 3 (R38, R122). -/
theorem FlagCfg.ofWord_eq_none {v : Word} (h : 16 ≤ v.toNat ∨ v.toNat % 4 = 3) : FlagCfg.ofWord v = none := by
  rw [FlagCfg.ofWord]
  split
  next hz =>
    have hlt := (extractLsb'_high_eq_zero_iff 4 28 v).mp hz
    have hunit : (v.extractLsb' 0 2).toNat = 3 := toNat_lowTwoBits v ▸ h.resolve_left (Nat.not_le.mpr hlt)
    rw [(UnitSize.ofCode_eq_none_iff _).mpr hunit]
  next => rfl

/-- BYTEORD, BITORD and UNIT side by side are the low four bits, and a legal FC_CFG has no others. -/
theorem FlagCfg.word_of_fields {v : Word} {u : UnitSize} (h : v.toNat < 16) (hu : u.code = v.extractLsb' 0 2) :
    FlagCfg.word ⟨u, v.getLsbD 2, v.getLsbD 3⟩ = v := by
  rw [FlagCfg.word, hu, ofBool_getLsbD_eq_extractLsb', ofBool_getLsbD_eq_extractLsb',
    BitVec.extractLsb'_append_extractLsb'_eq_extractLsb' (start₁ := 2) (len₁ := 1) rfl,
    BitVec.extractLsb'_append_extractLsb'_eq_extractLsb' (start₁ := 0) (len₁ := 2) rfl]
  apply BitVec.eq_of_toNat_eq
  simp
  omega

/-! ## CSRW (R122) -/

/-- A CSRW that `csrWrite` admits leaves the registers it answers, and changes nothing else. -/
theorem exec_csrw_writes {csr v : Word} {s : State} {c : Csr} (hf : s.flt = none)
    (h : csrWrite csr.toNat v s.csr = some c) :
    exec (.csrw csr v) s = .next (replied 0 0 0 { s with csr := c }) := by
  have hbody : bodyOf (.csrw csr v) s = .ok Reply.zero (s.withCsr c) := by simp [bodyOf, csrwOp, h]
  rw [exec_eq_run (by simp)]
  exact runCommand_done hf rfl hbody

theorem illegal_csrw {α : Type} (csr v : Word) (s : State) :
    (illegal (.csrw csr v) s : Res α) = .raise .illegalCommand 0x00000002 csr s := by
  simp [illegal, encode, Instr.fields, Fields.cmd]

/-- A CSRW that `csrWrite` does not admit raises IllegalCommand(W0, W1). -/
theorem exec_csrw_raises {csr v : Word} {s : State} (hf : s.flt = none) (h : csrWrite csr.toNat v s.csr = none) :
    exec (.csrw csr v) s = .next (faultedBy (.csrw csr v) .illegalCommand 0x00000002 csr s) := by
  have hbody : bodyOf (.csrw csr v) s = .raise .illegalCommand 0x00000002 csr s := by
    simp only [bodyOf, csrwOp, h, illegal_csrw]
  rw [exec_eq_run (by simp)]
  exact runCommand_raises hf rfl hbody

/-- Only 0x10 to 0x16 are written. -/
theorem csrWrite_number {n : Nat} {v : Word} {c : Csr} : csrWrite n v c ≠ none → 0x10 ≤ n ∧ n ≤ 0x16 := by
  unfold csrWrite
  split <;> simp

theorem csrWrite_eq_none {csr v : Word} {c : Csr}
    (h : csr.toNat < 0x10 ∨ 0x16 < csr.toNat ∨ (csr = 0x14 ∧ 8 ≤ v.toNat) ∨
      (csr = 0x16 ∧ (16 ≤ v.toNat ∨ v.toNat % 4 = 3))) : csrWrite csr.toNat v c = none := by
  rcases h with hlo | hhi | ⟨rfl, hv⟩ | ⟨rfl, hv⟩
  · exact not_ne_iff.mp fun hne => absurd (csrWrite_number hne).1 (Nat.not_le.mpr hlo)
  · exact not_ne_iff.mp fun hne => absurd (csrWrite_number hne).2 (Nat.not_le.mpr hhi)
  · exact congrArg (Option.map _) (MfCtrl.ofWord_of_le hv)
  · exact congrArg (Option.map _) (FlagCfg.ofWord_eq_none hv)

/-- Settles O5: `csrWrite` admits 0x10 to 0x16, and for the two structured registers exactly the words that are their fields
side by side. -/
theorem csrwWritesOneRegister : Obligations.CsrwWritesOneRegister := by
  refine ⟨fun s csr v hf => ?refused, fun s v hf => ?plain, fun s v hf hv => ?mfCtrl, fun s v hf hv hunit => ?fcCfg,
    fun s csr v hf h => exec_csrw_raises hf (csrWrite_eq_none h)⟩
  case refused =>
    rw [exec_eq_run (by simp)]
    exact runCommand_refused hf rfl
  case plain =>
    exact ⟨exec_csrw_writes hf rfl, exec_csrw_writes hf rfl, exec_csrw_writes hf rfl, exec_csrw_writes hf rfl,
      exec_csrw_writes hf rfl⟩
  case mfCtrl =>
    refine ⟨_, exec_csrw_writes hf (congrArg (Option.map _) (MfCtrl.ofWord_of_lt hv)), MfCtrl.word_of_fields hv, rfl, ?_⟩
    refine ⟨?_, ?_, ?_, ?_⟩ <;> intro hlevel <;> simp only [Level.ofCode, toNat_lowTwoBits, hlevel]
  case fcCfg =>
    have hcode : (v.extractLsb' 0 2).toNat ≠ 3 := toNat_lowTwoBits v ▸ hunit
    obtain ⟨u, hu⟩ := Option.ne_none_iff_exists'.mp (mt (UnitSize.ofCode_eq_none_iff _).mp hcode)
    obtain ⟨hword, hbytes⟩ := UnitSize.ofCode_fields _ u hu
    rw [toNat_lowTwoBits] at hbytes
    refine ⟨_, exec_csrw_writes hf (congrArg (Option.map _) (FlagCfg.ofWord_of_lt hv hu)),
      FlagCfg.word_of_fields hv hword, rfl, rfl, ?_⟩
    refine ⟨?_, ?_, ?_⟩ <;> intro hsize <;> simp only [hbytes, hsize, Nat.reducePow]

/-! ## CSRR (R123) -/

/-- The table of R28: the number of every register and the word it holds. -/
def csrTable (s : State) : List (Nat × Word) :=
  [(0x00, 0x4C5A0001), (0x01, s.status), (0x02, s.finfo0), (0x03, s.finfo1), (0x04, s.cmdcnt),
   (0x10, s.csr.winSize), (0x11, s.csr.minLen), (0x12, s.csr.maxLen), (0x13, s.csr.winStart),
   (0x14, s.csr.mfCtrl.word), (0x15, s.csr.mfInlen), (0x16, s.csr.fcCfg.word),
   (0x20, wordOfNat s.mf.index.next), (0x21, wordOfNat s.mf.ml.length), (0x22, s.sw.produced),
   (0x23, s.srcPos), (0x24, wordOfNat s.fr.left), (0x25, wordOfNat s.fw.cnt), (0x26, wordOfNat s.fw.aux.length)]

theorem csrRead_of_mem_csrTable {s : State} : ∀ row ∈ csrTable s, s.csrRead row.1 = some row.2 := by
  simp [csrTable, State.csrRead, idWord]

/-- A number with a value is one of the table. -/
theorem csrRead_number {s : State} {n : Nat} : s.csrRead n ≠ none → n ∈ (csrTable s).map Prod.fst := by
  unfold State.csrRead
  split <;> simp [csrTable]

theorem illegal_csrr {α : Type} (csr : Word) (s : State) :
    (illegal (.csrr csr) s : Res α) = .raise .illegalCommand 0x00000003 csr s := by
  simp [illegal, encode, Instr.fields, Fields.cmd]

/-- CSRR of a reserved number raises IllegalCommand(W0, W1), or is refused while faulted (R123, R226). -/
theorem exec_csrr_reserved {csr : Word} {s : State} (h : s.csrRead csr.toNat = none) :
    (s.flt = none → exec (.csrr csr) s = .next (faultedBy (.csrr csr) .illegalCommand 0x00000003 csr s)) ∧
    (s.flt ≠ none → exec (.csrr csr) s = .next (refusedIn s)) := by
  have hbody : bodyOf (.csrr csr) s = .raise .illegalCommand 0x00000003 csr s := by
    simp only [bodyOf, csrrOp, h, illegal_csrr]
  rw [exec_eq_run (by simp)]
  exact ⟨fun hf => runCommand_raises hf rfl hbody, fun hf => runCommand_refused hf (by simp [runsWhileFaulted, h])⟩

/-- Settles O6: the registers of the CSR read are those of R28's table. -/
theorem csrrReturnsRegister : Obligations.CsrrReturnsRegister := by
  refine ⟨fun s csr v hrow => ?listed, fun s csr hnot => ?reserved⟩
  case listed => exact exec_csrr_existing (csrRead_of_mem_csrTable (csr.toNat, v) hrow)
  case reserved => exact exec_csrr_reserved (not_ne_iff.mp fun hne => hnot (csrRead_number hne))

end Sys2Proof.Machine

/-! # The match finder: its primitives, what its commands report, and its invariant -/

namespace Sys2Proof.Machine

/-- A word is at most 2^POSW - 1 (R10, R126). -/
theorem toNat_le_posMax (w : Word) : w.toNat ≤ posMax := Nat.le_of_lt_succ w.isLt

/-! ## The finder's commands in the frame of R106 -/

/-- The first word of a finder command is its opcode alone: RSV and MOD are 0 (R91, R97). -/
theorem encode_w0_finder {i : Instr} (hu : unitOf i = some .mf) : (encode i).w0 = i.fields.opc.setWidth 32 := by
  cases i <;> simp only [unitOf, reduceCtorEq, Option.some.injEq] at hu <;>
    simp [encode, Instr.fields, Fields.cmd]

section

variable {i : Instr} {s : State}

theorem exec_finder_idle (hf : s.flt = none) (hu : unitOf i = some .mf) (ha : s.mf.active = false) :
    exec i s = .next (faultedBy i .badSequence (i.fields.opc.setWidth 32) s.status s) := by
  rw [exec_idle hf hu ha, encode_w0_finder hu]

/-- On an active finder a command ends as its body does. -/
theorem exec_finder_runs (hf : s.flt = none) (hu : unitOf i = some .mf) (ha : s.mf.active = true) :
    exec i s = .next (finish (encode i).w0 (bodyOf i s)) := by
  have hi : i ≠ .reset := by rintro rfl; cases hu
  have hready : unitReady i s = true := by simp only [unitReady, hu]; exact ha
  rw [exec_eq_run hi, runCommand_runs hf hready]

theorem exec_finder_done (hf : s.flt = none) (hu : unitOf i = some .mf) (ha : s.mf.active = true) {r : Reply} {u : State}
    (hb : bodyOf i s = .ok r u) : exec i s = .next (replied r.r0 r.r1 r.r2 u) := by
  rw [exec_finder_runs hf hu ha, hb, finish_ok]

/-- A finder command whose own check fails raises IllegalCommand(W0, W1) (R93, R222). -/
theorem exec_finder_illegal (hf : s.flt = none) (hu : unitOf i = some .mf) (ha : s.mf.active = true)
    (hb : bodyOf i s = illegal i s) :
    exec i s = .next (faultedBy i .illegalCommand (i.fields.opc.setWidth 32) i.fields.a s) := by
  rw [exec_finder_runs hf hu ha, hb, illegal, finish_raise, encode_w0_finder hu]
  rfl

end

/-! ## Insert (R132) -/

section

variable {m : Mf} {p limit : Nat} {ix : Index}

@[simp] theorem insertPos_levelNone (hl : m.level = .levelNone) : insertPos m p limit ix = ix := if_pos hl

theorem insertPos_below (hp : p < ix.next) : insertPos m p limit ix = ix := by simp [insertPos, hp]

theorem insertPos_new (hl : m.level ≠ .levelNone) (hp : ix.next ≤ p) :
    insertPos m p limit ix = ⟨if p + m.minLen.toNat ≤ limit then p :: ix.set else ix.set, p + 1⟩ := by
  simp [insertPos, hl, Nat.not_lt.mpr hp, keyable]

@[simp] theorem insertRange_levelNone (hl : m.level = .levelNone) (k : Nat) :
    insertRange m limit k p ix = ix := by
  induction k generalizing p ix with
  | zero => rfl
  | succ k ih => rw [insertRange, ih, insertPos_levelNone hl]

end

/-! ## Search and probe (R133, R135) -/

section

variable {par : Params} {m : Mf} {ix : Index} {pos limit : Nat}

@[simp] theorem search_levelNone (hl : m.level = .levelNone) : search par m ix pos limit = none := if_pos hl

theorem search_unkeyable (hk : limit < pos + m.minLen.toNat) : search par m ix pos limit = none := by
  simp [search, keyable, Nat.not_le.mpr hk]

theorem deferred_iff (m0 : Nat × Nat) : deferred par m ix pos limit m0 = true ↔
    m.la = true ∧ ∃ d l, search par m ix (pos + 1) limit = some (d, l) ∧ m0.2 < l := by
  rcases h : search par m ix (pos + 1) limit with _ | ⟨d, l⟩ <;> simp [deferred, h]

theorem probe_none (h : search par m ix pos limit = none) :
    probe par m ix pos limit = (none, insertPos m pos limit ix) := by simp [probe, h]

theorem probe_some {m0 : Nat × Nat} (h : search par m ix pos limit = some m0) :
    probe par m ix pos limit =
      (if deferred par m (insertPos m pos limit ix) pos limit m0 then none else some m0, insertPos m pos limit ix) := by
  simp [probe, h]

@[simp] theorem probe_levelNone (hl : m.level = .levelNone) : probe par m ix pos limit = (none, ix) := by
  rw [probe_none (search_levelNone hl), insertPos_levelNone hl]

@[simp] theorem laneLoop_levelNone (hl : m.level = .levelNone) (k : Nat) : laneLoop par m limit k pos ix = [] := by
  induction k generalizing pos ix with
  | zero => rfl
  | succ k ih => simp [laneLoop, hl, ih]

@[simp] theorem lane_levelNone (hl : m.level = .levelNone) (c : Nat × Nat) : lane par m c = [] :=
  laneLoop_levelNone hl _

/-- At level None the lanes are empty too, so the list is always that of the lanes (R136, R143). -/
theorem findAll_eq_lanes (par : Params) (m : Mf) : findAll par m = (partition par m.n.toNat).flatMap (lane par m) := by
  by_cases hl : m.level = .levelNone
  · simp [findAll, hl]
  · exact if_neg hl

end

/-! ## What the search commands answer (R138 to R140, R143) -/

section

variable {s : State} {a b : Word}

theorem exec_mfFind_none (hf : s.flt = none) (ha : s.mf.active = true) (h : a.toNat < s.mf.n.toNat) {ix : Index}
    (hp : probe s.par s.mf s.mf.index a.toNat s.mf.n.toNat = (none, ix)) :
    exec (.mfFind a) s = .next (replied 0 0 0 { s with mf := { s.mf with index := ix } }) :=
  exec_finder_done (r := Reply.zero) hf rfl ha
    (by simp only [bodyOf, mfFindOp, if_neg (not_not_intro h), hp]; rfl)

theorem exec_mfFind_some (hf : s.flt = none) (ha : s.mf.active = true) (h : a.toNat < s.mf.n.toNat) {ix : Index}
    {d l : Nat} (hp : probe s.par s.mf s.mf.index a.toNat s.mf.n.toNat = (some (d, l), ix)) :
    exec (.mfFind a) s =
      .next (replied a (BitVec.ofNat 32 d) (BitVec.ofNat 32 l) { s with mf := { s.mf with index := ix } }) :=
  exec_finder_done (r := ⟨a, _, _⟩) hf rfl ha (by
    simp only [bodyOf, mfFindOp, if_neg (not_not_intro h), hp, Reply.ofMatch, matchOf, wordOfNat_toNat_word]; rfl)

theorem exec_mfAdd (hf : s.flt = none) (ha : s.mf.active = true) (h : a.toNat < s.mf.n.toNat) :
    exec (.mfAdd a) s = .next (replied 0 0 0
      { s with mf := { s.mf with index := insertPos s.mf a.toNat s.mf.n.toNat s.mf.index } }) :=
  exec_finder_done (r := Reply.zero) hf rfl ha (if_neg (not_not_intro h))

theorem exec_mfAddr (hf : s.flt = none) (ha : s.mf.active = true) (h : a.toNat + b.toNat ≤ s.mf.n.toNat) :
    exec (.mfAddr a b) s = .next (replied 0 0 0
      { s with mf := { s.mf with index := insertRange s.mf s.mf.n.toNat b.toNat a.toNat s.mf.index } }) :=
  exec_finder_done (r := Reply.zero) hf rfl ha (if_neg (not_not_intro h))

theorem exec_mfFindall (hf : s.flt = none) (ha : s.mf.active = true) :
    exec .mfFindall s = .next (replied (BitVec.ofNat 32 (findAll s.par s.mf).length) 0 0
      { s with mf := { s.mf with ml := findAll s.par s.mf } }) :=
  exec_finder_done (r := Reply.one _) hf rfl ha rfl

end

/-- Settles O24: the match found is dropped exactly when `deferred` holds. -/
theorem mfFindProbesAndInserts : Obligations.MfFindProbesAndInserts := by
  intro s a hf ix ahead t
  refine ⟨exec_finder_idle hf rfl, fun ha hn => exec_finder_illegal hf rfl ha (if_pos (Nat.not_lt.mpr hn)), fun ha hn =>
    ⟨fun h0 => exec_mfFind_none hf ha hn (probe_none h0), fun d l h0 => ⟨fun hlater => ?deferred, fun hkeep => ?taken⟩⟩⟩
  case deferred =>
    refine exec_mfFind_none hf ha hn ?_
    rw [probe_some h0, if_pos ((deferred_iff _).mpr hlater)]
  case taken =>
    refine exec_mfFind_some hf ha hn ?_
    rw [probe_some h0, if_neg]
    rw [deferred_iff]
    rintro ⟨hla, d', l', hahead, hlt⟩
    rcases hkeep with hoff | hle
    · exact absurd (hla.symm.trans hoff) (by decide)
    · exact absurd (hle d' l' hahead) (Nat.not_le.mpr hlt)

/-- Settles O27: at level None the probe answers none and no insert changes the index. -/
theorem levelNoneFindsNothing : Obligations.LevelNoneFindsNothing := by
  intro s a hf ha hl
  refine ⟨fun hn => ⟨exec_mfFind_none hf ha hn (probe_levelNone hl), ?add⟩, ?all⟩
  case add => rw [exec_mfAdd hf ha hn, insertPos_levelNone hl]
  case all => rw [exec_mfFindall hf ha, show findAll s.par s.mf = [] from if_pos hl]; rfl

/-- Settles O28: the cases of one insert, and a range of one position is one insert. -/
theorem mfAddInsertsOnePosition : Obligations.MfAddInsertsOnePosition := by
  intro s a hf
  refine ⟨exec_finder_idle hf rfl, fun ha hn => exec_finder_illegal hf rfl ha (if_pos (Nat.not_lt.mpr hn)), fun ha hn => ?_⟩
  rw [exec_mfAdd hf ha hn]
  refine ⟨fun hold => ?old, fun ⟨hl, hnew⟩ => ?new, ?range⟩
  case old =>
    have hsame : insertPos s.mf a.toNat s.mf.n.toNat s.mf.index = s.mf.index :=
      hold.elim insertPos_levelNone insertPos_below
    rw [hsame]
  case new => rw [insertPos_new hl hnew]
  case range => exact exec_mfAddr (b := 1) hf ha hn

/-- Settles O29, by `insertRange_spec`: the induction over the range. -/
theorem mfAddrInsertsRange : Obligations.MfAddrInsertsRange := by
  intro s a b hf
  refine ⟨exec_finder_idle hf rfl, fun ha hn => exec_finder_illegal hf rfl ha (if_pos (Nat.not_le.mpr hn)), fun ha hn =>
    ⟨_, exec_mfAddr hf ha hn, fun hl => insertRange_levelNone hl _, fun hl => ?_⟩⟩
  obtain ⟨hset, hnext⟩ := insertRange_spec hl s.mf.n.toNat b.toNat a.toNat s.mf.index
  exact ⟨hset, by simpa [BitVec.toNat_eq] using hnext⟩

/-- Settles O32: the look-up in the list decides between the record and the sentinel. -/
theorem mfMreadReturnsRecord : Obligations.MfMreadReturnsRecord := by
  intro s a hf
  refine ⟨exec_finder_idle hf rfl, fun ha => ⟨fun r hr => ?record, fun hend => ?sentinel⟩⟩
  case record => exact exec_finder_done (r := Reply.ofMatch r) hf rfl ha (by simp [bodyOf, mfMreadOp, hr])
  case sentinel => exact exec_finder_done (r := Reply.zero) hf rfl ha (by simp [bodyOf, mfMreadOp, hend])


/-! ## The search (R133) -/

section

variable {m : Mf} {par : Params} {near : List Nat} {pos limit : Nat}

theorem isNear_eq (m : Mf) (pos p : Nat) :
    isNear m pos p = (decide (p < pos ∧ pos - p ≤ m.winSize.toNat) &&
      (List.range m.minLen.toNat).all fun i => m.inputAt (p + i) == m.inputAt (pos + i)) := by
  have hkey : sameKey m p pos =
      (List.range m.minLen.toNat).all fun i => m.inputAt (p + i) == m.inputAt (pos + i) := by
    rw [Bool.eq_iff_iff, sameKey, sameBytes_iff]
    simp
  rw [isNear, hkey]

/-- Positions that fall have distances that rise. -/
theorem distances_rise (hfall : near.Pairwise fun a b => b < a) (hnear : ∀ p ∈ near, isNear m pos p = true) :
    (near.map (candidate m pos limit)).Pairwise fun x y => x.1 < y.1 := by
  rw [List.pairwise_map]
  refine hfall.imp_of_mem fun {p q} hp _ hlt => ?_
  have hbefore := hnear p hp
  simp only [isNear, Bool.and_eq_true, decide_eq_true_eq] at hbefore
  simp only [candidate]
  omega

/-- The fold of R133 over inspected positions: the longest run, and of that length the smallest distance. -/
theorem best_candidate (hfall : near.Pairwise fun a b => b < a) (hnear : ∀ p ∈ near, isNear m pos p = true)
    (hm : m.minLen.toNat ≤ m.maxLen.toNat) (hk : pos + m.minLen.toNat ≤ limit) (hne : near ≠ []) :
    ∃ d l, (near.map (candidate m pos limit)).foldl better none = some (d, l) ∧
      (∃ p ∈ near, d = pos - p ∧ Run m p pos limit l) ∧
      ∀ p ∈ near, ∀ l', Run m p pos limit l' → l' ≤ l ∧ (l' = l → d ≤ pos - p) := by
  have hlen : ∀ p ∈ near, Run m p pos limit (matchLen m p pos limit) ∧
      ∀ l, Run m p pos limit l → l ≤ matchLen m p pos limit := by
    intro p hp
    have hkey := hnear p hp
    simp only [isNear, Bool.and_eq_true] at hkey
    obtain ⟨hrun, -, hmax⟩ := matchLen_spec hkey.2 hm hk
    exact ⟨hrun, hmax⟩
  rcases foldl_better_spec (near.map (candidate m pos limit)) none with ⟨hnil, -⟩ | ⟨c, hc, hmem, -, hbest⟩
  · exact absurd (List.map_eq_nil_iff.mp hnil) hne
  obtain ⟨p, hp, rfl⟩ := List.mem_map.mp (hmem.resolve_right nofun)
  refine ⟨pos - p, matchLen m p pos limit, hc, ⟨p, hp, rfl, (hlen p hp).1⟩, fun q hq l' hrun => ?_⟩
  have hle := (hlen q hq).2 l' hrun
  obtain ⟨hlonger, hfirst⟩ := hbest _ (List.mem_map_of_mem hq)
  simp only [candidate] at hlonger hfirst
  refine ⟨Nat.le_trans hle hlonger, fun heq => ?_⟩
  rcases hfirst (by omega) with h | h | h
  · cases h
  · exact Nat.le_of_eq (congrArg Prod.fst h).symm
  · have hrise := (distances_rise (limit := limit) hfall hnear).sublist h
    exact Nat.le_of_lt (List.rel_of_pairwise_cons hrise (List.mem_singleton.mpr rfl))

theorem within_sublist {α : Type} (bound : Option Nat) (l : List α) : (within bound l).Sublist l := by
  cases bound with
  | none => exact List.Sublist.refl l
  | some n => exact List.take_sublist n l

/-- A search at a keyable position answers none if there is nothing to inspect, and else the best of what it inspects. -/
theorem search_best {ix : Index} (hfall : ix.set.Pairwise fun a b => b < a) (hm : m.minLen.toNat ≤ m.maxLen.toNat)
    (hl : m.level ≠ .levelNone) (hk : pos + m.minLen.toNat ≤ limit) {inspected : List Nat}
    (hi : within (candBound par m.level) (ix.set.filter (isNear m pos)) = inspected) :
    (inspected = [] → search par m ix pos limit = none) ∧
    (inspected ≠ [] → ∃ d l, search par m ix pos limit = some (d, l) ∧
      (∃ p ∈ inspected, d = pos - p ∧ Run m p pos limit l) ∧
      ∀ p ∈ inspected, ∀ l', Run m p pos limit l' → l' ≤ l ∧ (l' = l → d ≤ pos - p)) := by
  have hsub : inspected.Sublist (ix.set.filter (isNear m pos)) := hi ▸ within_sublist _ _
  rw [search_eq hfall hl hk, hi]
  refine ⟨fun h => by rw [h]; rfl, fun hne => ?_⟩
  exact best_candidate (hfall.sublist (hsub.trans List.filter_sublist))
    (fun p hp => (List.mem_filter.mp (hsub.subset hp)).2) hm hk hne

end

/-- Settles O26: at each level the candidates are what the level's budget leaves of the near positions. -/
theorem searchFindsLongestNearest : Obligations.SearchFindsLongestNearest := by
  intro par m ix pos limit hfall hm
  refine ⟨fun h => h.elim search_levelNone search_unkeyable, fun hl hk => ?_⟩
  simp only [← isNear_eq]
  cases hlevel : m.level with
  | levelNone => exact absurd hlevel hl
  | fastest => exact search_best hfall hm hl hk (by rw [hlevel]; rfl)
  | optimal => exact search_best hfall hm hl hk (by rw [hlevel]; rfl)
  | smallestSize => exact search_best hfall hm hl hk (by rw [hlevel]; rfl)

/-! ## The partition (R141) -/

/-- The number of chunks of an input of `n` bytes. -/
def chunkCount (par : Params) (n : Nat) : Nat := max 1 (n / par.chunk)

/-- Chunk `j`: its first position and its exclusive end. -/
def chunkAt (par : Params) (n j : Nat) : Nat × Nat :=
  (j * par.chunk, if j = chunkCount par n - 1 then n else (j + 1) * par.chunk)

theorem partition_eq (par : Params) (n : Nat) :
    partition par n = (List.range (chunkCount par n)).map (chunkAt par n) := rfl

section

variable {par : Params} {n : Nat}

@[simp] theorem length_partition : (partition par n).length = chunkCount par n := by simp [partition_eq]

theorem partition_getElem? {j : Nat} (hj : j < chunkCount par n) : (partition par n)[j]? = some (chunkAt par n j) := by
  simp [partition_eq, hj]

theorem mem_partition {c : Nat × Nat} : c ∈ partition par n ↔ ∃ j < chunkCount par n, chunkAt par n j = c := by
  simp [partition_eq]

/-- An input shorter than two chunks is one. -/
theorem partition_single (h : n < 2 * par.chunk) : partition par n = [(0, n)] := by
  have hcount : chunkCount par n = 1 := by
    have : n / par.chunk < 2 := Nat.div_lt_of_lt_mul (by omega)
    simp only [chunkCount]
    omega
  simp [partition_eq, hcount, chunkAt]

theorem chunkCount_pos : 1 ≤ chunkCount par n := Nat.le_max_left _ _

theorem chunkAt_last : (chunkAt par n (chunkCount par n - 1)).2 = n := if_pos rfl

theorem chunkAt_inner {j : Nat} (hj : j + 1 < chunkCount par n) : (chunkAt par n j).2 = (j + 1) * par.chunk :=
  if_neg (by omega)

/-- The whole chunks fit in the input. -/
theorem mul_chunk_le {j : Nat} (hj : j < chunkCount par n) : j * par.chunk ≤ n := by
  rcases Nat.eq_zero_or_pos j with rfl | hpos
  · simp
  · have hle : j ≤ n / par.chunk := by simp only [chunkCount] at hj; omega
    exact Nat.le_trans (Nat.mul_le_mul_right _ hle) (Nat.div_mul_le_self _ _)

theorem chunkAt_end_le {j : Nat} (hj : j < chunkCount par n) : (chunkAt par n j).2 ≤ n := by
  by_cases hlast : j + 1 < chunkCount par n
  · rw [chunkAt_inner hlast]; exact mul_chunk_le hlast
  · rw [show j = chunkCount par n - 1 by omega, chunkAt_last]

theorem chunkAt_start_le_end {j : Nat} (hj : j < chunkCount par n) : (chunkAt par n j).1 ≤ (chunkAt par n j).2 := by
  by_cases hlast : j + 1 < chunkCount par n
  · rw [chunkAt_inner hlast]; exact Nat.mul_le_mul_right _ (Nat.le_succ j)
  · rw [show j = chunkCount par n - 1 by omega, chunkAt_last]
    exact mul_chunk_le (Nat.sub_lt chunkCount_pos Nat.one_pos)

/-- With two or more chunks none is smaller than CHUNK or as large as two of them. -/
theorem chunkAt_size (hchunk : 1 ≤ par.chunk) (htwo : 2 ≤ chunkCount par n) {j : Nat} (hj : j < chunkCount par n) :
    (chunkAt par n j).1 + par.chunk ≤ (chunkAt par n j).2 ∧ (chunkAt par n j).2 < (chunkAt par n j).1 + 2 * par.chunk := by
  have hstart : (chunkAt par n j).1 + par.chunk = (j + 1) * par.chunk := (Nat.succ_mul j par.chunk).symm
  by_cases hlast : j + 1 < chunkCount par n
  · rw [chunkAt_inner hlast]; omega
  · have hcount : j + 1 = n / par.chunk := by simp only [chunkCount] at htwo hj hlast; omega
    have hlo := Nat.div_mul_le_self n par.chunk
    have hhi : n < n / par.chunk * par.chunk + par.chunk := Nat.lt_div_mul_add hchunk
    rw [← hcount] at hlo hhi
    have hend : (chunkAt par n j).2 = n := if_pos (by omega)
    omega

/-- A later chunk starts where an earlier one has ended. -/
theorem partition_apart (par : Params) (n : Nat) : (partition par n).Pairwise fun c c' => c.2 ≤ c'.1 := by
  rw [partition_eq, List.pairwise_map]
  refine List.pairwise_lt_range.imp_of_mem fun {i j} _ hj hlt => ?_
  have hj := List.mem_range.mp hj
  rw [chunkAt_inner (by omega)]
  exact Nat.mul_le_mul_right _ hlt

end

/-- Settles O33: every clause is read off `chunkAt`. -/
theorem partitionCoversTheInput : Obligations.PartitionCoversTheInput := by
  intro par n hchunk
  simp only [length_partition]
  have hpos : 1 ≤ chunkCount par n := chunkCount_pos
  refine ⟨rfl, ?first, ?last, fun j hj => partition_getElem? hj, fun j c c' hc hc' => ?contiguous, fun c hc => ?sizes⟩
  case first => simp [List.head?_eq_getElem?, partition_getElem? hpos, chunkAt]
  case last =>
    rw [List.getLast?_eq_getElem?, length_partition, partition_getElem? (Nat.sub_lt hpos Nat.one_pos)]
    exact congrArg some chunkAt_last
  case contiguous =>
    obtain ⟨hj, -⟩ := List.getElem?_eq_some_iff.mp hc'
    rw [length_partition] at hj
    rw [partition_getElem? (by omega)] at hc
    rw [partition_getElem? hj] at hc'
    cases hc
    cases hc'
    exact (chunkAt_inner hj).symm
  case sizes =>
    obtain ⟨j, hj, rfl⟩ := mem_partition.mp hc
    refine ⟨chunkAt_start_le_end hj, fun htwo => ?_⟩
    have := chunkAt_size hchunk htwo hj
    omega

/-! ## The lists of the lanes (R142, R145) -/

/-- R26: offsets rise and the ranges do not overlap. -/
def Apart (a b : Match) : Prop :=
  a.offset.toNat + a.length.toNat ≤ b.offset.toNat ∧ a.offset.toNat < b.offset.toNat

/-- A valid match within `[start, limit)`. -/
structure MatchWithin (m : Mf) (start limit : Nat) (r : Match) : Prop where
  valid : ValidMatch m limit r.offset.toNat r.distance.toNat r.length.toNat
  start_le : start ≤ r.offset.toNat

theorem MatchWithin.later {m : Mf} {start start' limit : Nat} {r : Match} (h : MatchWithin m start limit r)
    (hs : start' ≤ start) : MatchWithin m start' limit r := ⟨h.valid, Nat.le_trans hs h.start_le⟩

theorem ValidMatch.limit_mono {m : Mf} {limit limit' pos d l : Nat} (h : ValidMatch m limit pos d l)
    (hle : limit ≤ limit') : ValidMatch m limit' pos d l := { h with inInput := Nat.le_trans h.inInput hle }

/-- The record of a valid match holds the match: nothing is cut to 32 bits. -/
theorem matchOf_toNat {m : Mf} {limit pos d l : Nat} (h : ValidMatch m limit pos d l) (hlimit : limit ≤ posMax) :
    (matchOf pos (d, l)).offset.toNat = pos ∧ (matchOf pos (d, l)).distance.toNat = d ∧
      (matchOf pos (d, l)).length.toNat = l := by
  have hd := h.notBeforeStart
  have hl := h.inInput
  exact ⟨wordOfNat_toNat (by omega), wordOfNat_toNat (by omega), wordOfNat_toNat (by omega)⟩

theorem matchOf_within {m : Mf} {limit pos d l : Nat} (h : ValidMatch m limit pos d l) (hlimit : limit ≤ posMax) :
    MatchWithin m pos limit (matchOf pos (d, l)) := by
  obtain ⟨ho, hd, hl⟩ := matchOf_toNat h hlimit
  exact ⟨by rw [ho, hd, hl]; exact h, Nat.le_of_eq ho.symm⟩

section

variable {par : Params} {m : Mf} (hmin : 1 ≤ m.minLen.toNat) (hmax : m.minLen.toNat ≤ m.maxLen.toNat)
include hmin hmax

/-- The greedy search records valid matches from its start on, in order and apart. -/
theorem laneLoop_valid {e : Nat} (he : e ≤ posMax) (k : Nat) {pos : Nat} {ix : Index} (hix : ValidIndex m e ix) :
    (∀ r ∈ laneLoop par m e k pos ix, MatchWithin m pos e r) ∧ (laneLoop par m e k pos ix).Pairwise Apart := by
  induction k generalizing pos ix with
  | zero => exact ⟨nofun, List.Pairwise.nil⟩
  | succ k ih =>
    rw [laneLoop]
    split
    case isFalse => exact ⟨nofun, List.Pairwise.nil⟩
    case isTrue hpos =>
      obtain ⟨hix1, hvalid⟩ := probe_valid (par := par) hix hmax hpos
      split
      case h_1 dl ix1 hprobe =>
        rw [hprobe] at hix1 hvalid
        have hv := hvalid dl rfl
        have hlong := hv.longEnough
        have hin := hv.inInput
        obtain ⟨hall, hapart⟩ := ih (pos := pos + dl.2) (insertRange_valid (dl.2 - 1) (p := pos + 1) hix1 (by omega))
        obtain ⟨ho, -, hl⟩ := matchOf_toNat hv he
        refine ⟨List.forall_mem_cons.mpr ⟨matchOf_within hv he, fun r hr => (hall r hr).later (Nat.le_add_right _ _)⟩,
          List.pairwise_cons.mpr ⟨fun r hr => ?_, hapart⟩⟩
        have hr := (hall r hr).start_le
        exact ⟨by rw [ho, hl]; exact hr, by rw [ho]; omega⟩
      case h_2 ix1 hprobe =>
        rw [hprobe] at hix1
        obtain ⟨hall, hapart⟩ := ih (pos := pos + 1) hix1
        exact ⟨fun r hr => (hall r hr).later (Nat.le_succ pos), hapart⟩

theorem lane_valid {c : Nat × Nat} (hc : c.1 ≤ c.2) (he : c.2 ≤ posMax) :
    (∀ r ∈ lane par m c, MatchWithin m c.1 c.2 r) ∧ (lane par m c).Pairwise Apart :=
  laneLoop_valid hmin hmax he _ (insertRange_valid _ (validIndex_empty m c.2) (by omega))

/-- Every chunk of the partition lies within the input, and its lane's list within the chunk. -/
theorem chunk_valid {c : Nat × Nat} (hc : c ∈ partition par m.n.toNat) :
    c.2 ≤ m.n.toNat ∧ (∀ r ∈ lane par m c, MatchWithin m c.1 c.2 r) ∧ (lane par m c).Pairwise Apart := by
  obtain ⟨j, hj, rfl⟩ := mem_partition.mp hc
  have hend := chunkAt_end_le hj
  exact ⟨hend, lane_valid hmin hmax (chunkAt_start_le_end hj) (Nat.le_trans hend (toNat_le_posMax _))⟩

/-- Every match of MF_FINDALL is one within a chunk. -/
theorem findAll_within (r : Match) (hr : r ∈ findAll par m) :
    ∃ c ∈ partition par m.n.toNat, MatchWithin m c.1 c.2 r := by
  rw [findAll_eq_lanes] at hr
  obtain ⟨c, hc, hr⟩ := List.mem_flatMap.mp hr
  obtain ⟨-, hwithin, -⟩ := chunk_valid hmin hmax hc
  exact ⟨c, hc, hwithin r hr⟩

/-- The list that MF_FINDALL builds is valid: each lane's is, and the chunks lie apart (R143, R145). -/
theorem findAll_valid : ValidList m (findAll par m) := by
  refine ⟨fun r hr => ?valid, ?apart⟩
  case valid =>
    obtain ⟨c, hc, hwithin⟩ := findAll_within hmin hmax r hr
    exact hwithin.valid.limit_mono (chunk_valid hmin hmax hc).1
  case apart =>
    rw [findAll_eq_lanes, List.pairwise_flatMap]
    refine ⟨fun c hc => (chunk_valid hmin hmax hc).2.2,
      (partition_apart par m.n.toNat).imp_of_mem fun {c c'} hc hc' hle x hx y hy => ?_⟩
    obtain ⟨-, hwithin, -⟩ := chunk_valid hmin hmax hc
    obtain ⟨-, hwithin', -⟩ := chunk_valid hmin hmax hc'
    have hstart := (hwithin' y hy).start_le
    have hin := (hwithin x hx).valid.inInput
    have hlong := (hwithin x hx).valid.longEnough
    omega

end

/-! ## The invariant of the finder (R46, R47, R136, R145) -/

theorem FinderInv.congr {s t : State} (h : FinderInv s) (hmf : t.mf = s.mf) (hpar : t.par = s.par) : FinderInv t := by
  constructor <;> simp only [hmf, hpar]
  · exact h.constraints
  · exact h.lookAhead
  · exact h.inputWf
  · exact h.index
  · exact h.list

/-- A valid match is one by the constraints and the input alone. -/
theorem ValidMatch.withWork {m : Mf} {limit pos d l : Nat} (h : ValidMatch m limit pos d l) (ix : Index)
    (ml : List Match) : ValidMatch { m with index := ix, ml := ml } limit pos d l :=
  ⟨h.distancePos, h.inWindow, h.notBeforeStart, h.longEnough, h.shortEnough, h.inInput, h.trueRepeat⟩

/-- A search command puts another index in order and another valid list in place. -/
theorem FinderInv.setWork {s : State} (h : FinderInv s) {ix : Index} {ml : List Match}
    (hix : ValidIndex s.mf s.mf.n.toNat ix) (hml : ValidList s.mf ml) :
    FinderInv (s.withMf { s.mf with index := ix, ml := ml }) where
  constraints := h.constraints
  lookAhead := h.lookAhead
  inputWf := h.inputWf
  index := ⟨hix.falling, hix.belowNext, hix.keyables, hix.nextBound⟩
  list := ⟨fun r hr => (hml.1 r hr).withWork ix ml, hml.2⟩

/-! ## MF_INIT (R137) -/

/-- What MF_INIT latches. -/
def latchedFinder (s : State) : Mf where
  active := true
  winSize := s.csr.winSize
  minLen := s.csr.minLen
  maxLen := s.csr.maxLen
  level := s.csr.mfCtrl.level
  la := s.csr.mfCtrl.la && laOk s.par s.csr.mfCtrl.level
  n := s.csr.mfInlen
  input := s.inbuf
  index := ⟨[], 0⟩
  ml := []

section

variable {s : State}

theorem mfInitOp_badWindow (hw : ¬(1 ≤ s.csr.winSize.toNat ∧ s.csr.winSize.toNat ≤ s.par.wmax)) :
    mfInitOp s = .raise .configError 0x10 s.csr.winSize s := if_pos hw

variable (hw : 1 ≤ s.csr.winSize.toNat ∧ s.csr.winSize.toNat ≤ s.par.wmax)
include hw

theorem mfInitOp_badMinLen (hlo : ¬1 ≤ s.csr.minLen.toNat) :
    mfInitOp s = .raise .configError 0x11 s.csr.minLen s :=
  (if_neg (not_not_intro hw)).trans (if_pos hlo)

theorem mfInitOp_badMaxLen (hlo : 1 ≤ s.csr.minLen.toNat) (hhi : ¬s.csr.minLen.toNat ≤ s.csr.maxLen.toNat) :
    mfInitOp s = .raise .configError 0x12 s.csr.maxLen s :=
  ((if_neg (not_not_intro hw)).trans (if_neg (not_not_intro hlo))).trans (if_pos hhi)

theorem mfInitOp_latches (hlo : 1 ≤ s.csr.minLen.toNat) (hhi : s.csr.minLen.toNat ≤ s.csr.maxLen.toNat) :
    mfInitOp s = .ok Reply.zero (s.withMf (latchedFinder s)) :=
  ((if_neg (not_not_intro hw)).trans (if_neg (not_not_intro hlo))).trans (if_neg (not_not_intro hhi))

end

/-- Settles O23: the four ways through the tests of `mfInitOp`. -/
theorem mfInitChecksAndLatches : Obligations.MfInitChecksAndLatches := by
  intro s hf
  refine ⟨fun hw => ?window, fun hone hmax => ⟨fun hlo => ?minLen, fun hlo hhi => ?maxLen, fun hlo hhi => ?legal⟩⟩
  case window => exact runCommand_raises hf rfl (mfInitOp_badWindow (by omega))
  case minLen => exact runCommand_raises hf rfl (hlo ▸ mfInitOp_badMinLen ⟨hone, hmax⟩ (by simp [hlo]))
  case maxLen => exact runCommand_raises hf rfl (mfInitOp_badMaxLen ⟨hone, hmax⟩ hlo (by omega))
  case legal => exact runCommand_done hf rfl (mfInitOp_latches ⟨hone, hmax⟩ hlo hhi)

/-! ## The invariant through the finder's commands -/

section

variable {s : State} (h : FinderInv s)
include h

/-- MF_INIT latches only what passed its tests (R137). -/
theorem FinderInv.mfInitOp (hwf : s.inbuf.wf) : FinderInv (mfInitOp s).state := by
  by_cases hw : 1 ≤ s.csr.winSize.toNat ∧ s.csr.winSize.toNat ≤ s.par.wmax
  swap
  · rw [mfInitOp_badWindow hw]; exact h
  by_cases hlo : 1 ≤ s.csr.minLen.toNat
  swap
  · rw [mfInitOp_badMinLen hw hlo]; exact h
  by_cases hhi : s.csr.minLen.toNat ≤ s.csr.maxLen.toNat
  swap
  · rw [mfInitOp_badMaxLen hw hlo hhi]; exact h
  rw [mfInitOp_latches hw hlo hhi]
  exact
    { constraints := fun _ => ⟨hw, hlo, hhi⟩
      lookAhead := fun hla => ((Bool.and_eq_true _ _).mp hla).2
      inputWf := hwf
      index := validIndex_empty _ _
      list := ⟨nofun, List.Pairwise.nil⟩ }

theorem FinderInv.mfFindOp (a : Word) (hmax : s.mf.minLen.toNat ≤ s.mf.maxLen.toNat) :
    FinderInv (mfFindOp a s).state := by
  unfold Machine.mfFindOp
  split
  · exact h
  · next hn => exact h.setWork (probe_valid h.index hmax (not_not.mp hn)).1 h.list

theorem FinderInv.mfAddOp (a : Word) : FinderInv (mfAddOp a s).state := by
  unfold Machine.mfAddOp
  split
  · exact h
  · next hn => exact h.setWork (insertPos_valid h.index (not_not.mp hn)) h.list

theorem FinderInv.mfAddrOp (a b : Word) : FinderInv (mfAddrOp a b s).state := by
  unfold Machine.mfAddrOp
  split
  · exact h
  · next hn => exact h.setWork (insertRange_valid _ h.index (not_not.mp hn)) h.list

/-- Every command's body keeps the invariant: those of the finder run only while it is active, with legal constraints. -/
theorem FinderInv.body {i : Instr} (hwf : s.inbuf.wf) (hr : unitReady i s = true) : FinderInv (bodyOf i s).state := by
  rcases (body_leaves i s).2 with ht | hmf
  swap
  · exact h.congr hmf (body_par i s)
  cases i <;> simp only [touches, reduceCtorEq] at ht
  case mfInit => exact h.mfInitOp hwf
  case mfFind a =>
    obtain ⟨-, -, hmax⟩ := h.constraints hr
    exact h.mfFindOp a hmax
  case mfAdd a => exact h.mfAddOp a
  case mfAddr a b => exact h.mfAddrOp a b
  case mfFindall =>
    obtain ⟨-, hmin, hmax⟩ := h.constraints hr
    exact h.setWork h.index (findAll_valid hmin hmax)
  case mfMread a => exact h

end

theorem body_inbuf (i : Instr) (s : State) : (bodyOf i s).state.inbuf = s.inbuf :=
  (congrArg State.inbuf (body_frame i s) :)

/-- Settles O56: the drain, the end of a command and the host leave MF alone, a reset leaves an idle and empty finder, and
the bodies keep the invariant. -/
theorem stepKeepsFinderInvariant : Obligations.StepKeepsFinderInvariant := by
  intro s t _ hwf hs h
  refine step_keeps (P := fun u => FinderInv u ∧ u.inbuf.wf) h ⟨hs, hwf⟩ (fun hd hu => ?drain) (fun ho hu => ?outer)
    (fun _ {u} hu => ⟨finderInv_resetBlock u, hu.2⟩) fun {_ i u} _ _ hu _ hr => ⟨hu.1.body hu.2 hr, ?body⟩
  case drain =>
    rw [hd.frame]
    exact ⟨hu.1.congr rfl rfl, hu.2⟩
  case outer =>
    refine ⟨?_, ho.inbufWf hu.2⟩
    rw [ho.frame]
    exact hu.1.congr rfl rfl
  case body => rw [body_inbuf]; exact hu.2

/-! ## The commands on a finder that meets the invariant -/

/-- Settles O25: what the probe answers is valid, and the response holds it uncut. -/
theorem mfFindReportsOnlyValidMatches : Obligations.MfFindReportsOnlyValidMatches := by
  intro s a hf ha hs hn
  obtain ⟨-, -, hmax⟩ := hs.constraints ha
  have hvalid := (probe_valid (par := s.par) hs.index hmax hn).2
  rcases hp : probe s.par s.mf s.mf.index a.toNat s.mf.n.toNat with ⟨_ | ⟨d, l⟩, ix⟩
  · exact ⟨_, 0, 0, 0, exec_mfFind_none hf ha hn hp, rfl, .inl ⟨rfl, rfl, rfl⟩⟩
  · rw [hp] at hvalid
    have hv := hvalid (d, l) rfl
    obtain ⟨-, hd, hl⟩ := matchOf_toNat hv (toNat_le_posMax _)
    refine ⟨_, a, (matchOf a.toNat (d, l)).distance, (matchOf a.toNat (d, l)).length, exec_mfFind_some hf ha hn hp, rfl,
      .inr ⟨rfl, ?_⟩⟩
    rw [hd, hl]
    exact hv

/-- Settles O30: each match is that of a lane, which lies within its chunk. -/
theorem mfFindallBuildsValidList : Obligations.MfFindallBuildsValidList := by
  intro s hf ha hs _
  obtain ⟨-, hmin, hmax⟩ := hs.constraints ha
  refine ⟨findAll s.par s.mf, exec_mfFindall hf ha, findAll_valid hmin hmax, fun r hr => ?_⟩
  obtain ⟨c, hc, hwithin⟩ := findAll_within hmin hmax r hr
  exact ⟨c, hc, hwithin.start_le, hwithin.valid.inInput⟩

/-- The streaming loop on a block whose finder looks at the first `e` bytes of the input, with an index of its own. -/
theorem streamLoop_withSpan {s u : State} {e : Nat} {ix : Index} (hmf : u.mf = s.mf.withSpan (wordOfNat e) ix)
    (hpar : u.par = s.par) (hf : u.flt = none) (ha : s.mf.active = true)
    (hm : 1 ≤ s.mf.minLen.toNat ∧ s.mf.minLen.toNat ≤ s.mf.maxLen.toNat) (he : e ≤ posMax) (hix : ValidIndex s.mf e ix)
    (k pos : Nat) : streamLoop k pos u = some (laneLoop s.par s.mf e k pos ix) := by
  have hn : u.mf.n.toNat = e := by rw [hmf]; exact wordOfNat_toNat he
  have hvalid : ValidIndex u.mf u.mf.n.toNat u.mf.index := by
    rw [hn, hmf]
    exact ⟨hix.falling, hix.belowNext, hix.keyables, hix.nextBound⟩
  rw [streamLoop_eq k pos u hf (by rw [hmf]; exact ha) (by rw [hmf]; exact hm) hvalid, hn, hpar, hmf, laneLoop_withSpan]
  rfl

/-- The lane of a chunk is the streaming loop over an input cut off at the chunk's end, with an index that MF_ADDR has given
the up to W positions before the chunk (R142, R146). -/
theorem lane_streams {s : State} (hf : s.flt = none) (ha : s.mf.active = true)
    (hm : 1 ≤ s.mf.minLen.toNat ∧ s.mf.minLen.toNat ≤ s.mf.maxLen.toNat) {b e : Nat} (hbe : b ≤ e) (he : e ≤ posMax) :
    ∃ u, exec (.mfAddr (wordOfNat (b - s.mf.winSize.toNat)) (wordOfNat (min b s.mf.winSize.toNat)))
        (s.withMf (s.mf.withSpan (wordOfNat e) ⟨[], 0⟩)) = .next u ∧
      streamLoop (e - b) b u = some (lane s.par s.mf (b, e)) := by
  have hn : (wordOfNat e).toNat = e := wordOfNat_toNat he
  have hfrom : (wordOfNat (b - s.mf.winSize.toNat)).toNat = b - s.mf.winSize.toNat := wordOfNat_toNat (by omega)
  have hcount : (wordOfNat (min b s.mf.winSize.toNat)).toNat = b - (b - s.mf.winSize.toNat) :=
    (wordOfNat_toNat (by omega)).trans (by omega)
  have hfits : (wordOfNat (b - s.mf.winSize.toNat)).toNat + (wordOfNat (min b s.mf.winSize.toNat)).toNat ≤
      (wordOfNat e).toNat := by omega
  have hcontext : insertRange (s.mf.withSpan (wordOfNat e) ⟨[], 0⟩) (wordOfNat e).toNat
      (wordOfNat (min b s.mf.winSize.toNat)).toNat (wordOfNat (b - s.mf.winSize.toNat)).toNat ⟨[], 0⟩ =
      insertRange s.mf e (b - (b - s.mf.winSize.toNat)) (b - s.mf.winSize.toNat) ⟨[], 0⟩ := by
    rw [hn, hfrom, hcount, insertRange_withSpan]
  have hvalid : ValidIndex s.mf e (insertRange s.mf e (b - (b - s.mf.winSize.toNat)) (b - s.mf.winSize.toNat) ⟨[], 0⟩) :=
    insertRange_valid _ (validIndex_empty _ _) (by omega)
  refine ⟨_, exec_mfAddr hf ha hfits, ?_⟩
  refine streamLoop_withSpan ?mf ?par ?flt ha hm he hvalid _ _
  case mf => exact congrArg (s.mf.withSpan (wordOfNat e)) hcontext
  case par => rfl
  case flt => exact hf

/-- Settles O31: both loops are `laneLoop`, and MF_FINDALL's list is that of the lanes, one per chunk. -/
theorem streamingEqualsWholeBuffer : Obligations.StreamingEqualsWholeBuffer := by
  refine ⟨fun s hf ha hs hempty hn => ?single, fun s hf ha hs _ => ?chunks⟩
  case single =>
    obtain ⟨-, hm⟩ := hs.constraints ha
    refine ⟨_, exec_mfFindall hf ha, ?_⟩
    rw [streamLoop_eq _ _ s hf ha hm hs.index, hempty]
    simp only [replied, findAll_eq_lanes, partition_single hn, List.flatMap_singleton]
    simp only [lane, Nat.zero_sub, Nat.sub_zero, insertRange]
  case chunks =>
    obtain ⟨-, hm⟩ := hs.constraints ha
    refine ⟨_, (partition s.par s.mf.n.toNat).map (lane s.par s.mf), exec_mfFindall hf ha,
      (findAll_eq_lanes _ _).trans List.flatMap_def, List.length_map _, fun j b e hj => ?_⟩
    obtain ⟨i, hi, hc⟩ := mem_partition.mp (List.mem_of_getElem? hj)
    have hbe := chunkAt_start_le_end hi
    have hend := chunkAt_end_le hi
    rw [hc] at hbe hend
    obtain ⟨u, hu, hstream⟩ := lane_streams hf ha hm hbe (Nat.le_trans hend (toNat_le_posMax _))
    exact ⟨u, _, hu, hstream, by rw [List.getElem?_map, hj]; rfl⟩

end Sys2Proof.Machine

/-! # The sliding window's commands: what each produces, and where it stops -/

namespace Sys2Proof.Machine

/-! ## Commands of an active unit in the frame of R106 -/

section

variable {i : Instr} {s u : State} {c : Cause} {i0 i1 : Word}

/-- A command whose unit is active ends as its body does. -/
theorem exec_active_runs {unit : UnitId} (hf : s.flt = none) (hu : unitOf i = some unit) (ha : s.unitActive unit = true) :
    exec i s = .next (finish (encode i).w0 (bodyOf i s)) := by
  have hi : i ≠ .reset := by rintro rfl; cases hu
  have hready : unitReady i s = true := by simp only [unitReady, hu]; exact ha
  rw [exec_eq_run hi, runCommand_runs hf hready]

theorem exec_active_done {unit : UnitId} (hf : s.flt = none) (hu : unitOf i = some unit) (ha : s.unitActive unit = true)
    {r : Reply} (hb : bodyOf i s = .ok r u) : exec i s = .next (replied r.r0 r.r1 r.r2 u) := by
  rw [exec_active_runs hf hu ha, hb, finish_ok]

theorem exec_active_raises {unit : UnitId} (hf : s.flt = none) (hu : unitOf i = some unit) (ha : s.unitActive unit = true)
    (hb : bodyOf i s = .raise c i0 i1 u) : exec i s = .next (faultedBy i c i0 i1 u) := by
  rw [exec_active_runs hf hu ha, hb, finish_raise]

/-- A byte-producing command that completes: its state settled, and no word in the reply (R161, R172). -/
theorem exec_producing_done (hf : s.flt = none) (hu : unitOf i = some .sw) (ha : s.sw.active = true)
    (hb : bodyOf i s = producing (.ok () u)) : exec i s = .next (replied 0 0 0 (settle u)) :=
  exec_active_done hf hu ha hb

/-- A byte-producing command that raises keeps what it has produced, settled (R225, R172). -/
theorem exec_producing_raises (hf : s.flt = none) (hu : unitOf i = some .sw) (ha : s.sw.active = true)
    (hb : bodyOf i s = producing (.raise c i0 i1 u)) : exec i s = .next (faultedBy i c i0 i1 (settle u)) :=
  exec_active_raises hf hu ha hb

end

/-! ## What producing bytes leaves once the drain, the response and the count are done -/

/-- The state with SINK put back in front of the queue, and without the response, the fault record, the count, what the host
does next and the drain's counter: what is left is what producing bytes is about. -/
def State.undrained (s : State) : State :=
  { s with
    host := [], resp := none, drainTick := 0, flt := none, cmdcnt := 0, sink := [], sw := { s.sw with pend := s.out } }

theorem undrained_congr {s t : State} (hout : t.out = s.out)
    (h : t = { s with
      host := t.host, resp := t.resp, drainTick := t.drainTick, flt := t.flt, cmdcnt := t.cmdcnt, sink := t.sink,
      sw := { s.sw with pend := t.sw.pend } }) : t.undrained = s.undrained := by
  rw [State.undrained, State.undrained, hout, h]

theorem settle_undrained (s : State) : (settle s).undrained = s.undrained := undrained_congr (settle_out s) rfl

theorem Drained.undrained {s t : State} (h : Drained s t) : t.undrained = s.undrained := by
  rw [h.frame]
  exact undrained_congr (h.frame ▸ h.out) rfl

/-- From `s` to `t` the window has produced `bytes`, and nothing else has happened that is not the drain's, the host's or the
end of a command. -/
def Appends (bytes : List Byte) (s t : State) : Prop := Produces bytes s.undrained t.undrained

theorem Appends.of_undrained {s t : State} (h : t.undrained = s.undrained) : Appends [] s t := by
  rw [Appends, h]
  exact Produces.refl _

theorem Appends.trans {l1 l2 : List Byte} {s t u : State} (h1 : Appends l1 s t) (h2 : Appends l2 t u) :
    Appends (l1 ++ l2) s u := Produces.trans h1 h2

theorem Appends.out {bytes : List Byte} {s t : State} (h : Appends bytes s t) : t.out = s.out ++ bytes :=
  Produces.out (s := s.undrained) (t := t.undrained) h

theorem Appends.produced {bytes : List Byte} {s t : State} (h : Appends bytes s t) :
    t.sw.produced.toNat = s.sw.produced.toNat + bytes.length :=
  Produces.produced (s := s.undrained) (t := t.undrained) h

theorem Appends.ring {bytes : List Byte} {s t : State} (h : Appends bytes s t) : RingFrame bytes.length s t :=
  Produces.ring (s := s.undrained) (t := t.undrained) h

theorem Appends.frame {bytes : List Byte} {s t : State} (h : Appends bytes s t) :
    WindowFrame { s with host := t.host, drainTick := t.drainTick } t := by
  obtain ⟨par, -, srcNext, inbuf, -, csr, mf, fr, fw, src, dst, active, winSize, winStart⟩ := Produces.frame h
  exact ⟨par, rfl, srcNext, inbuf, rfl, csr, mf, fr, fw, src, dst, active, winSize, winStart⟩

theorem Produces.appends {bytes : List Byte} {s t : State} (h : Produces bytes s t) : Appends bytes s t := by
  obtain ⟨⟨par, host, srcNext, inbuf, tick, csr, mf, fr, fw, src, dst, active, winSize, winStart⟩, -, -, -, -, out, produced,
    ring⟩ := h
  exact ⟨⟨par, rfl, srcNext, inbuf, rfl, csr, mf, fr, fw, src, dst, active, winSize, winStart⟩, rfl, rfl, rfl, rfl, out,
    produced, ring⟩

/-- From `s` to `t` one command has produced `bytes`, whether it completed or raised (R161, R172, R225). -/
structure Delivers (bytes : List Byte) (s t : State) : Prop where
  frame : WindowFrame s t
  ring : RingFrame bytes.length s t
  out : t.out = s.out ++ bytes
  produced : t.sw.produced.toNat = s.sw.produced.toNat + bytes.length
  cmdcnt : t.cmdcnt = s.cmdcnt + 1
  pend : t.sw.pend.length ≤ s.par.swbuf

/-- The frame leaves open what the end of a command, the drain and a move of the cursor change. -/
theorem WindowFrame.congr {s t u : State} (h : WindowFrame s t)
    (hu : u = { t with
      resp := u.resp, flt := u.flt, cmdcnt := u.cmdcnt, srcPos := u.srcPos, sink := u.sink,
      sw := { t.sw with ring := u.sw.ring, produced := u.sw.produced, pend := u.sw.pend } }) : WindowFrame s u := by
  obtain ⟨par, host, srcNext, inbuf, tick, csr, mf, fr, fw, src, dst, active, winSize, winStart⟩ := h
  rw [hu]
  exact ⟨par, host, srcNext, inbuf, tick, csr, mf, fr, fw, src, dst, active, winSize, winStart⟩

theorem Produces.delivers {bytes : List Byte} {s u : State} (h : Produces bytes s u) (f : Option FaultRecord)
    (r : Option Response) : Delivers bytes s { settle u with flt := f, resp := r, cmdcnt := u.cmdcnt + 1 } where
  frame := h.frame.congr rfl
  ring := h.ring
  out := (settle_out u).trans h.out
  produced := h.produced
  cmdcnt := congrArg (· + 1) h.cmdcnt
  pend := h.frame.par ▸ settle_pend u

/-- Where the cursor stands is left open by what producing bytes changes (R166). -/
theorem Produces.moveCursor {bytes : List Byte} {s u : State} (h : Produces bytes s u) (p : Word) :
    Produces bytes s { u with srcPos := p } :=
  ⟨h.frame.congr rfl, h.flt, h.resp, h.cmdcnt, h.sink, h.out, h.produced, h.ring⟩

/-! ## SW_INIT (R162) -/

/-- Settles O34: the one check, then the fresh window. -/
theorem swInitStartsEmptyWindow : Obligations.SwInitStartsEmptyWindow := by
  refine fun s hf => ⟨fun hbad => ?illegal, fun hmin hmax => ?legal⟩
  case illegal =>
    have hb : swInitOp s = .raise .configError 0x10 s.csr.winSize s := if_pos (by omega)
    exact runCommand_raises hf rfl hb
  case legal =>
    have hb : swInitOp s = .ok Reply.zero (s.withSw ⟨true, s.csr.winSize, s.csr.winStart, [], 0, []⟩) :=
      if_neg (not_not_intro ⟨hmin, hmax⟩)
    exact ⟨_, runCommand_done hf rfl hb, rfl, rfl, rfl, rfl, rfl, Memory.read_nil⟩

/-! ## SW_WRB (R163) -/

theorem encode_w0_swWrb (b : Word) : (encode (.swWrb b)).w0 = 0x21 := by
  simp [encode, Instr.fields, Fields.cmd]

theorem exec_swWrb_idle {s : State} (b : Word) (hf : s.flt = none) (ha : s.sw.active = false) :
    exec (.swWrb b) s = .next (faultedBy (.swWrb b) .badSequence 0x21 s.status s) := by
  rw [exec_idle (u := .sw) hf rfl ha, encode_w0_swWrb]

/-- Settles O35: `put` at a counter with room and at its limit. -/
theorem swWrbProducesOneByte : Obligations.SwWrbProducesOneByte := by
  refine fun s b hf => ⟨exec_swWrb_idle b hf, fun ha hpend => ⟨fun hlimit => ?limit, fun hp => ?room⟩⟩
  case limit =>
    have hb : bodyOf (.swWrb b) s = producing (.raise .overflow 0x22 0 s) :=
      congrArg producing (put_overflow hlimit.ge)
    rw [exec_producing_raises hf rfl ha hb, settle_of_le hpend]
  case room =>
    have hb : bodyOf (.swWrb b) s = producing (.ok () (putState (byteOperand b) s)) := congrArg producing (put_ok hp)
    have hd := (Produces.put hp (byteOperand b)).delivers s.flt (some ⟨0, 0, 0, 0⟩)
    exact ⟨_, exec_producing_done hf rfl ha hb, rfl, hd.cmdcnt, hf, hd.frame, rfl, hd.out, hd.pend, hd.produced,
      fun i => Memory.read_write _ _ i _⟩

/-! ## SW_BCOPY (R164, R168) -/

theorem backCopy_legal {d : Nat} (k : Nat) {s : State} (h1 : 1 ≤ d) (h2 : d ≤ s.sw.winSize.toNat)
    (h3 : d ≤ s.sw.produced.toNat) : backCopy d k s = copyLoop d k s :=
  if_neg (not_not_intro ⟨h1, h2, h3⟩)

theorem backCopy_illegal {d : Nat} (k : Nat) {s : State}
    (h : d = 0 ∨ s.sw.winSize.toNat < d ∨ s.sw.produced.toNat < d) :
    backCopy d k s = .raise .corruptReference (wordOfNat d) s.sw.produced s :=
  if_pos (by omega)

/-- Settles O37: the check comes before the loop. -/
theorem backCopyRejectsBadDistance : Obligations.BackCopyRejectsBadDistance := by
  intro s d l hf ha hpend hbad
  have hdist : d.toNat = 0 ∨ s.sw.winSize.toNat < d.toNat ∨ s.sw.produced.toNat < d.toNat :=
    hbad.imp_left (congrArg BitVec.toNat)
  have hb : bodyOf (.swBcopy d l) s = producing (.raise .corruptReference (wordOfNat d.toNat) s.sw.produced s) :=
    congrArg producing (backCopy_illegal _ hdist)
  rw [exec_producing_raises hf rfl ha hb, settle_of_le hpend, wordOfNat_toNat_word]

/-- A sequence that from position `base.length` on repeats itself `d` places back has period `d` there, starting with the last
`d` elements of `base` (R168). -/
theorem periodic_of_repeats {α : Type} {base out : List α} {d k : Nat} (hpre : base <+: out) (hd : 1 ≤ d)
    (hlen : d ≤ base.length) (h : ∀ i, i < k → out[base.length + i]? = out[base.length + i - d]?) (i : Nat) (hi : i < k) :
    out[base.length + i]? = base[base.length - d + i % d]? := by
  induction i using Nat.strong_induction_on with
  | _ i ih =>
    rw [h i hi]
    rcases Nat.lt_or_ge i d with hlt | hge
    · obtain ⟨rest, rfl⟩ := hpre
      rw [Nat.mod_eq_of_lt hlt, List.getElem?_append_left (by omega),
        show base.length + i - d = base.length - d + i by omega]
    · rw [show base.length + i - d = base.length + (i - d) by omega, ih (i - d) (by omega) (by omega),
        Nat.mod_eq_sub_mod hge]

/-- Settles O36: the loop repeats the byte `d` places back each time, which makes the bytes of the copy periodic. -/
theorem backCopyRepeatsTheWindow : Obligations.BackCopyRepeatsTheWindow := by
  intro s d l hf ha hw h1 h2 h3 hfits
  obtain ⟨u, bytes, hm, hsrc, -, hrep, ⟨-, hlen, e⟩ | ⟨hover, -⟩⟩ := copyLoop_spec d.toNat l.toNat s
  case inr => exact absurd hfits (Nat.not_le.mpr hover)
  have hb : bodyOf (.swBcopy d l) s = producing (.ok () u) :=
    congrArg producing ((backCopy_legal _ h1 h2 h3).trans e)
  have hd := hm.delivers u.flt (some ⟨0, 0, 0, 0⟩)
  have hinv : WindowInv (settle u) := by
    have hkept := hw.body (i := .swBcopy d l) ha
    rwa [hb] at hkept
  have hpre : s.out <+: u.out := hm.out ▸ List.prefix_append _ _
  replace hrep := hrep (hw.ringInv ha) h1 h2 h3
  rw [hlen] at hrep
  have hout : (replied 0 0 0 (settle u)).out = u.out := settle_out u
  refine ⟨_, exec_producing_done hf rfl ha hb, rfl, hd.cmdcnt, hm.flt.trans hf, hd.frame, hlen ▸ hd.ring,
    hinv.congr rfl rfl rfl, hsrc, hlen ▸ hd.produced, ?_⟩
  rw [hout]
  exact ⟨by rw [hm.out, List.length_append, hlen], hpre, hrep,
    periodic_of_repeats hpre h1 (h3.trans hw.producedOut) hrep⟩

/-- Settles O38: the loop raises at the first byte that does not fit. -/
theorem backCopyStopsAtTheCounterLimit : Obligations.BackCopyStopsAtTheCounterLimit := by
  intro s d l hf ha h1 h2 h3 hover
  obtain ⟨u, bytes, hm, hsrc, -, hrep, ⟨hfits, -⟩ | ⟨-, hlimit, e⟩⟩ := copyLoop_spec d.toNat l.toNat s
  case inl => exact absurd hfits (Nat.not_le.mpr hover)
  have hlen : bytes.length = 2 ^ 32 - 1 - s.sw.produced.toNat := Nat.eq_sub_of_add_eq' hlimit
  have hb : bodyOf (.swBcopy d l) s = producing (.raise .overflow 0x22 0 u) :=
    congrArg producing ((backCopy_legal _ h1 h2 h3).trans e)
  have hd := hm.delivers (some ⟨.overflow, 0x22, 0x22, 0⟩) (some ⟨7, 0x22, 0, 0⟩)
  have hout : (settle u).out = u.out := settle_out u
  refine ⟨_, exec_producing_raises hf rfl ha hb, rfl, rfl, hd.cmdcnt, hd.frame, hlen ▸ hd.ring, hsrc,
    hd.produced.trans hlimit, hd.out ▸ List.prefix_append _ _, ?_, ?_⟩
  · rw [← hlen]; exact (congrArg List.length hd.out).trans List.length_append
  · intro hw
    rw [← hlen]
    show ∀ i, i < bytes.length → (settle u).out[s.out.length + i]? = (settle u).out[s.out.length + i - d.toNat]?
    rw [hout]
    exact hrep (hw.ringInv ha) h1 h2 h3

/-! ## SW_OCOPY (R165) -/

/-- The distance that an offset names is 1 to W, and modulo W it is how far the slot stands behind the write slot. -/
theorem offsetDistance_spec {w : Sw} (a : Nat) (hw : 1 ≤ w.winSize.toNat) :
    1 ≤ w.offsetDistance a ∧ w.offsetDistance a ≤ w.winSize.toNat ∧
      w.offsetDistance a ≡ w.writeSlot + w.winSize.toNat - a % w.winSize.toNat [MOD w.winSize.toNat] := by
  unfold Sw.offsetDistance
  dsimp only
  split
  · next hzero => exact ⟨hw, Nat.le_refl _, (Nat.mod_self _).trans hzero.symm⟩
  · next hpos => exact ⟨Nat.one_le_iff_ne_zero.mpr hpos, (Nat.mod_lt _ hw).le, Nat.mod_modEq _ _⟩

/-- The slot of an offset and its distance add up to the write cursor, modulo W. -/
theorem offsetDistance_add {w : Sw} (a : Nat) (hw : 1 ≤ w.winSize.toNat) :
    w.offsetDistance a + a % w.winSize.toNat ≡ w.winStart.toNat + w.produced.toNat [MOD w.winSize.toNat] := by
  have hlt : a % w.winSize.toNat < w.winSize.toNat := Nat.mod_lt _ hw
  obtain ⟨-, -, hdist⟩ := offsetDistance_spec a hw
  calc w.offsetDistance a + a % w.winSize.toNat
      ≡ w.writeSlot + w.winSize.toNat - a % w.winSize.toNat + a % w.winSize.toNat [MOD w.winSize.toNat] :=
        hdist.add_right _
    _ = w.writeSlot + w.winSize.toNat := Nat.sub_add_cancel (by omega)
    _ ≡ w.writeSlot [MOD w.winSize.toNat] := Nat.add_modEq_right
    _ ≡ w.winStart.toNat + w.produced.toNat [MOD w.winSize.toNat] := Nat.mod_modEq _ _

/-- The slot that an offset names is the one its distance reaches back to. -/
theorem readSlot_offsetDistance {w : Sw} (a : Nat) (hw : 1 ≤ w.winSize.toNat)
    (hd : w.offsetDistance a ≤ w.produced.toNat) : w.readSlot (w.offsetDistance a) = a % w.winSize.toNat := by
  have hsum : w.offsetDistance a + a % w.winSize.toNat ≡ w.winStart.toNat + w.produced.toNat [MOD w.winSize.toNat] :=
    offsetDistance_add a hw
  have hback : w.offsetDistance a + a % w.winSize.toNat ≡
      w.offsetDistance a + (w.winStart.toNat + w.produced.toNat - w.offsetDistance a) [MOD w.winSize.toNat] := by
    rwa [Nat.add_sub_of_le (by omega)]
  exact (Nat.ModEq.add_left_cancel' _ hback).symm.trans (Nat.mod_modEq _ _)

/-- With the distance its offset names, SW_BCOPY does what SW_OCOPY does. -/
theorem swOcopy_body {a : Word} {s : State} (l : Word) (hd : s.sw.offsetDistance a.toNat ≤ posMax) :
    bodyOf (.swOcopy a l) s = bodyOf (.swBcopy (wordOfNat (s.sw.offsetDistance a.toNat)) l) s := by
  simp only [bodyOf, swOcopyOp, swBcopyOp, wordOfNat_toNat hd]

/-- Settles O39: an offset's distance is never 0 nor above W, so the check of SW_BCOPY fails only for want of bytes. -/
theorem offsetCopyIsABackCopy : Obligations.OffsetCopyIsABackCopy := by
  intro s a l hf ha hw hpend
  show let d := s.sw.offsetDistance a.toNat; _
  intro d
  obtain ⟨h1, h2, -⟩ : 1 ≤ d ∧ d ≤ s.sw.winSize.toNat ∧ _ := offsetDistance_spec a.toNat hw
  have hbody : bodyOf (.swOcopy a l) s = bodyOf (.swBcopy (wordOfNat d) l) s :=
    swOcopy_body l (h2.trans (toNat_le_posMax _))
  refine ⟨readSlot_offsetDistance a.toNat hw, fun h3 hfits => ?completes, fun h3 => ?corrupt, fun h3 hover => ?limit⟩
  case completes =>
    obtain ⟨u, bytes, hm, -, -, -, ⟨-, -, e⟩ | ⟨hover, -⟩⟩ := copyLoop_spec d l.toNat s
    case inr => exact absurd hfits (Nat.not_le.mpr hover)
    have hb : bodyOf (.swOcopy a l) s = producing (.ok () u) := congrArg producing ((backCopy_legal _ h1 h2 h3).trans e)
    exact ⟨_, exec_producing_done hf rfl ha hb, exec_producing_done hf rfl ha (hbody ▸ hb), hm.flt.trans hf, rfl⟩
  case corrupt =>
    have hb : bodyOf (.swOcopy a l) s = producing (.raise .corruptReference (wordOfNat d) s.sw.produced s) :=
      congrArg producing (backCopy_illegal _ (.inr (.inr h3)))
    rw [exec_producing_raises hf rfl ha hb, settle_of_le hpend]
    rfl
  case limit =>
    obtain ⟨u, bytes, hm, -, -, -, ⟨hfits, -⟩ | ⟨-, hlimit, e⟩⟩ := copyLoop_spec d l.toNat s
    case inl => exact absurd hfits (Nat.not_le.mpr hover)
    have hb : bodyOf (.swOcopy a l) s = producing (.raise .overflow 0x22 0 u) :=
      congrArg producing ((backCopy_legal _ h1 h2 h3).trans e)
    exact ⟨_, _, exec_producing_raises hf rfl ha hb, exec_producing_raises hf rfl ha (hbody ▸ hb), rfl, rfl,
      hm.produced.trans hlimit, rfl⟩

/-! ## SW_COPYFROM (R166) -/

/-- Settles O40: the loop ends at whichever of the length, the source's end and the two counters' limits comes first. -/
theorem copyFromMovesSourceBytes : Obligations.CopyFromMovesSourceBytes := by
  intro s l hf ha hc there fits reach
  obtain ⟨u, j, -, hm, hsrc, hpos, -, hend⟩ := copyFromLoop_spec l.toNat hc
  have hlen : ((s.src.drop s.srcPos.toNat).take j).length = j := by
    rw [List.length_take, List.length_drop]
    omega
  have hprod : u.sw.produced.toNat = s.sw.produced.toNat + j := hm.produced.trans (by rw [hlen])
  have hmax : s.sw.produced.toNat ≤ 2 ^ 32 - 1 := toNat_le_posMax _
  simp only [posMax] at hend
  refine ⟨fun h1 h2 h3 => ?all, fun h1 h2 h3 => ?sourceEnds, fun h1 h2 h3 => ?producedLimit, fun h1 h2 h3 => ?cursorLimit⟩
  case all =>
    rcases hend with ⟨rfl, e⟩ | h | h | h
    case inl =>
      have hb : bodyOf (.swCopyfrom l) s = producing (.ok () u) := congrArg producing e
      have hd := hm.delivers u.flt (some ⟨0, 0, 0, 0⟩)
      exact ⟨_, exec_producing_done hf rfl ha hb, rfl, hd.cmdcnt, hm.flt.trans hf, hd.frame, hlen ▸ hd.ring, hd.out, hpos,
        hprod⟩
    all_goals omega
  case sourceEnds =>
    rcases hend with h | ⟨-, hlast, e⟩ | h | h
    case inr.inl =>
      obtain rfl : j = there := Nat.eq_sub_of_add_eq' hlast
      have hu : u.srcPos = wordOfNat s.src.length := by rw [← hlast, ← hpos, wordOfNat_toNat_word]
      have hb : bodyOf (.swCopyfrom l) s = producing (.raise .endOfInput (wordOfNat s.src.length) 1 u) :=
        congrArg producing (hu ▸ e)
      have hd := hm.delivers (some ⟨.endOfInput, 0x24, wordOfNat s.src.length, 1⟩) (some ⟨3, wordOfNat s.src.length, 1, 0⟩)
      have hall : (s.src.drop s.srcPos.toNat).take there = s.src.drop s.srcPos.toNat :=
        List.take_of_length_le List.length_drop.le
      exact ⟨_, exec_producing_raises hf rfl ha hb, rfl, rfl, hd.cmdcnt, hd.frame, hlen ▸ hd.ring, hall ▸ hd.out,
        hpos.trans hlast, hprod⟩
    all_goals omega
  case producedLimit =>
    rcases hend with h | h | h | ⟨-, hlast, -, hle, v, rfl, e⟩
    case inr.inr.inr =>
      obtain rfl : j = fits := Nat.eq_sub_of_add_eq' hlast
      have hb : bodyOf (.swCopyfrom l) s = producing (.raise .overflow 0x22 0 { u with srcPos := _ }) :=
        congrArg producing e
      have hd := (hm.moveCursor (wordOfNat (u.srcPos.toNat + 1))).delivers (some ⟨.overflow, 0x24, 0x22, 0⟩)
        (some ⟨7, 0x22, 0, 0⟩)
      have hcur : (wordOfNat (u.srcPos.toNat + 1)).toNat = s.srcPos.toNat + fits + 1 := by
        rw [hpos]
        exact wordOfNat_toNat hle
      exact ⟨_, exec_producing_raises hf rfl ha hb, rfl, rfl, hd.cmdcnt, hd.frame, hlen ▸ hd.ring, hd.out, hcur,
        hprod.trans hlast⟩
    all_goals omega
  case cursorLimit =>
    rcases hend with h | h | ⟨-, -, hover, e⟩ | h
    case inr.inr.inl =>
      obtain rfl : j = reach := by
        have hcur := toNat_le_posMax u.srcPos
        simp only [posMax] at hcur
        omega
      have hb : bodyOf (.swCopyfrom l) s = producing (.raise .overflow 0x23 0 u) := congrArg producing e
      have hd := hm.delivers (some ⟨.overflow, 0x24, 0x23, 0⟩) (some ⟨7, 0x23, 0, 0⟩)
      exact ⟨_, exec_producing_raises hf rfl ha hb, rfl, rfl, hd.cmdcnt, hd.frame, hlen ▸ hd.ring, hd.out,
        hpos.trans (by omega), hprod⟩
    all_goals omega

/-! ## SW_DISPOSE (R167) -/

theorem drainBy_all (s : State) :
    drainBy s.sw.pend.length s = { s with sink := s.sink ++ s.sw.pend, sw := { s.sw with pend := [] } } := by
  simp only [drainBy, List.take_length, List.drop_length]
  rfl

theorem encode_w0_swDispose (check : Bool) (a : Word) :
    (encode (.swDispose check a)).w0 = if check then 0x125 else 0x25 := by
  cases check <;> simp [encode, Instr.fields, Fields.cmd, modOf]

/-- Settles O41: the operand's own check, then the drain and the deactivation, then the size. -/
theorem swDisposeDrainsThenChecks : Obligations.SwDisposeDrainsThenChecks := by
  intro s check a hf i t
  refine ⟨fun ha => ?idle, fun ha => ⟨?illegal, ?mismatch, ?done⟩⟩
  case idle => rw [exec_idle (u := .sw) hf rfl ha, encode_w0_swDispose]
  case illegal =>
    rintro rfl hne
    have hb : bodyOf i s = illegal i s := if_pos (by simpa using hne)
    rw [exec_active_raises (unit := .sw) hf rfl ha hb, encode_w0_swDispose]
    rfl
  case mismatch =>
    rintro rfl hne
    have hb : bodyOf i s = .raise .sizeMismatch a s.sw.produced t := by
      simp [i, bodyOf, swDisposeOp, drainBy_all, Ne.symm hne, State.withSw, t]
    exact exec_active_raises (unit := .sw) hf rfl ha hb
  case done =>
    intro hok
    have hb : bodyOf i s = .ok (Reply.one s.sw.produced) t := by
      rcases hok with ⟨rfl, rfl⟩ | ⟨rfl, rfl⟩ <;> simp [i, bodyOf, swDisposeOp, drainBy_all, State.withSw, t]
    exact exec_active_done (unit := .sw) hf rfl ha hb

/-! ## SW_WRITE (R173) -/

section

variable {s t : State}

theorem Drained.refl (s : State) : Drained s s := ⟨0, s.drainTick, by simp [Machine.drainBy, State.withSink, State.withSw]⟩

theorem Drained.drainBy (h : Drained s t) (j : Nat) : Drained s (drainBy j t) := by
  obtain ⟨k, n, rfl⟩ := h
  refine ⟨k + j, n, ?_⟩
  simp [Machine.drainBy, State.withSink, State.withSw, List.take_add]

/-- What the drain leaves alone and a step of a sequence turns on (R172). -/
theorem Drained.keeps (h : Drained s t) :
    t.host = s.host ∧ t.flt = s.flt ∧ t.resp = s.resp ∧ t.cmdcnt = s.cmdcnt ∧ t.srcPos = s.srcPos ∧ t.status = s.status ∧
      t.sw.active = s.sw.active ∧ t.sw.produced = s.sw.produced := by
  rw [h.frame]
  exact ⟨rfl, rfl, rfl, rfl, rfl, rfl, rfl, rfl⟩

end

theorem byteOperand_wordOfByte (b : Byte) : byteOperand (wordOfByte b) = b := by
  apply BitVec.eq_of_toNat_eq
  simp [byteOperand, wordOfByte]
  omega

theorem decode_swWrb (b : Byte) : decode (encode (.swWrb (wordOfByte b))) = .ok (.swWrb (wordOfByte b)) :=
  decodeOfEncode _ (decide_eq_true (Nat.lt_of_le_of_lt (by simpa [wordOfByte] using Nat.mod_le _ _) b.isLt))

/-- From `s` to `t` the block has taken `n` words of SW_WRITE, of which the window has `bytes`. -/
structure Writes (n : Nat) (bytes : List Byte) (s t : State) : Prop where
  appends : Appends bytes s t
  srcPos : t.srcPos = s.srcPos
  cmdcnt : t.cmdcnt = s.cmdcnt + BitVec.ofNat 32 n

theorem Writes.refl (s : State) : Writes 0 [] s s := ⟨.of_undrained rfl, rfl, (BitVec.add_zero _).symm⟩

theorem Writes.trans {m n : Nat} {l1 l2 : List Byte} {s t u : State} (h1 : Writes m l1 s t) (h2 : Writes n l2 t u) :
    Writes (m + n) (l1 ++ l2) s u where
  appends := h1.appends.trans h2.appends
  srcPos := h2.srcPos.trans h1.srcPos
  cmdcnt := by rw [h2.cmdcnt, h1.cmdcnt, BitVec.ofNat_add, BitVec.add_assoc]

section

variable {s : State} {b : Byte} {bs : List Byte} {rest : List HostAct}
  (hh : s.host = presentPseudo (.swWrite (b :: bs)) ++ rest)

include hh

/-- A step of SW_WRITE runs its first SW_WRB between two drains, then goes on or stops. -/
theorem step_swWrite : ∃ u, Drained (s.withHost rest) u ∧ ∀ {v}, exec (.swWrb (wordOfByte b)) u = .next v →
    ∃ t, step s = .next t ∧ Drained (goOn ((expandPseudo (.swWrite bs)).map encode) v) t :=
  ⟨_, drained_freeDrain _, fun hv => ⟨_, step_untilFault hh (decode_swWrb b) hv, drained_freeDrain _⟩⟩

/-- A byte that fits the counter is produced, and the rest of the sequence is next. -/
theorem step_swWrite_room (hf : s.flt = none) (ha : s.sw.active = true) (hp : s.sw.produced.toNat < posMax) :
    ∃ t, step s = .next t ∧ t.host = presentPseudo (.swWrite bs) ++ rest ∧ t.flt = none ∧ Writes 1 [b] s t := by
  obtain ⟨u, hu, hrun⟩ := step_swWrite hh
  obtain ⟨host, flt, -, cmdcnt, srcPos, -, active, produced⟩ := hu.keeps
  have hp' : u.sw.produced.toNat < posMax := produced ▸ hp
  have hb : bodyOf (.swWrb (wordOfByte b)) u = producing (.ok () (putState b u)) := by
    rw [bodyOf, swWrbOp, byteOperand_wordOfByte, put_ok hp']
  obtain ⟨t, hstep, ht⟩ := hrun (exec_producing_done (flt.trans hf) rfl (active.trans ha) hb)
  rw [goOn_noFault rfl (by decide)] at ht
  obtain ⟨host', flt', -, cmdcnt', srcPos', -⟩ := ht.keeps
  have happ : Appends [b] s t := by
    have hout : t.undrained = (putState b u).undrained := ht.undrained.trans (settle_undrained (putState b u))
    have hin : u.undrained = s.undrained := hu.undrained
    rw [Appends, hout, ← hin]
    exact (Produces.put hp' b).appends
  exact ⟨t, hstep, host'.trans (congrArg (_ ++ ·) host), flt'.trans (flt.trans hf), happ, srcPos'.trans srcPos,
    cmdcnt'.trans (congrArg (· + 1) cmdcnt)⟩

/-- A SW_WRB that faults ends the sequence: the rest is not issued (R173). -/
theorem step_swWrite_faults {c : Cause} {i0 i1 : Word} (hc : c.code ≠ 0 ∧ c.code ≠ 0xFF)
    (hv : ∀ u, Drained (s.withHost rest) u →
      ∃ w, Drained u w ∧ exec (.swWrb (wordOfByte b)) u = .next (faultedBy (.swWrb (wordOfByte b)) c i0 i1 w)) :
    ∃ t, step s = .next t ∧ t.host = rest ∧ t.flt = some ⟨c, 0x21, i0, i1⟩ ∧ t.resp = some ⟨c.code, i0, i1, 0⟩ ∧
      Writes 1 [] s t := by
  obtain ⟨u, hu, hrun⟩ := step_swWrite hh
  obtain ⟨w, hw, he⟩ := hv u hu
  obtain ⟨t, hstep, ht⟩ := hrun he
  rw [goOn_fault rfl ((isFault_iff _).mpr hc)] at ht
  obtain ⟨host, -, -, cmdcnt, srcPos, -⟩ := hu.keeps
  obtain ⟨host', -, -, cmdcnt', srcPos', -⟩ := hw.keeps
  obtain ⟨host'', flt'', resp'', cmdcnt'', srcPos'', -⟩ := ht.keeps
  have hall : t.undrained = s.undrained := ht.undrained.trans (hw.undrained.trans hu.undrained)
  exact ⟨t, hstep, host''.trans (host'.trans host), flt'', resp'', .of_undrained hall, srcPos''.trans (srcPos'.trans srcPos),
    cmdcnt''.trans (congrArg (· + 1) (cmdcnt'.trans cmdcnt))⟩

/-- With SW idle the first SW_WRB raises BadSequence. -/
theorem step_swWrite_idle (hf : s.flt = none) (ha : s.sw.active = false) :
    ∃ t, step s = .next t ∧ t.host = rest ∧ t.flt = some ⟨.badSequence, 0x21, 0x21, s.status⟩ ∧
      t.resp = some ⟨6, 0x21, s.status, 0⟩ ∧ Writes 1 [] s t := by
  refine step_swWrite_faults hh (by decide) fun u hu => ⟨u, .refl u, ?_⟩
  obtain ⟨-, flt, -, -, -, status, active, -⟩ := hu.keeps
  rw [exec_swWrb_idle _ (flt.trans hf) (active.trans ha), status]
  rfl

/-- At the counter's limit a SW_WRB raises Overflow. -/
theorem step_swWrite_full (hf : s.flt = none) (ha : s.sw.active = true) (hp : posMax ≤ s.sw.produced.toNat) :
    ∃ t, step s = .next t ∧ t.host = rest ∧ t.flt = some ⟨.overflow, 0x21, 0x22, 0⟩ ∧ t.resp = some ⟨7, 0x22, 0, 0⟩ ∧
      Writes 1 [] s t := by
  refine step_swWrite_faults hh (by decide) fun u hu => ⟨settle u, (Drained.refl u).drainBy _, ?_⟩
  obtain ⟨-, flt, -, -, -, -, active, produced⟩ := hu.keeps
  exact exec_producing_raises (flt.trans hf) rfl (active.trans ha)
    (congrArg producing (put_overflow (produced ▸ hp)))

end

/-- As long as they fit the counter, the first bytes of a SW_WRITE are produced, one per step. -/
theorem run_swWrite (bytes more : List Byte) (rest : List HostAct) {s : State}
    (hh : s.host = presentPseudo (.swWrite (bytes ++ more)) ++ rest) (hf : s.flt = none) (ha : s.sw.active = true)
    (hfits : s.sw.produced.toNat + bytes.length ≤ posMax) :
    ∃ t, Sys2Proof.core.run bytes.length s = .next t ∧ t.host = presentPseudo (.swWrite more) ++ rest ∧ t.flt = none ∧
      Writes bytes.length bytes s t := by
  induction bytes generalizing s with
  | nil => exact ⟨s, rfl, hh, hf, .refl s⟩
  | cons b bytes ih =>
    rw [List.length_cons] at hfits
    obtain ⟨u, hstep, hhost, hflt, hw⟩ := step_swWrite_room hh hf ha (by omega)
    have hprod : u.sw.produced.toNat = s.sw.produced.toNat + 1 := hw.appends.produced
    obtain ⟨t, hrun, hhost', hflt', hw'⟩ := ih hhost hflt (hw.appends.frame.active.trans ha) (by omega)
    refine ⟨t, (run_succ _ hstep).trans hrun, hhost', hflt', ?_⟩
    rw [List.length_cons, Nat.add_comm]
    exact hw.trans hw'

/-- Settles O59: the bytes that fit are produced one per step, and a fault leaves the rest of the sequence out. -/
theorem swWriteStopsAtAFault : Obligations.SwWriteStopsAtAFault := by
  intro s bytes rest hh hf _ fits
  have hmax := toNat_le_posMax s.sw.produced
  refine ⟨fun ha hroom => ?room, fun ha hfull => ?full, fun ha hne => ?idle⟩
  case room =>
    obtain ⟨t, hrun, hhost, hflt, ⟨happ, hsrc, hcnt⟩⟩ := run_swWrite bytes [] rest (by rwa [List.append_nil]) hf ha
      (by simp only [posMax] at hmax ⊢; omega)
    replace hhost : t.host = rest := hhost
    exact ⟨t, hrun, hflt, hhost ▸ happ.frame, hsrc, happ.ring, hcnt, happ.out, happ.produced⟩
  case full =>
    have hlen : (bytes.take fits).length = fits := List.length_take_of_le hfull.le
    have hlimit : s.sw.produced.toNat + fits = posMax := Nat.add_sub_of_le hmax
    obtain ⟨b, more, hmore⟩ := List.exists_cons_of_length_pos (l := bytes.drop fits) (by rw [List.length_drop]; omega)
    have hsplit : s.host = presentPseudo (.swWrite (bytes.take fits ++ b :: more)) ++ rest := by
      rwa [← hmore, List.take_append_drop]
    obtain ⟨u, hrun, hhost, hflt, hw⟩ := run_swWrite _ _ rest hsplit hf ha (by omega)
    have hprod : u.sw.produced.toNat = posMax := by rw [hw.appends.produced, hlen, hlimit]
    obtain ⟨t, hstep, hhost', hflt', hresp, hw'⟩ := step_swWrite_full hhost hflt (hw.appends.frame.active.trans ha) hprod.ge
    obtain ⟨happ, hsrc, hcnt⟩ := hw.trans hw'
    rw [List.append_nil] at happ
    rw [hlen] at hrun hcnt
    exact ⟨t, (run_add 1 hrun).trans (run_succ 0 hstep), hflt', hresp, hhost' ▸ happ.frame, hsrc, hlen ▸ happ.ring, hcnt,
      happ.out, by rw [happ.produced, hlen]; exact hlimit⟩
  case idle =>
    obtain ⟨b, more, rfl⟩ := List.exists_cons_of_ne_nil hne
    obtain ⟨t, hstep, hhost, hflt, hresp, ⟨happ, hsrc, hcnt⟩⟩ := step_swWrite_idle hh hf ha
    exact ⟨t, run_succ 0 hstep, hflt, hresp, hhost ▸ happ.frame, hsrc, happ.ring, hcnt,
      happ.out.trans (List.append_nil _), BitVec.eq_of_toNat_eq happ.produced⟩

end Sys2Proof.Machine

/-! # The flag reader's commands and the source cursor, and the round trip of the flag codec (R69, R183 to R188) -/

namespace Sys2Proof.Machine

/-! ## The stream of flag bits that the source still holds -/

/-- The flag bits of the whole units at the front of a byte sequence (R69): the part of `flagStream` not yet fetched. -/
def flagsOfBytes (c : FlagCfg) (bytes : List Byte) : List Bool :=
  (wholeUnits c.unit.bytes bytes).flatMap fun unit => unitFlags c (wordOfNat (unitValue c.le unit))

theorem flagStream_eq (s : State) :
    flagStream s = (unitFlags s.fr.cfg s.fr.acc).drop (s.fr.cfg.bits - s.fr.left) ++
      flagsOfBytes s.fr.cfg (s.src.drop s.srcPos.toNat) := rfl

@[simp] theorem length_wholeUnits (u : Nat) (bytes : List Byte) : (wholeUnits u bytes).length = bytes.length / u := by
  simp [wholeUnits]

@[simp] theorem length_flagsOfBytes (c : FlagCfg) (bytes : List Byte) :
    (flagsOfBytes c bytes).length = bytes.length / c.unit.bytes * c.bits := by
  simp [flagsOfBytes, List.length_flatMap]

/-- With a whole unit at the cursor, the stream is not at its end. -/
theorem flagStream_ne_nil {s : State} (h : s.srcPos.toNat + s.fr.cfg.unit.bytes ≤ s.src.length) :
    flagStream s ≠ [] := by
  have hunit : s.fr.cfg.unit.bytes ≤ (s.src.drop s.srcPos.toNat).length := by rw [List.length_drop]; omega
  have hpos : 0 < (flagsOfBytes s.fr.cfg (s.src.drop s.srcPos.toNat)).length := by
    rw [length_flagsOfBytes]
    exact Nat.mul_pos (Nat.div_pos hunit s.fr.cfg.unit.bytes_pos) s.fr.cfg.bits_pos
  rw [flagStream_eq]
  exact List.append_ne_nil_of_right_ne_nil _ (List.ne_nil_of_length_pos hpos)

/-! ## FR_INIT, FR_RESET and SRC_RB (R183, R186, R187) -/

/-- Settles O44: the body is one update of FR. -/
theorem frInitStartsEmptyReader : Obligations.FrInitStartsEmptyReader :=
  fun s hf => runCommand_done (i := .frInit) (r := Reply.zero) hf rfl (show frInitOp s = _ from rfl)

/-- Settles O47: idle, and the one update of FR. -/
theorem frResetDropsBits : Obligations.FrResetDropsBits :=
  fun _ hf => ⟨fun ha => exec_idle (u := .fr) hf rfl ha,
    fun ha => exec_active_done (i := .frReset) (unit := .fr) (r := Reply.zero) hf rfl ha rfl⟩

/-- Settles O48: the three outcomes of `SrcNext(1)`. -/
theorem srcRbReadsNextByte : Obligations.SrcRbReadsNextByte := by
  intro s hf
  rcases srcNext_cases 1 s with ⟨hend, e⟩ | ⟨hin, hover, e⟩ | ⟨hin, hfits, e⟩
  case inl =>
    refine ⟨fun b hb _ => ?byte, fun hlen => ?ends, fun hlt _ => absurd hend (by omega)⟩
    case byte =>
      obtain ⟨hlt, -⟩ := List.getElem?_eq_some_iff.mp hb
      omega
    case ends =>
      have hb : srcRbOp s = .raise .endOfInput s.srcPos 1 s := by
        rw [srcRbOp, e, hlen, Nat.add_sub_cancel_left]; rfl
      exact runCommand_raises hf rfl hb
  case inr.inl =>
    have hb : srcRbOp s = .raise .overflow 0x23 0 s := by rw [srcRbOp, e]; rfl
    exact ⟨fun _ _ hlt => absurd hover (by simp only [posMax]; omega), fun hlen => absurd hin (by omega),
      fun _ _ => runCommand_raises hf rfl hb⟩
  case inr.inr =>
    refine ⟨fun b hb _ => ?byte, fun hlen => absurd hin (by omega),
      fun _ hlimit => absurd hfits (by simp only [posMax]; omega)⟩
    have hbyte : (s.src.drop s.srcPos.toNat).take 1 = [b] := by
      rw [List.take_one, List.head?_drop, hb]; rfl
    have hpos : wordOfNat (s.srcPos.toNat + 1) = s.srcPos + 1 := by
      simp [wordOfNat, BitVec.ofNat_add]
    have hb : srcRbOp s = .ok (Reply.one (b.setWidth 32)) { s with srcPos := s.srcPos + 1 } := by
      rw [srcRbOp, e, hbyte, hpos]; rfl
    exact runCommand_done hf rfl hb

/-! ## FR_RBIT (R184) -/

theorem wordOfBit_eq (b : Bool) : wordOfBit b = if b then 1 else 0 := by cases b <;> rfl

section

variable {s u : State} {c : Cause} {i0 i1 : Word}

theorem exec_frRbit_done {b : Bool} (hf : s.flt = none) (ha : s.fr.active = true) (h : nextBit s = .ok b u) :
    exec .frRbit s = .next (replied (if b then 1 else 0) 0 0 u) := by
  have hb : bodyOf .frRbit s = .ok (Reply.one (if b then 1 else 0)) u := by
    rw [bodyOf, frRbitOp, h, Res.bind_ok, wordOfBit_eq]
  exact exec_active_done (unit := .fr) hf rfl ha hb

theorem exec_frRbit_raises (hf : s.flt = none) (ha : s.fr.active = true) (h : nextBit s = .raise c i0 i1 u) :
    exec .frRbit s = .next (faultedBy .frRbit c i0 i1 u) := by
  have hb : bodyOf .frRbit s = .raise c i0 i1 u := by rw [bodyOf, frRbitOp, h, Res.bind_raise]
  exact exec_active_raises (unit := .fr) hf rfl ha hb

end

/-- Settles O45: the three outcomes of `next_bit`. -/
theorem frRbitReadsNextFlagBit : Obligations.FrRbitReadsNextFlagBit := by
  intro s hf ha hinv
  rcases nextBit_spec hinv.readerLeft with ⟨b, u, e, hs, ht⟩ | ⟨h0, hshort, e⟩ | ⟨h0, hunit, hover, e⟩
  case inl =>
    refine ⟨fun b' rest hs' _ => ?bit, fun hnil => ?notEnd, fun h0 _ hover => ?notOver⟩
    case bit =>
      obtain ⟨rfl, rfl⟩ := List.cons.inj (hs.symm.trans hs')
      refine ⟨u, exec_frRbit_done hf ha e, rfl, ht.frame, ht.active.trans ha, ht.cfg,
        Nat.eq_sub_of_add_eq (ht.bits.trans ?left), ht.cursor.trans ?cursor⟩
      case left => by_cases h0 : s.fr.left = 0 <;> simp [h0]
      case cursor => by_cases h0 : s.fr.left = 0 <;> simp [h0]
    case notEnd => exact absurd (hs.symm.trans hnil) (List.cons_ne_nil _ _)
    case notOver =>
      have hcur := ht.cursor
      have hmax := toNat_le_posMax u.srcPos
      rw [if_pos h0, Nat.one_mul] at hcur
      simp only [posMax] at hmax
      omega
  case inr.inl =>
    have hnil := flagStream_end h0 hshort
    exact ⟨fun b rest hs _ => absurd (hnil.symm.trans hs) (List.cons_ne_nil _ _).symm,
      fun _ => exec_frRbit_raises hf ha e, fun _ hunit _ => by omega⟩
  case inr.inr =>
    exact ⟨fun _ _ _ hfits => absurd (hfits h0) (Nat.not_le.mpr hover),
      fun hnil => absurd hnil (flagStream_ne_nil hunit),
      fun _ _ _ => exec_frRbit_raises hf ha e⟩

/-! ## FR_RINT (R185) -/

section

variable {s u : State} {m q : Nat}

/-- The units fetched fit below any limit that the cursor is within. -/
theorem BitsTaken.le_div {limit : Nat} (h : BitsTaken m q s u) (hlimit : u.srcPos.toNat ≤ limit) :
    q ≤ (limit - s.srcPos.toNat) / s.fr.cfg.unit.bytes := by
  have := h.cursor
  rw [Nat.le_div_iff_mul_le s.fr.cfg.unit.bytes_pos]
  omega

/-- If the cursor can move by one more unit within a limit, more units fit below it than have been fetched. -/
theorem BitsTaken.lt_div {limit : Nat} (h : BitsTaken m q s u) (hlimit : u.srcPos.toNat + s.fr.cfg.unit.bytes ≤ limit) :
    q < (limit - s.srcPos.toNat) / s.fr.cfg.unit.bytes := by
  have := h.cursor
  rw [← Nat.succ_le_iff, Nat.le_div_iff_mul_le s.fr.cfg.unit.bytes_pos, Nat.succ_mul]
  omega

/-- If the cursor cannot move by one more unit within a limit, no more units fit below it than have been fetched. -/
theorem BitsTaken.div_le {limit : Nat} (h : BitsTaken m q s u) (hlimit : limit < u.srcPos.toNat + s.fr.cfg.unit.bytes) :
    (limit - s.srcPos.toNat) / s.fr.cfg.unit.bytes ≤ q := by
  have hpos := s.fr.cfg.unit.bytes_pos
  have := h.cursor
  rw [← Nat.lt_succ_iff, Nat.div_lt_iff_lt_mul hpos, Nat.succ_mul]
  omega

/-- With no bit left and no whole unit at the cursor, every bit of the stream has been taken. -/
theorem BitsTaken.all_taken (h : BitsTaken m q s u) (hleft : u.fr.left = 0)
    (hshort : s.src.length < u.srcPos.toNat + s.fr.cfg.unit.bytes) : (flagStream s).length ≤ m := by
  have hsrc : u.src = s.src := by rw [h.frame]
  rw [← List.drop_eq_nil_iff, ← h.stream]
  exact flagStream_end hleft (by rw [hsrc, h.cfg]; exact hshort)

/-- With no bit left and more bits asked for, one more unit is needed. -/
theorem BitsTaken.lt_units {n : Nat} (h : BitsTaken m q s u) (hleft : u.fr.left = 0) (hm : m < n) :
    q < (n - s.fr.left + s.fr.cfg.bits - 1) / s.fr.cfg.bits := by
  have hb := s.fr.cfg.bits_pos
  have := h.bits
  rw [← Nat.succ_le_iff, Nat.le_div_iff_mul_le hb, Nat.succ_mul]
  omega

end

theorem encode_w0_frRint (lsbf : Bool) (n : Word) : (encode (.frRint lsbf n)).w0 = if lsbf then 0x132 else 0x32 := by
  cases lsbf <;> simp [encode, Instr.fields, Fields.cmd, modOf]

section

variable {lsbf : Bool} {n : Word} {s u : State} {c : Cause} {i0 i1 : Word}

theorem exec_frRint_illegal (hf : s.flt = none) (ha : s.fr.active = true) (hn : 32 < n.toNat) :
    exec (.frRint lsbf n) s =
      .next (faultedBy (.frRint lsbf n) .illegalCommand (if lsbf then 0x132 else 0x32) n s) := by
  have hb : bodyOf (.frRint lsbf n) s = illegal (.frRint lsbf n) s := if_pos (Nat.not_le.mpr hn)
  rw [exec_active_raises (unit := .fr) hf rfl ha hb, encode_w0_frRint]
  rfl

theorem exec_frRint_done {v : Nat} (hf : s.flt = none) (ha : s.fr.active = true) (hn : n.toNat ≤ 32)
    (h : readInt lsbf n.toNat 0 0 s = .ok v u) : exec (.frRint lsbf n) s = .next (replied (wordOfNat v) 0 0 u) := by
  have hb : bodyOf (.frRint lsbf n) s = .ok (Reply.one (wordOfNat v)) u := by
    rw [bodyOf, frRintOp, if_neg (not_not_intro hn), h, Res.bind_ok]
  exact exec_active_done (unit := .fr) hf rfl ha hb

theorem exec_frRint_raises (hf : s.flt = none) (ha : s.fr.active = true) (hn : n.toNat ≤ 32)
    (h : readInt lsbf n.toNat 0 0 s = .raise c i0 i1 u) :
    exec (.frRint lsbf n) s = .next (faultedBy (.frRint lsbf n) c i0 i1 u) := by
  have hb : bodyOf (.frRint lsbf n) s = .raise c i0 i1 u := by
    rw [bodyOf, frRintOp, if_neg (not_not_intro hn), h, Res.bind_raise]
  exact exec_active_raises (unit := .fr) hf rfl ha hb

end

/-- Settles O46: the loop takes all bits or stops at the unit that is not there or that the cursor cannot pass; how many
units it has fetched by then tells which. -/
theorem frRintComposesFlagBits : Obligations.FrRintComposesFlagBits := by
  intro s lsbf n hf ha hinv c units whole reach
  obtain ⟨m, q, u, ht, hend⟩ := readInt_spec lsbf n.toNat 0 0 hinv.readerLeft
  have hreach : q ≤ reach := ht.le_div (toNat_le_posMax _)
  have hwhole : q ≤ whole := ht.le_div (ht.inside hinv.cursor)
  have hact : u.fr.active = true := ht.active.trans ha
  refine ⟨fun h32 => exec_frRint_illegal hf ha h32, fun hn hbits hfits => ?all, fun hn hbits hfits => ?sourceEnds,
    fun hn hneed hfits => ?cursorLimit⟩
  case all =>
    rcases hend with ⟨rfl, e⟩ | ⟨hm, h0, hshort, -⟩ | ⟨hm, h0, -, hover, -⟩
    case inl =>
      have hunits : q = units := ht.units
      rw [composedFrom_start] at e
      exact ⟨u, exec_frRint_done hf ha hn e, ht.stream, ht.frame, hact, ht.cfg,
        hunits ▸ ht.bits, hunits ▸ ht.cursor⟩
    case inr.inl => exact absurd (ht.all_taken h0 hshort) (by omega)
    case inr.inr =>
      have : q < units := ht.lt_units h0 hm
      have : reach ≤ q := ht.div_le hover
      omega
  case sourceEnds =>
    rcases hend with ⟨rfl, -⟩ | ⟨-, h0, hshort, e⟩ | ⟨-, -, hunit, hover, -⟩
    case inl => exact absurd ht.enough (Nat.not_le.mpr hbits)
    case inr.inl =>
      have hq : q = whole := Nat.le_antisymm hwhole (ht.div_le hshort)
      have hnil := ht.stream.trans (List.drop_eq_nil_iff.mpr (ht.all_taken h0 hshort))
      exact ⟨u, exec_frRint_raises hf ha hn e, hnil, ht.frame, hact, ht.cfg, h0, hq ▸ ht.cursor⟩
    case inr.inr =>
      have : q < whole := ht.lt_div hunit
      have : reach ≤ q := ht.div_le hover
      omega
  case cursorLimit =>
    rcases hend with ⟨rfl, -⟩ | ⟨-, -, hshort, -⟩ | ⟨-, h0, -, hover, e⟩
    case inl =>
      have : q = units := ht.units
      omega
    case inr.inl =>
      have : whole ≤ q := ht.div_le hshort
      omega
    case inr.inr =>
      have hq : q = reach := Nat.le_antisymm hreach (ht.div_le hover)
      have hm : m = s.fr.left + reach * c.bits := by
        rw [← hq, ← ht.bits, h0, Nat.zero_add]
      exact ⟨u, exec_frRint_raises hf ha hn e, hm ▸ ht.stream, ht.frame, hact, ht.cfg, h0, hq ▸ ht.cursor⟩

/-! ## The flag codec's round trip (R188) -/

/-- Whole units followed by one more (R69). -/
theorem wholeUnits_append_unit {u : Nat} {bytes unit : List Byte} (hw : u ∣ bytes.length) (hu : 0 < u)
    (hunit : unit.length = u) : wholeUnits u (bytes ++ unit) = wholeUnits u bytes ++ [unit] := by
  obtain ⟨k, hk⟩ := hw
  have hdiv : (bytes ++ unit).length / u = bytes.length / u + 1 := by
    rw [List.length_append, hunit, Nat.add_div_right _ hu]
  have hlen : bytes.length = bytes.length / u * u := by rw [hk, Nat.mul_div_cancel_left _ hu, Nat.mul_comm]
  rw [wholeUnits, hdiv, List.range_succ, List.map_append, wholeUnits]
  congr 1
  · refine List.map_congr_left fun j hj => ?_
    have hend : (j + 1) * u ≤ bytes.length := by
      rw [hlen]
      exact Nat.mul_le_mul_right _ (List.mem_range.mp hj)
    rw [Nat.succ_mul] at hend
    rw [List.drop_append_of_le_length (by omega), List.take_append_of_le_length (by rw [List.length_drop]; omega)]
  · rw [List.map_singleton, ← hlen, List.drop_left, ← hunit, List.take_length]

theorem unitFlags_congr {c : FlagCfg} {v w : Word}
    (h : ∀ k, k < c.bits → v.getLsbD (c.place k) = w.getLsbD (c.place k)) : unitFlags c v = unitFlags c w :=
  List.map_congr_left fun k hk => h k (List.mem_range.mp hk)

/-- A unit written and read back holds the same flag bits (R69). -/
theorem unitFlags_unitBytes (c : FlagCfg) (v : Word) :
    unitFlags c (wordOfNat (unitValue c.le (unitBytes c.le c.unit.bytes v))) = unitFlags c v := by
  refine unitFlags_congr fun k hk => ?_
  have hplace := c.place_lt hk
  have h32 := c.bits_le
  rw [unitValue_unitBytes, show 256 ^ c.unit.bytes = 2 ^ c.bits by rw [c.bits_eq, Nat.pow_mul], wordOfNat,
    BitVec.getLsbD_ofNat, Nat.testBit_mod_two_pow]
  simp [hplace, Nat.lt_of_lt_of_le hplace h32, BitVec.getLsbD]

/-- Whole units followed by one that the writer emits hold the flag bits of both. -/
theorem flagsOfBytes_append_unit {c : FlagCfg} {bytes : List Byte} (hw : c.unit.bytes ∣ bytes.length) (v : Word) :
    flagsOfBytes c (bytes ++ unitBytes c.le c.unit.bytes v) = flagsOfBytes c bytes ++ unitFlags c v := by
  rw [flagsOfBytes, wholeUnits_append_unit hw c.unit.bytes_pos (length_unitBytes ..), List.flatMap_append,
    List.flatMap_singleton, unitFlags_unitBytes, flagsOfBytes]

/-- The writer has put `bits` into its accumulator and, as whole units with no payload between them, on DST (R198). -/
structure HoldsBits (par : Params) (f : Fw) (dst : List Byte) (bits : List Bool) : Prop where
  writer : WriterInv par f
  noPayload : f.aux = []
  wholeUnits : f.cfg.unit.bytes ∣ dst.length
  flags : flagsOfBytes f.cfg dst ++ (unitFlags f.cfg f.acc).take f.cnt = bits

theorem take_unitFlags (c : FlagCfg) (v : Word) {k : Nat} (h : k ≤ c.bits) :
    (unitFlags c v).take k = (List.range k).map fun j => v.getLsbD (c.place j) := by
  rw [unitFlags, ← List.map_take, List.take_range, Nat.min_eq_left h]

/-- One more flag bit sets at most its own place (R198). -/
theorem getLsbD_accWith (b : Bool) {f : Fw} (h : f.cnt < f.cfg.bits) (j : Nat) :
    (accWith b f).getLsbD j = (f.acc.getLsbD j || (b && decide (f.cfg.place f.cnt = j))) := by
  have hplace : f.cfg.place f.cnt < 32 := Nat.lt_of_lt_of_le (f.cfg.place_lt h) f.cfg.bits_le
  cases b <;> simp [accWith, setFlagBit, hplace]

/-- The bits written before stay, and the new one, whose place was still 0, follows them (R198). -/
theorem take_unitFlags_accWith {par : Params} {f : Fw} (h : WriterInv par f) (b : Bool) :
    (unitFlags f.cfg (accWith b f)).take (f.cnt + 1) = (unitFlags f.cfg f.acc).take f.cnt ++ [b] := by
  have hold : ∀ j, j < f.cnt → (accWith b f).getLsbD (f.cfg.place j) = f.acc.getLsbD (f.cfg.place j) := by
    intro j hj
    have hne : f.cfg.place f.cnt ≠ f.cfg.place j :=
      fun e => absurd (f.cfg.place_inj h.cnt (hj.trans h.cnt) e) (Nat.ne_of_gt hj)
    simp [getLsbD_accWith b h.cnt, hne]
  have hfree : f.acc.getLsbD (f.cfg.place f.cnt) = false := by
    refine Bool.eq_false_iff.mpr fun hset => ?_
    obtain ⟨k, hk, e⟩ := h.acc _ hset
    exact absurd (f.cfg.place_inj h.cnt (hk.trans h.cnt) e) (Nat.ne_of_gt hk)
  have hnew : (accWith b f).getLsbD (f.cfg.place f.cnt) = b := by
    simp [getLsbD_accWith b h.cnt, hfree]
  rw [take_unitFlags _ _ h.cnt, take_unitFlags _ _ (Nat.le_of_lt h.cnt), List.range_succ, List.map_append,
    List.map_singleton, hnew]
  exact congrArg (· ++ [b]) (List.map_congr_left fun j hj => hold j (List.mem_range.mp hj))

theorem HoldsBits.putBit {bits : List Bool} {s : State} (h : HoldsBits s.par s.fw s.dst bits) (b : Bool) :
    HoldsBits (putBit b s).par (putBit b s).fw (putBit b s).dst (bits ++ [b]) := by
  have hnew := take_unitFlags_accWith h.writer b
  by_cases hfull : s.fw.cnt + 1 = s.fw.cfg.bits
  · rw [putBit_fills hfull]
    refine ⟨writerInv_empty _ rfl rfl rfl, rfl, ?_, ?_⟩
    · simpa [h.noPayload] using h.wholeUnits
    · rw [hfull, List.take_of_length_le (length_unitFlags ..).le] at hnew
      simp only [h.noPayload, List.append_nil, List.take_zero]
      rw [flagsOfBytes_append_unit h.wholeUnits, hnew, ← List.append_assoc, h.flags]
  · rw [putBit_room hfull]
    refine ⟨h.writer.addBit hfull b, h.noPayload, h.wholeUnits, ?_⟩
    show flagsOfBytes s.fw.cfg s.dst ++ _ = _
    rw [hnew, ← List.append_assoc, h.flags]

theorem HoldsBits.putBits {bits : List Bool} {s : State} (h : HoldsBits s.par s.fw s.dst bits) (more : List Bool) :
    HoldsBits (putBits more s).par (putBits more s).fw (putBits more s).dst (bits ++ more) := by
  induction more generalizing bits s with
  | nil => rwa [List.append_nil]
  | cons b more ih =>
    rw [List.append_cons]
    exact ih (h.putBit b)

/-- A writer with nothing in it. -/
theorem holdsBits_empty {s : State} (hacc : s.fw.acc = 0) (hcnt : s.fw.cnt = 0) (haux : s.fw.aux = [])
    (hdst : s.dst = []) : HoldsBits s.par s.fw s.dst [] where
  writer := writerInv_empty _ hacc hcnt haux
  noPayload := haux
  wholeUnits := by simp [hdst]
  flags := by simp [hdst, hcnt, flagsOfBytes, wholeUnits]

section

variable {par : Params} {f : Fw} {dst : List Byte} {bits : List Bool}

theorem HoldsBits.length (h : HoldsBits par f dst bits) :
    bits.length = dst.length / f.cfg.unit.bytes * f.cfg.bits + f.cnt := by
  rw [← h.flags, List.length_append, length_flagsOfBytes, List.length_take, length_unitFlags,
    Nat.min_eq_left (Nat.le_of_lt h.writer.cnt)]

/-- The number of units that hold the bits: those on DST and, unless it is empty, the one in the accumulator (R188). -/
theorem HoldsBits.units (h : HoldsBits par f dst bits) :
    (bits.length + f.cfg.bits - 1) / f.cfg.bits = dst.length / f.cfg.unit.bytes + if f.cnt = 0 then 0 else 1 := by
  have hcnt := h.writer.cnt
  rw [Nat.div_eq_iff f.cfg.bits_pos, h.length, Nat.add_mul]
  split <;> omega

/-- What FW_FLUSH makes of them (R202): whole units, as few as hold the bits, that hand out the bits first (R69). -/
theorem HoldsBits.flush {s : State} (h : HoldsBits par s.fw s.dst bits) :
    ∃ t, fwFlushOp s = .ok Reply.zero t ∧
      t.dst.length = (bits.length + s.fw.cfg.bits - 1) / s.fw.cfg.bits * s.fw.cfg.unit.bytes ∧
      bits <+: flagsOfBytes s.fw.cfg t.dst := by
  have hlen : s.dst.length / s.fw.cfg.unit.bytes * s.fw.cfg.unit.bytes = s.dst.length := Nat.div_mul_cancel h.wholeUnits
  rw [h.units, Nat.add_mul, hlen]
  rcases Nat.eq_zero_or_pos s.fw.cnt with h0 | hpos
  · refine ⟨s, by simp [fwFlushOp, h0, h.noPayload], by simp [h0], ?_⟩
    rw [← h.flags, h0, List.take_zero, List.append_nil]
  · refine ⟨emitGroup s, by rw [fwFlushOp, if_pos hpos], ?_, ?_⟩
    · simp [emitGroup_eq, h.noPayload, Nat.ne_of_gt hpos]
    · rw [emitGroup_eq, h.noPayload, List.append_nil, flagsOfBytes_append_unit h.wholeUnits]
      nth_rw 1 [← h.flags]
      exact (List.prefix_append_right_inj _).mpr (List.take_prefix _ _)

end

/-! ### Through the commands -/

theorem exec_fwWbit_bit (b : Bool) {s : State} (hf : s.flt = none) (ha : s.fw.active = true) :
    exec (.fwWbit (wordOfBit b)) s = .next (replied 0 0 0 (putBit b s)) := by
  have hbit : bitOperand (wordOfBit b) = b := by cases b <;> rfl
  have hb : bodyOf (.fwWbit (wordOfBit b)) s = .ok Reply.zero (putBit b s) := by rw [bodyOf, fwWbitOp, hbit]
  exact exec_active_done (unit := .fw) hf rfl ha hb

theorem putBit_keeps (b : Bool) (s : State) :
    (putBit b s).flt = s.flt ∧ (putBit b s).fw.active = s.fw.active ∧ (putBit b s).fw.cfg = s.fw.cfg := by
  by_cases hfull : s.fw.cnt + 1 = s.fw.cfg.bits
  · rw [putBit_fills hfull]
    exact ⟨rfl, rfl, rfl⟩
  · rw [putBit_room hfull]
    exact ⟨rfl, rfl, rfl⟩

/-- FW_WBIT commands in a row put their bits (R198). -/
theorem writeBits_putBits (bits : List Bool) {s : State} (hf : s.flt = none) (ha : s.fw.active = true) :
    ∃ u, writeBits bits s = .next u ∧ u.flt = none ∧ u.fw.active = true ∧ u.fw.cfg = s.fw.cfg ∧
      u.fw = (putBits bits s).fw ∧ u.dst = (putBits bits s).dst := by
  induction bits generalizing s with
  | nil => exact ⟨s, rfl, hf, ha, rfl, rfl, rfl⟩
  | cons b bits ih =>
    obtain ⟨kflt, kact, kcfg⟩ := putBit_keeps b s
    obtain ⟨u, e, hflt, hact, hcfg, hfw, hdst⟩ :=
      ih (s := replied 0 0 0 (putBit b s)) (kflt.trans hf) (kact.trans ha)
    obtain ⟨cfw, cdst⟩ := putBits_congr bits (s := replied 0 0 0 (putBit b s)) (t := putBit b s) rfl rfl
    refine ⟨u, ?_, hflt, hact, hcfg.trans kcfg, hfw.trans cfw, hdst.trans cdst⟩
    rw [writeBits, exec_fwWbit_bit b hf ha]
    exact e

/-- Settles O55: what the writer holds after each bit, through the flush, to what the reader's stream begins with. -/
theorem bitCodecRoundTrip : Obligations.BitCodecRoundTrip := by
  intro s bits hf ha hacc hcnt haux hdst
  obtain ⟨u, hwrite, hflt, hact, hcfg, hfw, hout⟩ := writeBits_putBits bits hf ha
  have hbits := (holdsBits_empty hacc hcnt haux hdst).putBits bits
  rw [← hfw, ← hout] at hbits
  obtain ⟨t, hflush, hlen, hpre⟩ := hbits.flush
  rw [hcfg] at hlen hpre
  refine ⟨u, replied 0 0 0 t, hwrite, exec_active_done (i := .fwFlush) (unit := .fw) hflt rfl hact hflush, hlen,
    fun r hr hleft hsrc hpos => ?_⟩
  have hstream : flagStream r = flagsOfBytes s.fw.cfg t.dst := by
    rw [flagStream_eq, hr, hleft, hsrc, hpos, List.drop_of_length_le (by simp)]
    rfl
  rw [hstream]
  exact hpre

end Sys2Proof.Machine

/-! # The flag writer's commands (R197 to R202) -/

namespace Sys2Proof.Machine

/-- The first word of a command without a flag is its opcode alone (R91, R94). -/
theorem encode_w0_unflagged {i : Instr} (h : i.fields.mod = 0) : (encode i).w0 = i.fields.opc.setWidth 32 := by
  have hrsv : i.fields.rsv = 0 := by cases i <;> rfl
  rw [encode, Fields.cmd, h, hrsv]
  exact (BitVec.setWidth_eq_append (x := i.fields.opc) (by decide : 8 ≤ 32)).symm

/-- A writer's command without a flag, of an idle writer. -/
theorem exec_writer_idle {i : Instr} {s : State} (hf : s.flt = none) (hu : unitOf i = some .fw)
    (hmod : i.fields.mod = 0) (ha : s.fw.active = false) :
    exec i s = .next (faultedBy i .badSequence (i.fields.opc.setWidth 32) s.status s) := by
  rw [exec_idle hf hu ha, encode_w0_unflagged hmod]

/-! ## FW_INIT and FW_PAY (R197, R200) -/

/-- Settles O49: the body is one update of FW. -/
theorem fwInitStartsEmptyWriter : Obligations.FwInitStartsEmptyWriter :=
  fun s hf => runCommand_done (i := .fwInit) (r := Reply.zero) hf rfl (show fwInitOp s = _ from rfl)

/-- Settles O52: the two sides of AUX's capacity. -/
theorem fwPayAppendsPayload : Obligations.FwPayAppendsPayload := by
  refine fun s a hf => ⟨fun ha => exec_writer_idle hf rfl rfl ha, fun ha => ⟨fun hfull => ?full, fun hroom => ?room⟩⟩
  case full =>
    have hb : bodyOf (.fwPay a) s = .raise .overflow 0x26 0 s := if_pos (Nat.not_lt.mpr hfull)
    exact exec_active_raises (unit := .fw) hf rfl ha hb
  case room =>
    have hb : bodyOf (.fwPay a) s =
        .ok Reply.zero { s with fw := { s.fw with aux := s.fw.aux ++ [a.extractLsb' 0 8] } } :=
      if_neg (not_not_intro hroom)
    exact exec_active_done (unit := .fw) hf rfl ha hb

/-! ## FW_WBIT (R198) -/

/-- Settles O50: a bit that leaves room in the unit, and the bit that fills it, in the bytes of `unitBytes_eq`. -/
theorem fwWbitWritesOneFlagBit : Obligations.FwWbitWritesOneFlagBit := by
  intro s a hf c place acc
  refine ⟨fun ha => exec_writer_idle hf rfl rfl ha, fun ha => ?active⟩
  have hrun : exec (.fwWbit a) s = .next (replied 0 0 0 (putBit (a.getLsbD 0) s)) :=
    exec_active_done (unit := .fw) (r := Reply.zero) hf rfl ha rfl
  rw [hrun]
  refine ⟨fun hroom => ?room, fun hfull => ?full⟩
  case room => rw [putBit_room hroom]; rfl
  case full => rw [putBit_fills hfull, unitBytes_eq]; rfl

/-! ## FW_WINT (R199) -/

theorem encode_w0_fwWint (lsbf : Bool) (v n : Word) :
    (encode (.fwWint lsbf v n)).w0 = if lsbf then 0x142 else 0x42 := by
  cases lsbf <;> simp [encode, Instr.fields, Fields.cmd, modOf]

/-- The bits of an integer are its low ones, upwards with LSBF, else downwards (R199). -/
theorem intBits_eq (lsbf : Bool) (v : Word) (n : Nat) :
    intBits lsbf v n =
      if lsbf then (List.range n).map fun i => v.getLsbD i else ((List.range n).map fun i => v.getLsbD i).reverse := by
  cases lsbf with
  | true => rfl
  | false =>
    refine List.ext_getElem (by simp [intBits]) fun i _ _ => ?_
    simp [intBits]

/-- Settles O51: FW_WBIT commands in a row put their bits as `put_bit` does, and FW_WINT those of `intBits_eq`. -/
theorem fwWintWritesItsBits : Obligations.FwWintWritesItsBits := by
  refine fun s lsbf v n hf => ⟨fun ha => ?idle, fun ha hn => ?illegal, fun ha hn => ?writes⟩
  case idle => rw [exec_idle (u := .fw) hf rfl ha, encode_w0_fwWint]
  case illegal =>
    have hb : bodyOf (.fwWint lsbf v n) s = illegal (.fwWint lsbf v n) s := if_pos (Nat.not_le.mpr hn)
    rw [exec_active_raises (unit := .fw) hf rfl ha hb, encode_w0_fwWint]
    rfl
  case writes =>
    intro low
    obtain ⟨u, hwrite, -, -, -, hfw, hdst⟩ := writeBits_putBits (intBits lsbf v n.toNat) hf ha
    obtain ⟨f, d, hput, -⟩ := putBits_state (intBits lsbf v n.toNat) s
    have hb : bodyOf (.fwWint lsbf v n) s = .ok Reply.zero { s with fw := u.fw, dst := u.dst } := by
      rw [bodyOf, fwWintOp, if_neg (not_not_intro hn), hfw, hdst, hput]
    exact ⟨u, intBits_eq lsbf v n.toNat ▸ hwrite, exec_active_done (unit := .fw) hf rfl ha hb⟩

/-! ## FW_FLUSHN and FW_FLUSH (R201, R202) -/

/-- With no payload waiting there is nothing to move. -/
theorem flushAux_empty {s : State} (h : s.fw.aux = []) : flushAux s = s := by
  rw [flushAux_eq, h, List.append_nil, ← h]

/-- The test for waiting payload makes no difference. -/
theorem flushAux_if_waiting (s : State) : (if s.fw.aux ≠ [] then flushAux s else s) = flushAux s :=
  ite_eq_left_iff.mpr fun h => (flushAux_empty (not_not.mp h)).symm

/-- Settles O53: at a boundary the body is `flushAux`, and inside a group nothing. -/
theorem fwFlushnMovesPayloadAtBoundary : Obligations.FwFlushnMovesPayloadAtBoundary := by
  refine fun s hf => ⟨fun ha => exec_writer_idle hf rfl rfl ha, fun ha => ⟨fun h0 => ?boundary, fun h0 => ?inside⟩⟩
  case boundary =>
    have hb : bodyOf .fwFlushn s = .ok Reply.zero (flushAux s) := by
      simp only [bodyOf, fwFlushnOp, h0, true_and, flushAux_if_waiting]
    exact exec_active_done (unit := .fw) hf rfl ha hb
  case inside =>
    have hb : bodyOf .fwFlushn s = .ok Reply.zero s := by
      simp only [bodyOf, fwFlushnOp, h0, false_and, if_false]
    exact exec_active_done (unit := .fw) hf rfl ha hb

/-- The places of the bits not yet written hold 0, the padding (R202). -/
theorem WriterInv.unwritten {par : Params} {f : Fw} (h : WriterInv par f) {k : Nat} (hk : f.cnt ≤ k)
    (hbits : k < f.cfg.bits) : f.acc.getLsbD (f.cfg.place k) = false := by
  refine Bool.eq_false_iff.mpr fun hset => ?_
  obtain ⟨j, hj, e⟩ := h.acc _ hset
  exact absurd (f.cfg.place_inj hbits (hj.trans h.cnt) e) (Nat.ne_of_gt (Nat.lt_of_lt_of_le hj hk))

/-- Bit `p` of a unit's value is bit `p % 8` of one of its bytes: number `p / 8` little-endian, and that many from the
last one big-endian (R69). -/
theorem getElem?_unitBytes_place (le : Bool) {u p : Nat} (v : Word) (hp : p / 8 < u) :
    ((unitBytes le u v)[if le then p / 8 else u - 1 - p / 8]?).map (fun byte => byte.getLsbD (p % 8)) =
      some (v.getLsbD p) := by
  have hbyte : (unitBytes le u v)[if le then p / 8 else u - 1 - p / 8]? = some (v.extractLsb' (8 * (p / 8)) 8) := by
    rw [unitBytes_eq]
    cases le with
    | true => simp [hp]
    | false => simp [show u - 1 - p / 8 < u by omega, show u - 1 - (u - 1 - p / 8) = p / 8 by omega]
  rw [hbyte, Option.map_some, BitVec.getLsbD_extractLsb', Nat.div_add_mod]
  simp [Nat.mod_lt]

/-- Settles O54: `emitGroup` for a partial group, `flushAux` without one; where a bit of the unit stands is
`getElem?_unitBytes_place`, and the invariant makes the unwritten ones 0. -/
theorem fwFlushEmitsWhatWaits : Obligations.FwFlushEmitsWhatWaits := by
  intro s hf c unit
  have hunit : unitBytes c.le c.unit.bytes s.fw.acc = unit := unitBytes_eq ..
  refine ⟨fun ha => exec_writer_idle hf rfl rfl ha, fun ha => ⟨fun hpos => ?group, fun h0 => ?payload⟩,
    fun hinv k hk => ?padding⟩
  case group =>
    have hb : bodyOf .fwFlush s = .ok Reply.zero (emitGroup s) := by rw [bodyOf, fwFlushOp, if_pos hpos]
    rw [exec_active_done (unit := .fw) hf rfl ha hb, emitGroup_eq, hunit]
    rfl
  case payload =>
    have hb : bodyOf .fwFlush s = .ok Reply.zero (flushAux s) := by
      rw [bodyOf, fwFlushOp, if_neg (by omega), flushAux_if_waiting]
    exact exec_active_done (unit := .fw) hf rfl ha hb
  case padding =>
    have hplace : c.place k / 8 < c.unit.bytes := Nat.div_lt_of_lt_mul (c.place_lt hk)
    rw [← hunit]
    refine (getElem?_unitBytes_place c.le s.fw.acc hplace).trans (congrArg some ?_)
    rcases Nat.lt_or_ge k s.fw.cnt with hwritten | hunwritten
    · rw [decide_eq_true hwritten]; rfl
    · rw [decide_eq_false (Nat.not_lt.mpr hunwritten)]
      exact hinv.writer.unwritten hunwritten hk

end Sys2Proof.Machine

/-! # Exceptions: what fault entry does, what a faulted block still does, and how it is left (R224 to R227) -/

namespace Sys2Proof.Machine

/-! ## Fault entry (R224) -/

/-- Fault entry leaves every unit as it was, so it leaves the unit-active bits of STATUS. -/
theorem faultedBy_unitBits (i : Instr) (c : Cause) (i0 i1 : Word) (s : State) :
    (faultedBy i c i0 i1 s).status.extractLsb' 1 4 = s.status.extractLsb' 1 4 := by
  obtain ⟨-, hmf, hsw, hfr, hfw, -⟩ := statusWordLayout.1 s
  obtain ⟨-, tmf, tsw, tfr, tfw, -⟩ := statusWordLayout.1 (faultedBy i c i0 i1 s)
  ext k hk
  rw [BitVec.getElem_extractLsb', BitVec.getElem_extractLsb']
  match k, hk with
  | 0, _ => exact tmf.trans hmf.symm
  | 1, _ => exact tsw.trans hsw.symm
  | 2, _ => exact tfr.trans hfr.symm
  | 3, _ => exact tfw.trans hfw.symm

/-- Settles O12: the next state is `faultedBy`, whose STATUS is read by its layout. -/
theorem faultEntryRecordsTheFault : Obligations.FaultEntryRecordsTheFault := by
  intro i c i0 i1 s
  obtain ⟨hfault, -, -, -, -, -, hcause, hopc, -⟩ := statusWordLayout.1 (faultedBy i c i0 i1 s)
  exact ⟨faultedBy i c i0 i1 s, finish_raise i c i0 i1 s, rfl, hfault, hcause, hopc.trans (opcode_of_w0 i).symm,
    faultedBy_unitBits i c i0 i1 s, rfl, rfl, rfl, rfl⟩

/-! ## The commands of a faulted block (R226) -/

/-- The commands that run while the block is faulted, RESET apart. -/
theorem runsWhileFaulted_iff {i : Instr} {s : State} :
    runsWhileFaulted i s = true ↔ i = .nop ∨ ∃ csr, i = .csrr csr ∧ s.csrRead csr.toNat ≠ none := by
  cases i <;> simp [runsWhileFaulted, Option.isSome_iff_ne_none]

/-- A word that is neither RESET, NOP nor CSRR of an existing CSR is refused by a faulted block, well-formed or not. -/
theorem issue_refused {s : State} {c : Cmd} (hf : s.flt ≠ none) (hreset : decode c ≠ .ok .reset)
    (hruns : ∀ i, decode c = .ok i → ¬runsWhileFaulted i s = true) : issue c s = .next (refusedIn s) := by
  cases hd : decode c with
  | rejected r => rw [issue_rejected hd, illFormed_refused c hf]
  | ok i =>
    have hi : i ≠ .reset := by rintro rfl; exact hreset hd
    rw [issue_ok hd, exec_eq_run hi, runCommand_refused hf (Bool.eq_false_iff.mpr (hruns i hd))]

/-- Settles O9: NOP and CSRR complete in every state, and a word that decodes to nothing that runs is refused. -/
theorem faultedBlockRefuses : Obligations.FaultedBlockRefuses := by
  refine fun s c hf => ⟨fun hd => ?reset, fun hd => ?nop, fun csr v hd hv => ?csrr, fun ⟨hreset, hnop, hcsrr⟩ => ?other⟩
  case reset => exact ⟨_, issue_ok hd s, rfl⟩
  case nop => rw [issue_ok hd, exec_nop]
  case csrr => rw [issue_ok hd, exec_csrr_existing hv]
  case other =>
    refine issue_refused hf hreset fun i hd hruns => ?_
    rcases runsWhileFaulted_iff.mp hruns with rfl | ⟨csr, rfl, hv⟩
    · exact hnop hd
    · exact hv (hcsrr csr hd)

/-! ## Leaving the faulted state (R227, R230) -/

/-- What only a reset changes once the block is faulted: the state without the response, the count, what the host does next
or supplies, and how far the drain has come. -/
def State.held (s : State) : State := { s.undrained with flt := s.flt, srcNext := [], inbuf := [] }

theorem held_congr {s t : State} (hu : t.undrained = s.undrained) (hf : t.flt = s.flt) : t.held = s.held := by
  rw [State.held, State.held, hu, hf]

/-- The drain moves bytes from the queue to SINK, which is not held (R172). -/
theorem Drained.held {s t : State} (h : Drained s t) : t.held = s.held := by
  obtain ⟨-, hf, -⟩ := h.keeps
  exact held_congr h.undrained hf

/-- A command word other than RESET leaves a faulted block with another response and count: it completes without an effect,
or it is refused. -/
theorem issue_faulted {s : State} {c : Cmd} (hf : s.flt ≠ none) (hreset : decode c ≠ .ok .reset) :
    ∃ r, issue c s = .next { s with resp := r, cmdcnt := s.cmdcnt + 1 } := by
  by_cases hruns : ∀ i, decode c = .ok i → ¬runsWhileFaulted i s = true
  · exact ⟨_, issue_refused hf hreset hruns⟩
  · push Not at hruns
    obtain ⟨i, hd, hruns⟩ := hruns
    rw [issue_ok hd]
    rcases runsWhileFaulted_iff.mp hruns with rfl | ⟨csr, rfl, hv⟩
    · exact ⟨_, exec_nop s⟩
    · obtain ⟨v, hv⟩ := Option.ne_none_iff_exists'.mp hv
      exact ⟨_, exec_csrr_existing hv⟩

/-- An action of the host other than a reset changes nothing that a faulted block holds. -/
theorem hostAct_held {a : HostAct} {s t : State} (h : hostAct a s = .next t) (hf : s.flt ≠ none) (hon : a ≠ .powerOn)
    (hreset : ∀ c, a.word = some c → decode c ≠ .ok .reset) : t.held = s.held := by
  rcases hostAct_cases h with ⟨c, u, hw, hu, e⟩ | ⟨rfl, -⟩ | ⟨-, -, e, -⟩
  · obtain ⟨r, e'⟩ := issue_faulted hf (hreset c hw)
    cases hu.symm.trans e'
    rw [e]
    rfl
  · exact absurd rfl hon
  · rw [e]
    rfl

/-- Settles O13: the drain and every action but a reset keep `State.held`, and the statement lists parts of it. -/
theorem onlyResetLeavesTheFaultedState : Obligations.OnlyResetLeavesTheFaultedState := by
  intro s t hf hstep hon hreset
  have e : t.held = s.held := by
    rcases step_cases hstep with ⟨-, hd⟩ | ⟨a, rest, u, v, hh, hu, hv, ht⟩
    · exact hd.held
    · obtain ⟨-, hflt, -⟩ := hu.keeps
      have hfu : u.flt ≠ none := by rw [hflt]; exact hf
      have hact : v.held = u.held := hostAct_held hv hfu (fun ha => hon rest (by rw [hh, ha])) fun c hw =>
        hreset c ((nextWord_cons hh).trans hw)
      calc t.held = v.held := ht.held
        _ = u.held := hact
        _ = { s with host := rest }.held := hu.held
        _ = s.held := rfl
  have keeps {α : Type} (g : State → α) : g t.held = g s.held := congrArg g e
  exact ⟨keeps State.flt, keeps State.csr, keeps State.mf, keeps State.fr, keeps State.fw, keeps State.src,
    keeps State.srcPos, keeps State.dst, keeps fun u => u.sw.pend, keeps fun u => { u.sw with pend := [] }⟩

end Sys2Proof.Machine

/-! # Power-on reset and RESET (R250) -/

namespace Sys2Proof.Machine

/-- A reset discards SINK and the queue, so what the drain did before it shows in the drain's counter only (R172, R250). -/
theorem Drained.resetBlock {s t : State} (h : Drained s t) :
    resetBlock t = { resetBlock s with drainTick := t.drainTick } := by
  rw [h.frame]
  rfl

/-- A power-on step is the reset: the queue is empty afterwards, so the drain that follows has nothing to move (R250). -/
theorem step_powerOn {s : State} {rest : List HostAct} (h : s.host = .powerOn :: rest) :
    step s = .next (resetBlock (freeDrain (s.withHost rest))) :=
  calc step s = .next (freeDrain (resetBlock (freeDrain (s.withHost rest)))) := step_acts h
    _ = .next (resetBlock (freeDrain (s.withHost rest))) := by rw [freeDrain_empty rfl]

/-- Settles O3: both resets leave `resetBlock`. The step resets after a drain, of which only the counter is left, and RESET
adds its response. -/
theorem powerOnEqualsResetCommand : Obligations.PowerOnEqualsResetCommand := by
  intro s rest hh
  have hdrain := (drained_freeDrain (s.withHost rest)).resetBlock
  refine ⟨_, respond ⟨0, 0, 0, 0⟩ (resetBlock (s.withHost rest)), step_powerOn hh, rfl, ?_⟩
  rw [hdrain]
  rfl

end Sys2Proof.Machine
